-- ==== Sys2Proof/Word.lean ====
section
/-! DEFINITION. The two unsigned quantities of the spec: bytes and 16-bit words (spec/00_scope.md R11). -/

namespace Sys2Proof

/-- A *byte*: 8 bits, unsigned (R11). -/
abbrev Byte := BitVec 8

/-- A *word*: 16 bits, unsigned (R11). -/
abbrev Word := BitVec 16

end Sys2Proof
end

