-- ==== Sys2Proof/Config.lean ====
section
/-! DEFINITION. The implementation parameters of spec/00_scope.md R8, their constraints R9, the launch
configuration, and the free values (opaque constants) that stand for what the spec leaves open. -/

namespace Sys2Proof

/-- The 17 command bytes `OP_*` (spec/30_encoding.md R95, in the order of that table). -/
structure OpBytes where
  enterprog : Byte
  leaveprog : Byte
  autoinc : Byte
  setaddr : Byte
  chiperase : Byte
  devtype : Byte
  ledset : Byte
  ledclr : Byte
  readsig : Byte
  devcodes : Byte
  swid : Byte
  swver : Byte
  progtype : Byte
  exit : Byte
  blksup : Byte
  blkload : Byte
  blkread : Byte
  deriving DecidableEq, Repr

/-- The 17 values in the order of R95. -/
def OpBytes.toList (o : OpBytes) : List Byte :=
  [o.enterprog, o.leaveprog, o.autoinc, o.setaddr, o.chiperase, o.devtype, o.ledset, o.ledclr,
   o.readsig, o.devcodes, o.swid, o.swver, o.progtype, o.exit, o.blksup, o.blkload, o.blkread]

/-- `FLASH_READ_TX`: which 16-bit value flash block-read transmits (R8, spec/44_block_read.md R185,
conflict C1; log 18). -/
inductive FlashReadTx where
  | programWord
  | bufferCell0
  deriving DecidableEq, Repr

/-- What a page write does to a word of the page (spec/93_implementation_defined.md U4; log 14).
`commit` is rule R75; `clearOnly` leaves old AND new; `anyIfNotErased` leaves a free value in a word
that was not erased. -/
inductive PageWriteEffect where
  | commit
  | clearOnly
  | anyIfNotErased
  deriving DecidableEq, Repr

/-- The parameters of R8. `pbInit` is the launch value of the page buffer (U12). -/
structure Config where
  pageWords : Nat
  bootStartBytes : Nat
  flashBytes : Nat
  eepromBytes : Nat
  blockSizeReport : Word
  sig : Vector Byte 3
  devcode : Byte
  swid : Vector Byte 7
  swver : Vector Byte 2
  op : OpBytes
  cr : Byte
  mtFlash : Byte
  mtEeprom : Byte
  flashReadTx : FlashReadTx
  pageWriteEffect : PageWriteEffect
  arInit : Word
  bufInit : List Word
  pbInit : List Word
  deriving DecidableEq, Repr

/-- `PAGE_BYTES = 2 * PAGE_WORDS` (R8). -/
def Config.pageBytes (c : Config) : Nat := 2 * c.pageWords

/-- `QM`, the error response byte, fixed by the source at 0x3F (R8). -/
def Config.qm : Byte := 0x3F

/-- R9 (a): `1 <= PAGE_WORDS <= 32767`. -/
abbrev Config.PageWordsFit (c : Config) : Prop := 1 ≤ c.pageWords ∧ c.pageWords ≤ 32767

/-- R9 (b): `PAGE_BYTES` divides 65536. -/
abbrev Config.PageDividesSpace (c : Config) : Prop := 65536 % c.pageBytes = 0

/-- R9 (c): `BOOT_START_BYTES` is a multiple of `PAGE_BYTES`, and
`BOOT_START_BYTES <= FLASH_BYTES <= 65536`. -/
abbrev Config.BootFits (c : Config) : Prop :=
  c.bootStartBytes % c.pageBytes = 0 ∧ c.bootStartBytes ≤ c.flashBytes ∧ c.flashBytes ≤ 65536

/-- R9 (d): `FLASH_BYTES` is a multiple of `PAGE_BYTES`. -/
abbrev Config.FlashWholePages (c : Config) : Prop := c.flashBytes % c.pageBytes = 0

/-- R9 (e): `EEPROM_BYTES <= 65536`. -/
abbrev Config.EepromFits (c : Config) : Prop := c.eepromBytes ≤ 65536

/-- R9 (f): the 17 `OP_*` values are pairwise distinct. -/
abbrev Config.OpsDistinct (c : Config) : Prop := c.op.toList.Nodup

/-- R9 (g): `MT_FLASH != MT_EEPROM`. -/
abbrev Config.TagsDistinct (c : Config) : Prop := c.mtFlash ≠ c.mtEeprom

/-- The two launch arrays have `PAGE_WORDS` cells (R8 `BUF_INIT[0..PAGE_WORDS-1]`,
spec/20_memory.md R72). -/
abbrev Config.LaunchArraysFit (c : Config) : Prop :=
  c.bufInit.length = c.pageWords ∧ c.pbInit.length = c.pageWords

/-- The well-formedness conditions under which every other rule is stated (R9; log 25). -/
abbrev Config.wf (c : Config) : Prop :=
  c.PageWordsFit ∧ c.PageDividesSpace ∧ c.BootFits ∧ c.FlashWholePages ∧ c.EepromFits ∧
  c.OpsDistinct ∧ c.TagsDistinct ∧ c.LaunchArraysFit

/-- The default command bytes of R95, which are those of spec/opcode_table.json
(PRESUMED: from general knowledge, spec/93 K1; log 2). -/
def OpBytes.default : OpBytes where
  enterprog := 0x50
  leaveprog := 0x4C
  autoinc := 0x61
  setaddr := 0x41
  chiperase := 0x65
  devtype := 0x54
  ledset := 0x78
  ledclr := 0x79
  readsig := 0x73
  devcodes := 0x74
  swid := 0x53
  swver := 0x56
  progtype := 0x70
  exit := 0x45
  blksup := 0x62
  blkload := 0x42
  blkread := 0x67

/-- The configuration of `State.reset`: configuration T of spec/95_test_vectors.md with the launch values
of start state S0 (DESIGN CHOICE, log 1, log 3, log 6; `op`, `cr`, `mtEeprom` PRESUMED, log 2). The spec
gives no device constant: statements are about every configuration, never about this one. -/
def Config.launch : Config where
  pageWords := 4
  bootStartBytes := 0x40
  flashBytes := 0x60
  eepromBytes := 0x20
  blockSizeReport := 4
  sig := #v[0xA1, 0xA2, 0xA3]
  devcode := 0x7B
  swid := #v[0x54, 0x45, 0x53, 0x54, 0x4C, 0x44, 0x52]
  swver := #v[0x30, 0x37]
  op := OpBytes.default
  cr := 0x0D
  mtFlash := 0x46
  mtEeprom := 0x45
  flashReadTx := .programWord
  pageWriteEffect := .commit
  arInit := 0x7777
  bufInit := [0x1111, 0x2222, 0x3333, 0x4444]
  pbInit := [0x9999, 0x9999, 0x9999, 0x9999]

/-- The `n`-th free word: a word the spec leaves open (log 28). Nothing constrains it. -/
opaque Config.freeWord : Nat → Word

/-- The `n`-th free byte (log 28). -/
opaque Config.freeByte : Nat → Byte

/-- Does the byte at place `k` of the host's stream survive the `n`-th drawn reset (log 12)? -/
opaque Config.survives : Nat → Nat → Bool

/-- Word `k` of the flash after the `n`-th draw for a page write or erase outside the reference model's
domain (spec/20_memory.md R79, U6; log 13). -/
opaque Config.strayFlash : Nat → Nat → Word

/-- Byte `a` of the EEPROM after the `n`-th draw for an EEPROM write outside the reference model's
domain (R79, U7; log 13). -/
opaque Config.strayEeprom : Nat → Nat → Byte

end Sys2Proof
end

