-- ==== Sys2Proof/Syntax.lean ====
section
/-! DEFINITION. The commands as syntax: one constructor per row of spec/opcode_table.json
(spec/30_encoding.md R95), each with the operands its format R91 gives it. -/

namespace Sys2Proof

/-- Which row of the dispatch table a command byte selects (R95, R96). -/
inductive Opcode where
  | enterprog | leaveprog | autoinc | setaddr | chiperase | devtype | ledset | ledclr | readsig
  | devcodes | swid | swver | progtype | exit | blksup | blkload | blkread
  | unknown
  deriving DecidableEq, Repr

/-- The memory a block command works on (spec/30_encoding.md R93, spec/10_state.md R29). -/
inductive Target where
  | flash
  | eeprom
  deriving DecidableEq, Repr

/-- What follows the length of a block-load whose length is not oversize: the memory-type byte and the
payload bytes in the order received (format `FBL`, R91, R94). -/
structure LoadBody where
  memType : Byte
  payload : List Byte
  deriving DecidableEq, Repr

/-- One complete command: command byte and argument bytes (R90). -/
inductive Instr where
  | enterprog
  | leaveprog
  | autoinc
  | setaddr (addr : Word)
  | chiperase
  | devtype (arg : Byte)
  | ledset (arg : Byte)
  | ledclr (arg : Byte)
  | readsig
  | devcodes
  | swid
  | swver
  | progtype
  | exit
  | blksup
  /-- `body` is `none` when the length is oversize: memory type and payload are then absent (R91). -/
  | blkload (len : Word) (body : Option LoadBody)
  | blkread (len : Word) (memType : Byte)
  /-- Any command byte that is none of the 17 (R195). -/
  | unknown (cmd : Byte)
  deriving DecidableEq, Repr

/-- The row an instruction belongs to. -/
def Instr.opcode : Instr → Opcode
  | .enterprog => .enterprog
  | .leaveprog => .leaveprog
  | .autoinc => .autoinc
  | .setaddr _ => .setaddr
  | .chiperase => .chiperase
  | .devtype _ => .devtype
  | .ledset _ => .ledset
  | .ledclr _ => .ledclr
  | .readsig => .readsig
  | .devcodes => .devcodes
  | .swid => .swid
  | .swver => .swver
  | .progtype => .progtype
  | .exit => .exit
  | .blksup => .blksup
  | .blkload _ _ => .blkload
  | .blkread _ _ => .blkread
  | .unknown _ => .unknown

end Sys2Proof
end

