-- ==== Sys2Proof/Machine/Operands.lean ====
section
/-! DEFINITION. Operands: byte order on the wire (spec/20_memory.md R63, spec/30_encoding.md R92), the
memory-type operand (R93), the size of a block-load's payload (R94) and the address register's three
operations (spec/10_state.md R23). -/

namespace Sys2Proof.Machine

/-- `hi ++ lo`: a word from two bytes, the first received being the high byte (R63, R92). -/
def joinBytes (hi lo : Byte) : Word := hi ++ lo

/-- `v[15:8]` (R11). -/
def highByte (w : Word) : Byte := w.extractLsb' 8 8

/-- `v[7:0]` (R11). -/
def lowByte (w : Word) : Byte := w.extractLsb' 0 8

/-- The two bytes of a word in wire order, high byte first (R63). -/
def wireBytes (w : Word) : List Byte := [highByte w, lowByte w]

/-- The memory-type byte is compared for equality with `MT_FLASH`, then with `MT_EEPROM` (R93). -/
def memTarget (c : Config) (mt : Byte) : Option Target :=
  if mt = c.mtFlash then some .flash
  else if mt = c.mtEeprom then some .eeprom
  else none

/-- How many payload bytes a block-load of length `len` and memory type `mt` carries (R94, R98): two a
word for flash, one for EEPROM, none for an unknown type. -/
def payloadBytes (c : Config) (len : Word) (mt : Byte) : Nat :=
  match memTarget c mt with
  | some .flash => 2 * len.toNat
  | some .eeprom => len.toNat
  | none => 0

/-- R23 (b): `AR * 2` modulo 65536, the word-to-byte conversion. -/
def shiftAddress (ar : Word) : Word := ar <<< 1

/-- R23 (c): `AR + n` modulo 65536. -/
def advanceAddress (ar : Word) (n : Nat) : Word := ar + BitVec.ofNat 16 n

end Sys2Proof.Machine
end

