-- ==== Sys2Proof/Machine/Flags.lean ====
section
/-! DEFINITION. The block has NO flags and no condition codes (spec/10_state.md R36): no command sets or
reads one. What stands here are the two conditions the handlers test, computed afresh each time and kept
nowhere (spec/60_exceptions.md R200). -/

namespace Sys2Proof.Machine

/-- The oversize test `LEN > PAGE_WORDS`, unsigned, for both memory types (spec/43_block_load.md R161). -/
def oversize (c : Config) (len : Word) : Bool := decide (c.pageWords < len.toNat)

/-- The memory-type byte equals neither tag (R200, spec/43 R164, spec/44 R183). -/
def unknownMemType (c : Config) (mt : Byte) : Bool := (memTarget c mt).isNone

end Sys2Proof.Machine
end

