-- ==== Sys2Proof/WellFormed.lean ====
section
/-! DEFINITION. Which instructions are commands of the block under a configuration: the shapes of formats
`F0`, `F1`, `FA`, `FBR` and `FBL` (spec/30_encoding.md R91, R97, R98). -/

namespace Sys2Proof

open Machine

/-- The body of a block-load has the shape R98 prescribes for its length: absent when the length is
oversize, else present with exactly the payload its memory type calls for. -/
def LoadBody.fits (c : Config) (len : Word) : Option LoadBody → Bool
  | none => oversize c len
  | some b => !oversize c len && b.payload.length == payloadBytes c len b.memType

/-- Well-formed under configuration `c`. Only block-load and the unknown case have anything to check:
every value of every other operand is accepted (R97, R201). -/
def Instr.wf (c : Config) : Instr → Bool
  | .enterprog => true
  | .leaveprog => true
  | .autoinc => true
  | .setaddr _ => true
  | .chiperase => true
  | .devtype _ => true
  | .ledset _ => true
  | .ledclr _ => true
  | .readsig => true
  | .devcodes => true
  | .swid => true
  | .swver => true
  | .progtype => true
  | .exit => true
  | .blksup => true
  | .blkload len body => LoadBody.fits c len body
  | .blkread _ _ => true
  | .unknown cmd => !c.op.toList.contains cmd

end Sys2Proof
end

