-- ==== Sys2Proof/Decode.lean ====
section
/-! DEFINITION. Decoding the byte stream into commands (spec/30_encoding.md R90 to R99), the encoder of the
same table, and the host's view of the opcode table's words. -/

namespace Sys2Proof

open Machine

/-- R96: the command byte is compared for equality with the 17 `OP_*` values; if none matches, the
unknown case is selected. Total on all 256 byte values (spec/45_unknown.md R196 (d)). -/
def opcodeOf (o : OpBytes) (c : Byte) : Opcode :=
  if c = o.enterprog then .enterprog
  else if c = o.leaveprog then .leaveprog
  else if c = o.autoinc then .autoinc
  else if c = o.setaddr then .setaddr
  else if c = o.chiperase then .chiperase
  else if c = o.devtype then .devtype
  else if c = o.ledset then .ledset
  else if c = o.ledclr then .ledclr
  else if c = o.readsig then .readsig
  else if c = o.devcodes then .devcodes
  else if c = o.swid then .swid
  else if c = o.swver then .swver
  else if c = o.progtype then .progtype
  else if c = o.exit then .exit
  else if c = o.blksup then .blksup
  else if c = o.blkload then .blkload
  else if c = o.blkread then .blkread
  else .unknown

/-- Which byte of a command has not arrived: the only way a byte list is no complete command. -/
inductive Missing where
  | commandByte
  | argumentByte
  | addressByte
  | lengthByte
  | memTypeByte
  | payloadByte
  deriving DecidableEq, Repr

/-- The result of decoding: a command and the bytes after it, or what is missing. -/
abbrev Decoded := Except Missing (Instr × List Byte)

/-- Format `F1`: one argument byte (R91). -/
def decodeF1 (mk : Byte → Instr) : List Byte → Decoded
  | arg :: rest => .ok (mk arg, rest)
  | [] => .error .argumentByte

/-- Format `FA`: two address bytes, high byte first (R91, R92). -/
def decodeFA : List Byte → Decoded
  | hi :: lo :: rest => .ok (.setaddr (joinBytes hi lo), rest)
  | _ => .error .addressByte

/-- Format `FBR`: two length bytes and the memory type (R91, R92). -/
def decodeFBR : List Byte → Decoded
  | hi :: lo :: mt :: rest => .ok (.blkread (joinBytes hi lo) mt, rest)
  | _ :: _ :: [] => .error .memTypeByte
  | _ => .error .lengthByte

/-- Format `FBL`: the length; nothing more if it is oversize; else the memory type and the payload
(R91, R94, R98). -/
def decodeFBL (c : Config) : List Byte → Decoded
  | hi :: lo :: bs =>
    let len := joinBytes hi lo
    if oversize c len then .ok (.blkload len none, bs)
    else match bs with
      | [] => .error .memTypeByte
      | mt :: rest =>
        let n := payloadBytes c len mt
        if rest.length < n then .error .payloadByte
        else .ok (.blkload len (some ⟨mt, rest.take n⟩), rest.drop n)
  | _ => .error .lengthByte

/-- The arguments that the selected row's format prescribes (R91). -/
def decodeArgs (c : Config) (cmd : Byte) (o : Opcode) (bs : List Byte) : Decoded :=
  match o with
  | .enterprog => .ok (.enterprog, bs)
  | .leaveprog => .ok (.leaveprog, bs)
  | .autoinc => .ok (.autoinc, bs)
  | .setaddr => decodeFA bs
  | .chiperase => .ok (.chiperase, bs)
  | .devtype => decodeF1 .devtype bs
  | .ledset => decodeF1 .ledset bs
  | .ledclr => decodeF1 .ledclr bs
  | .readsig => .ok (.readsig, bs)
  | .devcodes => .ok (.devcodes, bs)
  | .swid => .ok (.swid, bs)
  | .swver => .ok (.swver, bs)
  | .progtype => .ok (.progtype, bs)
  | .exit => .ok (.exit, bs)
  | .blksup => .ok (.blksup, bs)
  | .blkload => decodeFBL c bs
  | .blkread => decodeFBR bs
  | .unknown => .ok (.unknown cmd, bs)

/-- Decode the command at the head of a byte stream (R90, R96, R98). Every byte list either begins with
one complete command or lacks a named byte of one; no byte value is rejected (R97). -/
def decode (c : Config) : List Byte → Decoded
  | [] => .error .commandByte
  | cmd :: bs => decodeArgs c cmd (opcodeOf c.op cmd) bs

/-- The command byte of an instruction (R95). -/
def commandByte (c : Config) : Instr → Byte
  | .enterprog => c.op.enterprog
  | .leaveprog => c.op.leaveprog
  | .autoinc => c.op.autoinc
  | .setaddr _ => c.op.setaddr
  | .chiperase => c.op.chiperase
  | .devtype _ => c.op.devtype
  | .ledset _ => c.op.ledset
  | .ledclr _ => c.op.ledclr
  | .readsig => c.op.readsig
  | .devcodes => c.op.devcodes
  | .swid => c.op.swid
  | .swver => c.op.swver
  | .progtype => c.op.progtype
  | .exit => c.op.exit
  | .blksup => c.op.blksup
  | .blkload _ _ => c.op.blkload
  | .blkread _ _ => c.op.blkread
  | .unknown cmd => cmd

/-- The argument bytes of an instruction, in the order they are sent (R91, R102). -/
def argumentBytes : Instr → List Byte
  | .enterprog => []
  | .leaveprog => []
  | .autoinc => []
  | .setaddr addr => wireBytes addr
  | .chiperase => []
  | .devtype arg => [arg]
  | .ledset arg => [arg]
  | .ledclr arg => [arg]
  | .readsig => []
  | .devcodes => []
  | .swid => []
  | .swver => []
  | .progtype => []
  | .exit => []
  | .blksup => []
  | .blkload len none => wireBytes len
  | .blkload len (some b) => wireBytes len ++ b.memType :: b.payload
  | .blkread len mt => wireBytes len ++ [mt]
  | .unknown _ => []

/-- The bytes of a command (R90, R91). -/
def encode (c : Config) (i : Instr) : List Byte := commandByte c i :: argumentBytes i

/-- The bytes of a table word: bit 0 is the least significant bit of the first byte. -/
def tableBytes : Nat → Nat → List Byte
  | 0, _ => []
  | n + 1, w => BitVec.ofNat 8 w :: tableBytes n (w / 256)

/-- The bytes of a table word of `nbits` bits, followed by zero bytes up to the longest command. -/
def paddedTableBytes (c : Config) (nbits w : Nat) : List Byte :=
  tableBytes ((nbits + 7) / 8) w ++ List.replicate (4 + 2 * c.pageWords) 0

/-- The instruction the decoder reads from a table word, under the launch configuration, whose command
bytes are those of the table. -/
def decodeTableWord (nbits w : Nat) : Option Instr :=
  match decode Config.launch (paddedTableBytes Config.launch nbits w) with
  | .ok (i, _) => some i
  | .error _ => none

/-- Exactly the bytes of that one command: the padding that it does not take is left off. -/
def tableCommandBytes (c : Config) (nbits w : Nat) : List Byte :=
  let bs := paddedTableBytes c nbits w
  match decode c bs with
  | .ok (_, rest) => bs.take (bs.length - rest.length)
  | .error _ => bs

end Sys2Proof
end

