-- ==== Sys2Proof/Machine/State.lean ====
section
/-! DEFINITION. The state of the machine as plain data, the reasons a step can stop, and the state after
reset. The block's five elements are spec/10_state.md R20; the memories are the reference environment of
spec/20_memory.md R70 to R79; `rx` and `env` are the environment's inputs; `trace` and `draws` are
the model's own. -/

namespace Sys2Proof.Machine

/-- The sequencer state (spec/10_state.md R31 to R33): the two values between commands, and the positions
inside a handler, each named by the port transaction that comes next, with the handler's locals. -/
inductive Phase where
  /-- "a single persistent state" between commands (R31). -/
  | awaitCommand
  /-- Terminal, after exit (spec/42_exit.md R151). -/
  | handedOff
  /-- DEVTYPE waits on the byte it discards (spec/40 R124). -/
  | devtypeArg
  /-- LEDSET waits on the byte it discards (R125). -/
  | ledsetArg
  /-- LEDCLR waits on the byte it discards (R126). -/
  | ledclrArg
  /-- SETADDR waits on the high byte (spec/41 R140). -/
  | setaddrHi
  /-- SETADDR waits on the low byte. -/
  | setaddrLo (hi : Byte)
  /-- BLKLOAD waits on `len_hi` (spec/43 R160). -/
  | loadLenHi
  /-- BLKLOAD waits on `len_lo`. -/
  | loadLenLo (hi : Byte)
  /-- BLKLOAD waits on the memory type. -/
  | loadType
  /-- BLKLOAD flash waits on the high byte of word `i`. -/
  | loadWordHi (i : Nat)
  /-- BLKLOAD flash waits on the low byte of word `i`. -/
  | loadWordLo (i : Nat) (hi : Byte)
  /-- BLKLOAD EEPROM waits on byte `i`. -/
  | loadByte (i : Nat)
  /-- BLKREAD waits on `len_hi` (spec/44 R180). -/
  | readLenHi
  /-- BLKREAD waits on `len_lo`. -/
  | readLenLo (hi : Byte)
  /-- BLKREAD waits on the memory type. -/
  | readType
  /-- The next transaction is `Send(b)`; `bs` are sent after it, and the handler ends. -/
  | sending (b : Byte) (bs : List Byte)
  /-- CHIPERASE: the next transaction is `PageErase(a)` (R141). -/
  | erasing (a : Word)
  /-- EXIT: the next transaction is `Handoff()` (R150). -/
  | handingOff
  /-- BLKLOAD flash: the next transaction is `NvmWait()` (R162 step 3). -/
  | loadWait
  /-- BLKLOAD flash: the next transaction is the `PageFill` of cell `i` (step 4). -/
  | loadFill (i : Nat)
  /-- BLKLOAD flash: the next transaction is `PageWrite(AR)` (step 5). -/
  | loadWrite
  /-- BLKLOAD EEPROM: the next transaction writes payload byte `i`, which is `b` (R163). -/
  | loadByteWrite (i : Nat) (b : Byte)
  /-- BLKREAD flash: the next transaction is `MemRead(FLASH, AR, 2)`; `n` turns follow this one (R181). -/
  | readWord (n : Nat)
  /-- BLKREAD flash: the next transaction sends the high byte of `w`. -/
  | readWordHi (w : Word) (n : Nat)
  /-- BLKREAD flash: the next transaction sends the low byte of `w`. -/
  | readWordLo (w : Word) (n : Nat)
  /-- BLKREAD EEPROM: the next transaction is `MemRead(EEPROM, AR, 1)`; `n` turns follow (R182). -/
  | readByte (n : Nat)
  /-- BLKREAD EEPROM: the next transaction sends `b`. -/
  | readByteOut (b : Byte) (n : Nat)
  deriving DecidableEq, Repr

/-- A move of the environment behind the ports (spec/70 R230, R236, R240; log 10). -/
inductive EnvMove where
  /-- The pending transaction completes, and no other. -/
  | complete
  /-- The pending transaction never completes; a later reset ends the wait (R240). -/
  | stall
  /-- `RESET` is raised, whatever is pending. -/
  | reset
  deriving DecidableEq, Repr

/-- A completed port transaction with what it moved (spec/00_scope.md R13, spec/20_memory.md R51). -/
inductive Txn where
  | recv (b : Byte)
  | send (b : Byte)
  | pageErase (a : Word)
  | pageFill (a : Word) (w : Word)
  | pageWrite (a : Word)
  | nvmWait
  | readFlash (a : Word) (w : Word)
  | readEeprom (a : Word) (b : Byte)
  | writeEeprom (a : Word) (b : Byte)
  | handoff
  deriving DecidableEq, Repr

/-- The kinds of `raise Reject(kind)` (spec/00_scope.md R14, spec/60_exceptions.md R200). -/
inductive RejectKind where
  | unknownCommand
  | oversizeBlock
  | unknownMemType
  deriving DecidableEq, Repr

/-- A memory of `w`-bit cells: (index, content) pairs, indexes strictly rising, no entry equal to what an
unlisted index reads as. `Memory 8` is a list of `Host.Cell`. -/
abbrev Memory (w : Nat) := List (Nat × BitVec w)

/-- Why the machine stops. -/
inductive Fault where
  /-- Raised by `step` when the configuration breaks spec/00_scope.md R9, under which every rule is
  stated. Safe: such a configuration is given no behaviour (log 25). -/
  | illConfigured
  deriving DecidableEq, Repr

/-- Why an instruction is given no meaning. -/
inductive Refusal where
  /-- Raised by `exec` for an instruction whose meaning is not written yet; none is. Safe. -/
  | notModelled (mnemonic : String)
  /-- Raised by `execBlkload` when given a term whose body does not have the shape spec/30_encoding.md R98
  prescribes, which no byte sequence decodes to; `step` never asks it. Safe (log 26). -/
  | illFormed
  deriving DecidableEq, Repr

/-- The whole machine state. -/
structure State where
  /-- The parameters of spec/00_scope.md R8; no operation writes them. -/
  cfg : Config
  /-- `AR`, the address register (spec/10_state.md R21). -/
  ar : Word
  /-- `BUF`, the block buffer, `PAGE_WORDS` cells (R25). -/
  buf : List Word
  /-- `LEN`, the block length latch (R28). -/
  len : Word
  /-- `MT`, the memory-type latch (R29). -/
  mt : Byte
  /-- The sequencer (R31, R33). -/
  phase : Phase
  /-- Reference `FLASH`, by word index (spec/20_memory.md R71). -/
  flash : Memory 16
  /-- Reference page buffer `PB`, `PAGE_WORDS` words (R72). -/
  pb : List Word
  /-- Reference `EEPROM`, by byte address (R77). -/
  eeprom : Memory 8
  /-- The bytes of the host's stream that the block has not taken (R52; R39 (c) of spec/10). -/
  rx : List Byte
  /-- What the environment does, oldest move first: which transactions it completes, and when it raises the
  `RESET` port (R51; spec/70 R230, R240). When no move is left it completes every transaction and raises no
  reset: the completion premise of spec/92 D24 (log 10). -/
  env : List EnvMove
  /-- The completed transactions, oldest first: the model's own record (log 24). -/
  trace : List Txn
  /-- How many free values have been drawn: the model's own counter (log 28). -/
  draws : Nat
  deriving DecidableEq, Repr

/-- The state right after reset under a configuration (spec/10_state.md R40): `phase = AwaitCommand`,
`AR = AR_INIT`, `BUF = BUF_INIT`; `LEN` and `MT` hold no meaningful value and are 0 (log 4); memories with
nothing listed (log 5). -/
def State.launch (c : Config) : State where
  cfg := c
  ar := c.arInit
  buf := c.bufInit
  len := 0
  mt := 0
  phase := .awaitCommand
  flash := []
  pb := c.pbInit
  eeprom := []
  rx := []
  env := []
  trace := []
  draws := 0

/-- The machine right after reset (R40), under the launch configuration (log 1). -/
def State.reset : State := State.launch Config.launch

end Sys2Proof.Machine
end

