-- ==== Sys2Proof/Machine/Ops.lean ====
section
/-! DEFINITION. The named operations over the memories, the ports and the block's registers: the primitives
of spec/00_scope.md R13, the reference memories of spec/20_memory.md R70 to R79, the one error response
(R14, spec/60 R207) and the reset (spec/70 R230). -/

namespace Sys2Proof.Machine

/-! ### Memories -/

/-- What an unlisted cell reads as: all bits set, "the erased-cell value" (spec/20_memory.md R73; for a
memory nothing has written a DESIGN CHOICE, log 5). -/
def blank (w : Nat) : BitVec w := BitVec.allOnes w

/-- Indexes strictly rise along the list. -/
def Memory.rising {w : Nat} : Memory w → Bool
  | [] => true
  | [_] => true
  | x :: y :: m => decide (x.1 < y.1) && Memory.rising (y :: m)

/-- The canonical form: indexes strictly rising, no entry blank. -/
def Memory.wf {w : Nat} (m : Memory w) : Bool := Memory.rising m && m.all (fun c => c.2 != blank w)

/-- Every listed index lies below `n`, the number of cells the memory has. -/
def Memory.within {w : Nat} (n : Nat) (m : Memory w) : Bool := m.all (fun c => decide (c.1 < n))

/-- The content of cell `a`. -/
def Memory.read {w : Nat} : Memory w → Nat → BitVec w
  | [], _ => blank w
  | x :: m, a => if x.1 = a then x.2 else Memory.read m a

/-- Put an entry in its place, replacing an entry of the same index. -/
def Memory.insert {w : Nat} (a : Nat) (v : BitVec w) : Memory w → Memory w
  | [] => [(a, v)]
  | x :: m =>
    if x.1 < a then x :: Memory.insert a v m
    else if x.1 = a then (a, v) :: m
    else (a, v) :: x :: m

/-- Write `v` to cell `a`; writing the blank value removes the entry. -/
def Memory.write {w : Nat} (m : Memory w) (a : Nat) (v : BitVec w) : Memory w :=
  if v = blank w then m.filter (fun c => c.1 != a) else Memory.insert a v m

/-- Write consecutive cells from `base`. -/
def Memory.writeRun {w : Nat} (m : Memory w) (base : Nat) : List (BitVec w) → Memory w
  | [] => m
  | v :: vs => Memory.writeRun (m.write base v) (base + 1) vs

/-- Make cells `base .. base + n - 1` blank. -/
def Memory.eraseRun {w : Nat} (m : Memory w) (base n : Nat) : Memory w :=
  m.filter (fun c => decide (c.1 < base) || decide (base + n ≤ c.1))

/-- A memory of `n` cells whose cell `k` holds `f k`, in canonical form. -/
def Memory.drawn {w : Nat} (n : Nat) (f : Nat → BitVec w) : Memory w :=
  ((List.range n).map (fun k => (k, f k))).filter (fun c => c.2 != blank w)

/-! ### The record of transactions, and the registers -/

/-- Record a completed transaction (R13, R80: program order). -/
def State.log (s : State) (t : Txn) : State := { s with trace := s.trace ++ [t] }

/-- `AR <- w` (spec/10_state.md R23 (a)). -/
def State.setAr (s : State) (w : Word) : State := { s with ar := w }

/-- `AR <- (AR * 2) mod 65536` (R23 (b)). -/
def State.shiftAr (s : State) : State := s.setAr (shiftAddress s.ar)

/-- `AR <- (AR + n) mod 65536` (R23 (c)). -/
def State.advanceAr (s : State) (n : Nat) : State := s.setAr (advanceAddress s.ar n)

/-- `BUF[i] <- w` (spec/00_scope.md R12). -/
def State.setBuf (s : State) (i : Nat) (w : Word) : State := { s with buf := s.buf.set i w }

/-- `BUF[i]` for `i < PAGE_WORDS` (R12). No handler reads another index. -/
def State.bufCell (s : State) (i : Nat) : Word := s.buf.getD i 0

/-- `LEN <- w` (spec/10_state.md R28). -/
def State.setLen (s : State) (w : Word) : State := { s with len := w }

/-- `MT <- b` (R29). -/
def State.setMt (s : State) (b : Byte) : State := { s with mt := b }

/-- `phase <- p`. -/
def State.setPhase (s : State) (p : Phase) : State := { s with phase := p }

/-- The end of a handler: `phase <- AwaitCommand` (R32). -/
def State.finish (s : State) : State := s.setPhase .awaitCommand

/-! ### RX and TX -/

/-- A completed `Recv()` that returned `b` (spec/20_memory.md R52). The byte leaves `rx` in `takeCommand`
or `transact`. -/
def State.recv (s : State) (b : Byte) : State := s.log (.recv b)

/-- Two completed `Recv()` that returned a word's bytes, high byte first (R63). -/
def State.recvWord (s : State) (w : Word) : State := (s.recv (highByte w)).recv (lowByte w)

/-- A completed `Send(b)` (R53). -/
def State.send (s : State) (b : Byte) : State := s.log (.send b)

/-- `Send` of each byte in order. -/
def State.sendAll (s : State) : List Byte → State
  | [] => s
  | b :: bs => State.sendAll (s.send b) bs

/-- The last two lines of most handlers: send a response and return to `AwaitCommand`. -/
def State.answer (s : State) (bs : List Byte) : State := (s.sendAll bs).finish

/-- `raise Reject(kind)`: exactly `Send(QM)`, then `phase <- AwaitCommand`; nothing saved, nothing else
changed, and all three kinds reported alike (spec/00_scope.md R14, spec/60_exceptions.md R200, R207).
There is no return from it and nothing to restore (R208). -/
def State.reject (s : State) (_kind : RejectKind) : State := s.answer [Config.qm]

/-! ### NVM: the flash -/

/-- The index of the first word of the page that holds byte address `a` (spec/20_memory.md R71). -/
def pageBase (c : Config) (a : Word) : Nat := a.toNat / c.pageBytes * c.pageWords

/-- The word index of byte address `a` (R71). -/
def wordIndex (a : Word) : Nat := a.toNat / 2

/-- The number of words of the flash (R71). -/
def Config.flashWords (c : Config) : Nat := c.flashBytes / 2

/-- An erase or write outside the reference model's domain: the model draws its result (R79, U6; log 13).
Every word of the flash becomes free; nothing else changes. -/
def State.drawFlash (s : State) : State :=
  { s with
    flash := Memory.drawn (Config.flashWords s.cfg) (Config.strayFlash s.draws)
    draws := s.draws + 1 }

/-- `PageErase(a)` (R55, R73): every word of the page becomes 0xFFFF. -/
def State.pageErase (s : State) (a : Word) : State :=
  let s := s.log (.pageErase a)
  if a.toNat < s.cfg.bootStartBytes then
    { s with flash := s.flash.eraseRun (pageBase s.cfg a) s.cfg.pageWords }
  else s.drawFlash

/-- `PageFill(a, w)` (R56, R74): `PB[(a div 2) mod PAGE_WORDS] <- w`. -/
def State.pageFill (s : State) (a : Word) (w : Word) : State :=
  let s := s.log (.pageFill a w)
  { s with pb := s.pb.set (wordIndex a % s.cfg.pageWords) w }

/-- What a page write leaves in a word: rule R75 by default, the alternatives of U4 under the other values
of the parameter (log 14). -/
def writtenWord (e : PageWriteEffect) (draw old new : Word) : Word :=
  match e with
  | .commit => new
  | .clearOnly => old &&& new
  | .anyIfNotErased => if old = blank 16 then new else draw

/-- The words a page write at `a` leaves in its page, in order. -/
def State.writtenPage (s : State) (a : Word) : List Word :=
  (List.range s.cfg.pageWords).map (fun j =>
    writtenWord s.cfg.pageWriteEffect (Config.freeWord (s.draws + j))
      (s.flash.read (pageBase s.cfg a + j)) (s.pb.getD j 0))

/-- `PageWrite(a)` (R57, R75). `PB` is left unchanged. -/
def State.pageWrite (s : State) (a : Word) : State :=
  let s := s.log (.pageWrite a)
  if a.toNat < s.cfg.bootStartBytes then
    { s with
      flash := s.flash.writeRun (pageBase s.cfg a) (s.writtenPage a)
      draws := s.draws + s.cfg.pageWords }
  else s.drawFlash

/-- `NvmWait()` (R58): in the reference model it completes at once and changes nothing (R78; log 17). -/
def State.nvmWait (s : State) : State := s.log .nvmWait

/-- The word `MemRead(FLASH, a, 2)` returns (R59, R76); beyond the end, any value (U7; log 13). -/
def State.flashWord (s : State) (a : Word) : Word :=
  if a.toNat < s.cfg.flashBytes then s.flash.read (wordIndex a) else Config.freeWord s.draws

/-- `MemRead(FLASH, a, 2)` as a transaction: recorded, and a drawn value counted. -/
def State.readFlash (s : State) (a : Word) : State :=
  let t := s.log (.readFlash a (s.flashWord a))
  if a.toNat < s.cfg.flashBytes then t else { t with draws := t.draws + 1 }

/-! ### NVM: the EEPROM -/

/-- An EEPROM write outside the reference model's domain: every EEPROM byte becomes free; nothing else changes
(R79, U7; log 13). -/
def State.drawEeprom (s : State) : State :=
  { s with
    eeprom := Memory.drawn s.cfg.eepromBytes (Config.strayEeprom s.draws)
    draws := s.draws + 1 }

/-- `MemWrite(EEPROM, a, 1, b)` (R61, R77). Beyond the end the model draws the result: every EEPROM byte
becomes free and nothing else changes (R79, U7; log 13). -/
def State.writeEeprom (s : State) (a : Word) (b : Byte) : State :=
  let s := s.log (.writeEeprom a b)
  if a.toNat < s.cfg.eepromBytes then { s with eeprom := s.eeprom.write a.toNat b }
  else s.drawEeprom

/-- The byte `MemRead(EEPROM, a, 1)` returns (R60, R77); beyond the end, any value (U7; log 13). -/
def State.eepromByte (s : State) (a : Word) : Byte :=
  if a.toNat < s.cfg.eepromBytes then s.eeprom.read a.toNat else Config.freeByte s.draws

/-- `MemRead(EEPROM, a, 1)` as a transaction: recorded, and a drawn value counted. -/
def State.readEeprom (s : State) (a : Word) : State :=
  let t := s.log (.readEeprom a (s.eepromByte a))
  if a.toNat < s.cfg.eepromBytes then t else { t with draws := t.draws + 1 }

/-! ### HANDOFF and RESET -/

/-- `Handoff()` then `phase <- HandedOff` (R62, spec/42_exit.md R150). -/
def State.handOff (s : State) : State := (s.log .handoff).setPhase .handedOff

/-- A page whose erase or write was in progress when a reset came: each of its words is any value
(spec/70 R231, U10; log 12). At or above `BOOT_START_BYTES` the flash is drawn whole, as R79. -/
def State.tearPage (s : State) (a : Word) : State :=
  if a.toNat < s.cfg.bootStartBytes then
    { s with
      flash := s.flash.writeRun (pageBase s.cfg a)
        ((List.range s.cfg.pageWords).map (fun j => Config.freeWord (s.draws + j)))
      draws := s.draws + s.cfg.pageWords }
  else s.drawFlash

/-- An EEPROM byte whose write was in progress when a reset came is any value (R231, U10; log 12). -/
def State.tearByte (s : State) (a : Word) : State :=
  if a.toNat < s.cfg.eepromBytes then
    { s with eeprom := s.eeprom.write a.toNat (Config.freeByte s.draws), draws := s.draws + 1 }
  else s.drawEeprom

/-- The pending transaction is abandoned without completing (R230); one that was changing a memory leaves
the place it was changing at any value (R231). -/
def State.abandon (s : State) : State :=
  match s.phase with
  | .erasing a => s.tearPage a
  | .loadWrite => s.tearPage s.ar
  | .loadByteWrite _ _ => s.tearByte s.ar
  | _ => s

/-- The bytes of the host's stream that survive a reset, in order: no source says what a reset does to
those in flight (R231; log 12). -/
def survivors (f : Nat → Bool) (bs : List Byte) : List Byte :=
  (bs.zipIdx.filter (fun p => f p.2)).map Prod.fst

/-- The block and the page buffer after a reset (R230, R231; log 12): `phase = AwaitCommand`; `AR`, `BUF`,
`LEN`, `MT` and the page buffer hold any value; any bytes in flight may be lost. -/
def State.restart (s : State) : State :=
  { s with
    phase := .awaitCommand
    ar := Config.freeWord s.draws
    len := Config.freeWord (s.draws + 1)
    mt := Config.freeByte s.draws
    buf := (List.range s.cfg.pageWords).map (fun i => Config.freeWord (s.draws + 2 + i))
    pb := (List.range s.cfg.pageWords).map
      (fun i => Config.freeWord (s.draws + 2 + s.cfg.pageWords + i))
    rx := survivors (Config.survives s.draws) s.rx
    draws := s.draws + 2 + 2 * s.cfg.pageWords }

/-- The reset input (R230, R231): the handler in progress is abandoned, then the block starts anew. That no NVM
operation goes on through the reset, so that the memory is not busy after it, is the model's choice (DESIGN
CHOICE, log 31): R231 says that no source tells. -/
def State.takeReset (s : State) : State := s.abandon.restart

/-! ### The environment's moves -/

/-- The environment's next move is taken from its schedule. -/
def State.dropMove (s : State) (moves : List EnvMove) : State := { s with env := moves }

/-- The pending transaction does not complete, and "only reset ends such a wait" (R240): the block stays as it
is, and the environment goes on to its next reset, if there is one. -/
def State.stalled (s : State) (moves : List EnvMove) : State :=
  match moves.dropWhile (fun m => m != .reset) with
  | [] => s
  | m :: ms => s.dropMove (m :: ms)

/-! ### Fetch -/

/-- `c <- Recv()` in `AwaitCommand` (spec/10_state.md R32), when the command is complete: its bytes leave
`rx`, of which `rest` remains, and the command byte's `Recv` is recorded. The command's meaning records
those of its arguments, in their place among its other transactions. -/
def State.takeCommand (s : State) (rest : List Byte) : State :=
  { s with rx := rest, trace := s.trace ++ (s.rx.take 1).map .recv }

/-- The instruction stored at the head of the host's stream, with the block waiting for a command and an
environment that completes every transaction. -/
def State.placeCommand (s : State) (bytes : List Byte) : State :=
  { s with rx := bytes ++ s.rx, phase := .awaitCommand, env := [] }

end Sys2Proof.Machine
end

