-- ==== Sys2Proof/Machine/Session.lean ====
section
/-! DEFINITION. Session no-ops, ignored-argument commands and identity queries
(spec/40_session_and_queries.md R120 to R132): each takes its argument bytes and sends its response, and
touches nothing else. -/

namespace Sys2Proof.Machine

/-- `CR` alone (spec/30_encoding.md R100). -/
def replyCr (c : Config) : List Byte := [c.cr]

/-- `'Y'` (R123). -/
def replyAutoinc : List Byte := [0x59]

/-- `SIG[0]`, `SIG[1]`, `SIG[2]` (R127). -/
def replySig (c : Config) : List Byte := c.sig.toList

/-- `DEVCODE`, then 0x00 (R128). -/
def replyDevcodes (c : Config) : List Byte := [c.devcode, 0x00]

/-- `SWID[0]` .. `SWID[6]` (R129). -/
def replySwid (c : Config) : List Byte := c.swid.toList

/-- `SWVER[0]`, `SWVER[1]` (R130). -/
def replySwver (c : Config) : List Byte := c.swver.toList

/-- `'S'` (R131). -/
def replyProgtype : List Byte := [0x53]

/-- `'Y'`, then `BLOCK_SIZE_REPORT`, high byte first (R132; log 20). -/
def replyBlksup (c : Config) : List Byte := 0x59 :: wireBytes c.blockSizeReport

/-- enter-programming: a no-op that answers CR (R121). -/
def execEnterprog (s : State) : Host.Outcome State Fault Refusal := .next (s.answer (replyCr s.cfg))

/-- leave-programming: a no-op that answers CR (R122). -/
def execLeaveprog (s : State) : Host.Outcome State Fault Refusal := .next (s.answer (replyCr s.cfg))

/-- report-autoincrement (R123). -/
def execAutoinc (s : State) : Host.Outcome State Fault Refusal := .next (s.answer replyAutoinc)

/-- device-type: the argument is discarded, whatever it is (R124). -/
def execDevtype (arg : Byte) (s : State) : Host.Outcome State Fault Refusal :=
  .next ((s.recv arg).answer (replyCr s.cfg))

/-- led-set: the argument is discarded; the block has no LED output (R125). -/
def execLedset (arg : Byte) (s : State) : Host.Outcome State Fault Refusal :=
  .next ((s.recv arg).answer (replyCr s.cfg))

/-- led-clear: the argument is discarded (R126). -/
def execLedclr (arg : Byte) (s : State) : Host.Outcome State Fault Refusal :=
  .next ((s.recv arg).answer (replyCr s.cfg))

/-- read-signature (R127). -/
def execReadsig (s : State) : Host.Outcome State Fault Refusal := .next (s.answer (replySig s.cfg))

/-- return-supported-device-codes (R128). -/
def execDevcodes (s : State) : Host.Outcome State Fault Refusal :=
  .next (s.answer (replyDevcodes s.cfg))

/-- software-identifier (R129). -/
def execSwid (s : State) : Host.Outcome State Fault Refusal := .next (s.answer (replySwid s.cfg))

/-- software-version (R130). -/
def execSwver (s : State) : Host.Outcome State Fault Refusal := .next (s.answer (replySwver s.cfg))

/-- programmer-type (R131). -/
def execProgtype (s : State) : Host.Outcome State Fault Refusal := .next (s.answer replyProgtype)

/-- block-support-query (R132). -/
def execBlksup (s : State) : Host.Outcome State Fault Refusal := .next (s.answer (replyBlksup s.cfg))

end Sys2Proof.Machine
end

