-- ==== Sys2Proof/Machine/Address.lean ====
section
/-! DEFINITION. set-address and chip-erase (spec/41_address_and_erase.md R140, R141). -/

namespace Sys2Proof.Machine

/-- The end of set-address, once both bytes have arrived: `AR <- hi ++ lo`, `Send(CR)` (R140). -/
def State.loadAr (s : State) (w : Word) : State := (s.setAr w).answer (replyCr s.cfg)

/-- set-address: the value is stored as sent, with no range check (R140). -/
def execSetaddr (addr : Word) (s : State) : Host.Outcome State Fault Refusal :=
  .next ((s.recvWord addr).loadAr addr)

/-- How many times the loop `while a < BOOT_START_BYTES` of R141 runs with stride `PAGE_BYTES`. -/
def erasePages (c : Config) : Nat := (c.bootStartBytes + (c.pageBytes - 1)) / c.pageBytes

/-- `n` page erases at byte addresses `a`, `a + PAGE_BYTES`, ... The loop address is a local, not `AR`
(R141; log 21). -/
def State.eraseLoop (s : State) (a : Nat) : Nat → State
  | 0 => s
  | n + 1 => State.eraseLoop (s.pageErase (BitVec.ofNat 16 a)) (a + s.cfg.pageBytes) n

/-- All of chip-erase: every page of the application region, ascending, then `Send(CR)` (R141). -/
def State.chipErase (s : State) : State :=
  (s.eraseLoop 0 (erasePages s.cfg)).answer (replyCr s.cfg)

/-- chip-erase (R141). -/
def execChiperase (s : State) : Host.Outcome State Fault Refusal := .next s.chipErase

end Sys2Proof.Machine
end

