-- ==== Sys2Proof/Machine/BlockLoad.lean ====
section
/-! DEFINITION. block-load (spec/43_block_load.md R160 to R168): the flash block-buffer controller and the
EEPROM write sequence. -/

namespace Sys2Proof.Machine

/-- Step 4 of R162 from cell `i` on: `PageFill((AR + 2*i) mod 65536, BUF[i])` for `n` cells. The running
address is a local; `AR` is not advanced (log 22). -/
def State.fillLoop (s : State) (i : Nat) : Nat → State
  | 0 => s
  | n + 1 => State.fillLoop (s.pageFill (advanceAddress s.ar (2 * i)) (s.bufCell i)) (i + 1) n

/-- Steps 2 to 6 of R162: shift `AR` once, wait, fill the whole page, write it, answer CR. No page erase
is issued (log 22). -/
def State.commitBuffer (s : State) : State :=
  let s := s.shiftAr.nvmWait
  let s := s.fillLoop 0 s.cfg.pageWords
  (s.pageWrite s.ar).answer (replyCr s.cfg)

/-- Step 1 of R162 from cell `i` on: two bytes, high byte first, to each cell. -/
def State.loadWords (s : State) (i : Nat) : List Byte → State
  | h :: l :: bs => State.loadWords (((s.recv h).recv l).setBuf i (joinBytes h l)) (i + 1) bs
  | _ => s

/-- One turn of the loop of R163: take a byte, write it at `AR`, advance `AR` by one. -/
def State.loadByteAt (s : State) (b : Byte) : State :=
  let s := s.recv b
  (s.writeEeprom s.ar b).advanceAr 1

/-- The loop of R163. -/
def State.loadBytes (s : State) : List Byte → State
  | [] => s
  | b :: bs => State.loadBytes (s.loadByteAt b) bs

/-- The arms of R160 after the memory type is latched, with the whole payload at hand. -/
def State.loadBody (s : State) (b : LoadBody) : State :=
  match memTarget s.cfg b.memType with
  | some .flash => (s.loadWords 0 b.payload).commitBuffer
  | some .eeprom => (s.loadBytes b.payload).answer (replyCr s.cfg)
  | none => s.reject .unknownMemType

/-- block-load (R160): the length, the oversize test before anything else (R161), the memory type, the
arm it selects (R162, R163, R164). A body of the wrong shape is no command (log 26). -/
def execBlkload (len : Word) (body : Option LoadBody) (s : State) : Host.Outcome State Fault Refusal :=
  let s := (s.recvWord len).setLen len
  if LoadBody.fits s.cfg len body then
    if oversize s.cfg len then .next (s.reject .oversizeBlock)
    else match body with
      | some b => .next (((s.recv b.memType).setMt b.memType).loadBody b)
      | none => .refused .illFormed
  else .refused .illFormed

end Sys2Proof.Machine
end

