-- ==== Sys2Proof/Machine/BlockRead.lean ====
section
/-! DEFINITION. block-read (spec/44_block_read.md R180 to R186): the flash word read-out and the EEPROM
read sequence. -/

namespace Sys2Proof.Machine

/-- The word a turn of the flash loop transmits (R180, R185; log 18). -/
def State.wordToSend (s : State) : Word :=
  match s.cfg.flashReadTx with
  | .programWord => s.flashWord s.ar
  | .bufferCell0 => s.bufCell 0

/-- One turn of the flash loop of R181: read the word at `AR`, send two bytes high byte first, advance
`AR` by two. -/
def State.readWordOut (s : State) : State :=
  ((s.readFlash s.ar).sendAll (wireBytes s.wordToSend)).advanceAr 2

/-- `n` turns of the flash loop. -/
def State.readWords (s : State) : Nat → State
  | 0 => s
  | n + 1 => State.readWords s.readWordOut n

/-- How often `while i < LEN` runs with `i` stepping by two: `ceil(LEN / 2)` (R181, R30; log 16). -/
def readTurns (len : Word) : Nat := (len.toNat + 1) / 2

/-- One turn of the EEPROM loop of R182: read the byte at `AR`, send it, advance `AR` by one. -/
def State.readByteOut (s : State) : State :=
  ((s.readEeprom s.ar).send (s.eepromByte s.ar)).advanceAr 1

/-- `n` turns of the EEPROM loop. -/
def State.readBytes (s : State) : Nat → State
  | 0 => s
  | n + 1 => State.readBytes s.readByteOut n

/-- The arms of R180 once length and memory type are latched. Successful data has no terminator
(spec/30_encoding.md R101). -/
def State.readBody (s : State) (len : Word) (mt : Byte) : State :=
  match memTarget s.cfg mt with
  | some .flash => (s.shiftAr.readWords (readTurns len)).finish
  | some .eeprom => (s.readBytes len.toNat).finish
  | none => s.reject .unknownMemType

/-- block-read (R180): no oversize check; length and type are always read. -/
def execBlkread (len : Word) (memType : Byte) (s : State) : Host.Outcome State Fault Refusal :=
  .next (((((s.recvWord len).setLen len).recv memType).setMt memType).readBody len memType)

end Sys2Proof.Machine
end

