-- ==== Sys2Proof/Machine/Exit.lean ====
section
/-! DEFINITION. exit (spec/42_exit.md R150): the handoff, with nothing sent and nothing checked. -/

namespace Sys2Proof.Machine

/-- exit: `Handoff()`, `phase <- HandedOff` (R150). -/
def execExit (s : State) : Host.Outcome State Fault Refusal := .next s.handOff

end Sys2Proof.Machine
end

