-- ==== Sys2Proof/Machine/Unknown.lean ====
section
/-! DEFINITION. The unknown-command case (spec/45_unknown.md R195). -/

namespace Sys2Proof.Machine

/-- unknown: `raise Reject(UnknownCommand)`; no further byte is taken, whatever the command byte was
(R195). -/
def execUnknown (_cmd : Byte) (s : State) : Host.Outcome State Fault Refusal :=
  .next (s.reject .unknownCommand)

end Sys2Proof.Machine
end

