-- ==== Sys2Proof/Machine/Handlers.lean ====
section
/-! DEFINITION. The handlers one port transaction at a time (spec/10_state.md R33, spec/92 D24): `phase` names
the transaction that comes next, and `transact` completes it. `step` uses it when the bytes of a command have
not all arrived or the environment does not complete every transaction, so that what a waiting handler has
already done stays done (spec/70_reset_and_hazards.md R240). -/

namespace Sys2Proof.Machine

/-! ### To the next position -/

/-- The rest of a handler is to send these bytes. -/
def State.toSend (s : State) : List Byte → State
  | [] => s.finish
  | b :: bs => s.setPhase (.sending b bs)

/-- The test of the loop of chip-erase: `while a < BOOT_START_BYTES` (R141). -/
def State.toErase (s : State) (a : Nat) : State :=
  if a < s.cfg.bootStartBytes then s.setPhase (.erasing (BitVec.ofNat 16 a)) else s.toSend (replyCr s.cfg)

/-- The test of the fill loop (R162 step 4). -/
def State.toFill (s : State) (i : Nat) : State :=
  if i < s.cfg.pageWords then s.setPhase (.loadFill i) else s.setPhase .loadWrite

/-- The test of the payload loop of the flash arm; after it `AR` is shifted (R162 steps 1 and 2). -/
def State.toLoadWord (s : State) (i : Nat) : State :=
  if i < s.len.toNat then s.setPhase (.loadWordHi i) else s.shiftAr.setPhase .loadWait

/-- The test of the payload loop of the EEPROM arm (R163). -/
def State.toLoadByte (s : State) (i : Nat) : State :=
  if i < s.len.toNat then s.setPhase (.loadByte i) else s.toSend (replyCr s.cfg)

/-- `n` turns of the flash read loop are left (R181). -/
def State.toReadWord (s : State) : Nat → State
  | 0 => s.finish
  | n + 1 => s.setPhase (.readWord n)

/-- `n` turns of the EEPROM read loop are left (R182). -/
def State.toReadByte (s : State) : Nat → State
  | 0 => s.finish
  | n + 1 => s.setPhase (.readByte n)

/-- `raise Reject(kind)`: `Send(QM)` comes next (spec/00_scope.md R14). -/
def State.toReject (s : State) (_kind : RejectKind) : State := s.toSend [Config.qm]

/-! ### `Recv` -/

/-- The dispatch of a command byte (R32, spec/30_encoding.md R96). -/
def State.dispatch (s : State) (c : Byte) : State :=
  match opcodeOf s.cfg.op c with
  | .enterprog => s.toSend (replyCr s.cfg)
  | .leaveprog => s.toSend (replyCr s.cfg)
  | .autoinc => s.toSend replyAutoinc
  | .setaddr => s.setPhase .setaddrHi
  | .chiperase => s.toErase 0
  | .devtype => s.setPhase .devtypeArg
  | .ledset => s.setPhase .ledsetArg
  | .ledclr => s.setPhase .ledclrArg
  | .readsig => s.toSend (replySig s.cfg)
  | .devcodes => s.toSend (replyDevcodes s.cfg)
  | .swid => s.toSend (replySwid s.cfg)
  | .swver => s.toSend (replySwver s.cfg)
  | .progtype => s.toSend replyProgtype
  | .exit => s.setPhase .handingOff
  | .blksup => s.toSend (replyBlksup s.cfg)
  | .blkload => s.setPhase .loadLenHi
  | .blkread => s.setPhase .readLenHi
  | .unknown => s.toReject .unknownCommand

/-- The oversize test, once the length is latched (spec/43_block_load.md R161). -/
def State.lengthLatched (s : State) : State :=
  if oversize s.cfg s.len then s.toReject .oversizeBlock else s.setPhase .loadType

/-- The start of the arm of block-load the latched memory type selects (R160). -/
def State.loadTypeLatched (s : State) : State :=
  match memTarget s.cfg s.mt with
  | some .flash => s.toLoadWord 0
  | some .eeprom => s.toLoadByte 0
  | none => s.toReject .unknownMemType

/-- The start of the arm of block-read the latched memory type selects (spec/44_block_read.md R180). -/
def State.readTypeLatched (s : State) : State :=
  match memTarget s.cfg s.mt with
  | some .flash => s.shiftAr.toReadWord (readTurns s.len)
  | some .eeprom => s.toReadByte s.len.toNat
  | none => s.toReject .unknownMemType

/-- A completed `Recv()` that returned `b`, and what the block does up to its next transaction. At a
position whose transaction is no `Recv` there is nothing to accept. -/
def State.accept (s : State) (b : Byte) : State :=
  match s.phase with
  | .awaitCommand => (s.recv b).dispatch b
  | .devtypeArg => (s.recv b).toSend (replyCr s.cfg)
  | .ledsetArg => (s.recv b).toSend (replyCr s.cfg)
  | .ledclrArg => (s.recv b).toSend (replyCr s.cfg)
  | .setaddrHi => (s.recv b).setPhase (.setaddrLo b)
  | .setaddrLo hi => ((s.recv b).setAr (joinBytes hi b)).toSend (replyCr s.cfg)
  | .loadLenHi => (s.recv b).setPhase (.loadLenLo b)
  | .loadLenLo hi => ((s.recv b).setLen (joinBytes hi b)).lengthLatched
  | .loadType => ((s.recv b).setMt b).loadTypeLatched
  | .loadWordHi i => (s.recv b).setPhase (.loadWordLo i b)
  | .loadWordLo i hi => ((s.recv b).setBuf i (joinBytes hi b)).toLoadWord (i + 1)
  | .loadByte i => (s.recv b).setPhase (.loadByteWrite i b)
  | .readLenHi => (s.recv b).setPhase (.readLenLo b)
  | .readLenLo hi => ((s.recv b).setLen (joinBytes hi b)).setPhase .readType
  | .readType => ((s.recv b).setMt b).readTypeLatched
  | _ => s

/-- Is the next transaction a `Recv()` (R240)? -/
def Phase.waits : Phase → Bool
  | .awaitCommand | .devtypeArg | .ledsetArg | .ledclrArg | .setaddrHi | .setaddrLo _ => true
  | .loadLenHi | .loadLenLo _ | .loadType | .loadWordHi _ | .loadWordLo _ _ | .loadByte _ => true
  | .readLenHi | .readLenLo _ | .readType => true
  | .handedOff | .sending _ _ | .erasing _ | .handingOff | .loadWait | .loadFill _ | .loadWrite => false
  | .loadByteWrite _ _ | .readWord _ | .readWordHi _ _ | .readWordLo _ _ | .readByte _ => false
  | .readByteOut _ _ => false

/-- The pending `Recv()` completes if the host's stream holds a byte; else the block waits (R52, R240). -/
def State.receive (s : State) : State :=
  match s.rx with
  | [] => s
  | b :: rest => ({ s with rx := rest } : State).accept b

/-! ### Any transaction -/

/-- The pending transaction completes, and the block goes on to its next one. After the handoff there is
none (spec/42_exit.md R151). -/
def State.transact (s : State) : State :=
  match s.phase with
  | .sending b bs => (s.send b).toSend bs
  | .erasing a => (s.pageErase a).toErase (a.toNat + s.cfg.pageBytes)
  | .handingOff => s.handOff
  | .loadWait => s.nvmWait.toFill 0
  | .loadFill i => (s.pageFill (advanceAddress s.ar (2 * i)) (s.bufCell i)).toFill (i + 1)
  | .loadWrite => (s.pageWrite s.ar).toSend (replyCr s.cfg)
  | .loadByteWrite i b => ((s.writeEeprom s.ar b).advanceAr 1).toLoadByte (i + 1)
  | .readWord n => (s.readFlash s.ar).setPhase (.readWordHi s.wordToSend n)
  | .readWordHi w n => (s.send (highByte w)).setPhase (.readWordLo w n)
  | .readWordLo w n => ((s.send (lowByte w)).advanceAr 2).toReadWord n
  | .readByte n => (s.readEeprom s.ar).setPhase (.readByteOut (s.eepromByte s.ar) n)
  | .readByteOut b n => ((s.send b).advanceAr 1).toReadByte n
  | .handedOff => s
  | _ => s.receive

end Sys2Proof.Machine
end

