-- ==== Sys2Proof/Machine/Dispatch.lean ====
section
/-! DEFINITION. The meaning of a complete command whose bytes have been taken: one arm per constructor. -/

namespace Sys2Proof.Machine

def exec (i : Instr) (s : State) : Host.Outcome State Fault Refusal :=
  match i with
  | .enterprog => Sys2Proof.Machine.execEnterprog s
  | .leaveprog => Sys2Proof.Machine.execLeaveprog s
  | .autoinc => Sys2Proof.Machine.execAutoinc s
  | .setaddr addr => Sys2Proof.Machine.execSetaddr addr s
  | .chiperase => Sys2Proof.Machine.execChiperase s
  | .devtype arg => Sys2Proof.Machine.execDevtype arg s
  | .ledset arg => Sys2Proof.Machine.execLedset arg s
  | .ledclr arg => Sys2Proof.Machine.execLedclr arg s
  | .readsig => Sys2Proof.Machine.execReadsig s
  | .devcodes => Sys2Proof.Machine.execDevcodes s
  | .swid => Sys2Proof.Machine.execSwid s
  | .swver => Sys2Proof.Machine.execSwver s
  | .progtype => Sys2Proof.Machine.execProgtype s
  | .exit => Sys2Proof.Machine.execExit s
  | .blksup => Sys2Proof.Machine.execBlksup s
  | .blkload len body => Sys2Proof.Machine.execBlkload len body s
  | .blkread len memType => Sys2Proof.Machine.execBlkread len memType s
  | .unknown cmd => Sys2Proof.Machine.execUnknown cmd s

end Sys2Proof.Machine
end

