-- ==== Sys2Proof/Machine/Step.lean ====
section
/-! DEFINITION. One step: a whole command when its bytes are all there and the environment completes every
transaction, else one transaction of it (spec/10_state.md R32, R33; log 8). -/

namespace Sys2Proof.Machine

/-- One step. The environment's next move decides (log 10): a reset comes before everything else (spec/70
R230); while the pending transaction does not complete the block stays as it is (R240); one that completes is
`transact`. With no move left the environment completes every transaction, and in `AwaitCommand` a complete
command is taken and run whole. After the handoff nothing happens (spec/42 R151; log 11). -/
def step (s : State) : Host.Outcome State Fault Refusal :=
  if s.cfg.wf then
    match s.env with
    | .reset :: moves => .next (s.dropMove moves).takeReset
    | .stall :: moves => .next (s.stalled moves)
    | .complete :: moves => .next (s.dropMove moves).transact
    | [] =>
      match s.phase with
      | .awaitCommand =>
        match decode s.cfg s.rx with
        | .ok (i, rest) => exec i (s.takeCommand rest)
        | .error _ => .next s.transact
      | _ => .next s.transact
  else .fault .illConfigured

/-- `s` with the command of a table word at the head of the host's stream, and the block waiting for a
command, so that the next step runs it (log 27). -/
def State.withFetchWord (s : State) (nbits w : Nat) : State :=
  s.placeCommand (tableCommandBytes s.cfg nbits w)

end Sys2Proof.Machine
end

