-- ==== Sys2Proof/Safety.lean ====
section
/-! DEFINITION. The terms claims are stated in: what the host and the NVM environment see of a run, the
invariant of the machine, and what a safe outcome is. -/

namespace Sys2Proof.Machine

/-- The byte a transaction gives to the host. -/
def Txn.sentByte : Txn → Option Byte
  | .send b => some b
  | _ => none

/-- The byte a transaction takes from the host. -/
def Txn.receivedByte : Txn → Option Byte
  | .recv b => some b
  | _ => none

/-- Is it a transaction of the NVM port (spec/20_memory.md R51)? -/
def Txn.isNvm : Txn → Bool
  | .pageErase _ => true
  | .pageFill _ _ => true
  | .pageWrite _ => true
  | .nvmWait => true
  | .readFlash _ _ => true
  | .readEeprom _ _ => true
  | .writeEeprom _ _ => true
  | _ => false

/-- The flash byte address a transaction issues, if it is a flash transaction with one (R65). -/
def Txn.flashAddress : Txn → Option Word
  | .pageErase a => some a
  | .pageFill a _ => some a
  | .pageWrite a => some a
  | .readFlash a _ => some a
  | _ => none

/-- A flash transaction with an odd byte address: the spec says there is none (R65). -/
def Txn.oddFlash (t : Txn) : Bool :=
  match t.flashAddress with
  | some a => a.toNat % 2 == 1
  | none => false

/-- The bytes the host has been given, in order (R53). -/
def sentBytes (ts : List Txn) : List Byte := ts.filterMap Txn.sentByte

/-- The bytes taken from the host, in order (R52). -/
def receivedBytes (ts : List Txn) : List Byte := ts.filterMap Txn.receivedByte

/-- The transactions of the NVM port, in order. -/
def nvmTxns (ts : List Txn) : List Txn := ts.filter Txn.isNvm

/-- The byte address in `AR` is even: so it is after the shift (spec/20_memory.md R65). -/
def State.EvenAr (s : State) : Prop := s.ar.toNat % 2 = 0

/-- A position inside a handler fits the latches and `AR`: a payload byte is one that the length and the
memory type call for (spec/43_block_load.md R160), chip-erase stands at a page of the application region
(R141), a flash transaction of a block command has an even address (R65). -/
def State.PhaseFits (s : State) : Prop :=
  match s.phase with
  | .loadType => s.len.toNat ≤ s.cfg.pageWords
  | .loadWordHi i | .loadWordLo i _ =>
    i < s.len.toNat ∧ s.len.toNat ≤ s.cfg.pageWords ∧ memTarget s.cfg s.mt = some .flash
  | .loadByte i =>
    i < s.len.toNat ∧ s.len.toNat ≤ s.cfg.pageWords ∧ memTarget s.cfg s.mt = some .eeprom
  | .loadByteWrite i _ =>
    i < s.len.toNat ∧ s.len.toNat ≤ s.cfg.pageWords ∧ memTarget s.cfg s.mt = some .eeprom
  | .erasing a => a.toNat < s.cfg.bootStartBytes ∧ a.toNat % s.cfg.pageBytes = 0
  | .loadWait | .loadWrite => s.EvenAr
  | .loadFill i => i < s.cfg.pageWords ∧ s.EvenAr
  | .readWord _ | .readWordHi _ _ | .readWordLo _ _ => s.EvenAr
  | _ => True

/-- The invariant of the machine: a well-formed configuration (R9), `PAGE_WORDS` cells in `BUF` and in the
page buffer (spec/10 R25, spec/20 R72), both memories in canonical form and inside their bounds, and a
position that fits the latches. -/
structure State.Inv (s : State) : Prop where
  cfg_wf : s.cfg.wf
  buf_length : s.buf.length = s.cfg.pageWords
  pb_length : s.pb.length = s.cfg.pageWords
  flash_wf : s.flash.wf = true
  flash_within : s.flash.within (Config.flashWords s.cfg) = true
  eeprom_wf : s.eeprom.wf = true
  eeprom_within : s.eeprom.within s.cfg.eepromBytes = true
  phase_fits : s.PhaseFits

/-- Every flash address issued so far is even (R65). -/
def State.EvenFlash (s : State) : Prop := ∀ t ∈ s.trace, t.oddFlash = false

/-- The block's registers other than `phase` are unchanged. -/
def SameRegisters (s t : State) : Prop :=
  t.ar = s.ar ∧ t.buf = s.buf ∧ t.len = s.len ∧ t.mt = s.mt

/-- Every cell of both memories and the page buffer is unchanged. -/
def SameMemories (s t : State) : Prop :=
  (∀ k, t.flash.read k = s.flash.read k) ∧ (∀ a, t.eeprom.read a = s.eeprom.read a) ∧ t.pb = s.pb

/-- What no command changes: the configuration, the host's remaining stream and the environment's moves. -/
def SameInputs (s t : State) : Prop :=
  t.cfg = s.cfg ∧ t.rx = s.rx ∧ t.env = s.env

/-- The words a payload carries, two bytes each, high byte first (spec/30_encoding.md R94). -/
def wordsOf : List Byte → List Word
  | h :: l :: bs => (h ++ l) :: wordsOf bs
  | _ => []

/-- Byte address `n` of the 16-bit address space, modulo 65536 (spec/10_state.md R23). -/
def addr (n : Nat) : Word := BitVec.ofNat 16 n

/-- A safe outcome: the machine goes on. -/
def isNext : Host.Outcome State Fault Refusal → Bool
  | .next _ => true
  | .fault _ => false
  | .refused _ => false

end Sys2Proof.Machine
end

