-- ==== Sys2Proof/Certificates/Slice0/Obligations.lean ====
section
/-! DEFINITION. The statements for the provers. Each docstring names the rule of spec/ it formalises. Every
statement is about every configuration and every state that its premises admit. -/

open Sys2Proof Sys2Proof.Machine

/-! ### Encoding -/

/-- Encoding a command and decoding it gives it back, with the bytes after it untouched: no bit of any
operand is dropped (R90 to R94, R98). -/
def Obligations.DecodeOfEncode : Prop :=
  ∀ (c : Config) (i : Instr) (rest : List Byte), c.wf → i.wf c = true →
    decode c (encode c i ++ rest) = .ok (i, rest)

/-- What the decoder reads is a well-formed command whose encoding is exactly the bytes it took. -/
def Obligations.EncodeOfDecode : Prop :=
  ∀ (c : Config) (bs : List Byte) (i : Instr) (rest : List Byte),
    decode c bs = .ok (i, rest) → i.wf c = true ∧ encode c i ++ rest = bs

/-- R96: the command byte is compared for equality with the 17 values; each byte value selects exactly
one handler, the unknown one if none matches. -/
def Obligations.DispatchByEquality : Prop :=
  ∀ (c : Config) (b : Byte) (o : Opcode), c.wf →
    (opcodeOf c.op b = o ↔
      (o = .unknown ∧ b ∉ c.op.toList) ∨
      (b, o) ∈ c.op.toList.zip
        [Opcode.enterprog, .leaveprog, .autoinc, .setaddr, .chiperase, .devtype, .ledset, .ledclr,
         .readsig, .devcodes, .swid, .swver, .progtype, .exit, .blksup, .blkload, .blkread])

/-- R98: how many bytes a command takes, and that the byte after its last one is the next command byte
(after exit there is no next command, R151). -/
def Obligations.CommandLength : Prop :=
  (∀ (c : Config) (bs : List Byte) (i : Instr) (rest : List Byte), decode c bs = .ok (i, rest) →
    bs.length = rest.length +
      (match i with
       | .devtype _ | .ledset _ | .ledclr _ => 2
       | .setaddr _ => 3
       | .blkread _ _ => 4
       | .blkload len body =>
         if c.pageWords < len.toNat then 3
         else match body with
           | some b =>
             if b.memType = c.mtFlash then 4 + 2 * len.toNat
             else if b.memType = c.mtEeprom then 4 + len.toNat
             else 4
           | none => 0
       | _ => 1)) ∧
  (∀ (s : State) (i : Instr) (rest : List Byte), s.cfg.wf → s.env = [] →
    s.phase = .awaitCommand → decode s.cfg s.rx = .ok (i, rest) →
    ∃ t, step s = .next t ∧ t.rx = rest ∧ (i ≠ .exit → t.phase = .awaitCommand))

/-- R236: every byte sequence is an admitted input. Bytes that are no complete command are the beginning
of one. -/
def Obligations.IncompleteExtends : Prop :=
  ∀ (c : Config) (bs : List Byte) (m : Missing), decode c bs = .error m →
    ∃ (more : List Byte) (i : Instr), decode c (bs ++ more) = .ok (i, [])

/-- A few table words, written out from R95 and R91, decode to their commands (sanity). -/
def Obligations.TableWordsDecode : Prop :=
  decodeTableWord 8 0x50 = some .enterprog ∧
  decodeTableWord 24 0x341241 = some (.setaddr 0x1234) ∧
  decodeTableWord 8 0x65 = some .chiperase ∧
  decodeTableWord 16 0x7B54 = some (.devtype 0x7B) ∧
  decodeTableWord 8 0x73 = some .readsig ∧
  decodeTableWord 8 0x45 = some .exit ∧
  decodeTableWord 24 0x050042 = some (.blkload 5 none) ∧
  decodeTableWord 48 0xAAAA46010042 = some (.blkload 1 (some ⟨0x46, [0xAA, 0xAA]⟩)) ∧
  decodeTableWord 32 0x45030067 = some (.blkread 3 0x45) ∧
  decodeTableWord 8 0x5A = some (.unknown 0x5A)

/-! ### The step -/

/-- A step runs the decoded instruction: in `AwaitCommand`, when the bytes of the host's stream begin with
a complete command, the step is its meaning, run after its bytes have left the stream and the command
byte's `Recv` has been recorded (R32, R96). -/
def Obligations.StepRunsDecoded : Prop :=
  ∀ (s : State) (i : Instr) (rest : List Byte), s.cfg.wf → s.env = [] →
    s.phase = .awaitCommand → decode s.cfg s.rx = .ok (i, rest) →
    step s = exec i { s with rx := rest, trace := s.trace ++ (s.rx.take 1).map .recv }

/-- A step on the encoding of a command runs that command. -/
def Obligations.StepRunsEncoded : Prop :=
  ∀ (s : State) (i : Instr) (rest : List Byte), s.cfg.wf → s.env = [] →
    s.phase = .awaitCommand → i.wf s.cfg = true → s.rx = encode s.cfg i ++ rest →
    step s = exec i { s with rx := rest, trace := s.trace ++ [.recv (commandByte s.cfg i)] }

/-- R33: the two granularities agree on every completed command. A command run at once, and the same command
taken one transaction at a time, by as many steps as it has transactions, give the same state. -/
def Obligations.TransactionwiseAgrees : Prop :=
  ∀ (s : State) (i : Instr) (rest : List Byte) (moves : List EnvMove), s.cfg.wf →
    s.phase = .awaitCommand → i.wf s.cfg = true → s.rx = encode s.cfg i ++ rest →
    ∃ (t : State) (n : Nat),
      exec i { s with
        rx := rest, trace := s.trace ++ [.recv (commandByte s.cfg i)], env := moves } = .next t ∧
      t.trace.length = s.trace.length + n ∧
      Sys2Proof.core.run n { s with env := List.replicate n .complete ++ moves } = .next t

/-- R32, R33, R240: at a position whose next transaction is a `Recv`, with a byte in the host's stream, a step
takes exactly that byte, in `AwaitCommand` (when no complete command is there, or the environment completes
one transaction at a time) and inside every handler alike. -/
def Obligations.StepTakesOneByte : Prop :=
  ∀ (s : State) (b : Byte) (rest : List Byte), s.cfg.wf → s.phase.waits = true → s.rx = b :: rest →
    (s.env = [] → (s.phase = .awaitCommand → ∃ m, decode s.cfg s.rx = .error m) →
      step s = .next (({ s with rx := rest } : State).accept b)) ∧
    (∀ moves, s.env = .complete :: moves →
      step s = .next (({ s with rx := rest, env := moves } : State).accept b))

/-- R140, R160, R161, R180: what a completed `Recv` does inside a handler, at every position that waits for
one, and which transaction comes next. -/
def Obligations.ReceivePositions : Prop :=
  ∀ (s : State) (b : Byte),
    (match s.phase with
     | .devtypeArg | .ledsetArg | .ledclrArg =>
       s.accept b = { s with trace := s.trace ++ [.recv b], phase := .sending s.cfg.cr [] }
     | .setaddrHi => s.accept b = { s with trace := s.trace ++ [.recv b], phase := .setaddrLo b }
     | .setaddrLo hi =>
       s.accept b =
         { s with ar := hi ++ b, trace := s.trace ++ [.recv b], phase := .sending s.cfg.cr [] }
     | .loadLenHi => s.accept b = { s with trace := s.trace ++ [.recv b], phase := .loadLenLo b }
     | .loadLenLo hi =>
       s.accept b = { s with
         len := hi ++ b
         trace := s.trace ++ [.recv b]
         phase := if s.cfg.pageWords < hi.toNat * 256 + b.toNat then .sending 0x3F [] else .loadType }
     | .loadType =>
       s.accept b = { s with
         mt := b
         ar := if b = s.cfg.mtFlash ∧ s.len = 0 then addr (2 * s.ar.toNat) else s.ar
         trace := s.trace ++ [.recv b]
         phase :=
           if b = s.cfg.mtFlash then (if s.len = 0 then .loadWait else .loadWordHi 0)
           else if b = s.cfg.mtEeprom then (if s.len = 0 then .sending s.cfg.cr [] else .loadByte 0)
           else .sending 0x3F [] }
     | .loadWordHi i => s.accept b = { s with trace := s.trace ++ [.recv b], phase := .loadWordLo i b }
     | .loadWordLo i hi =>
       s.accept b = { s with
         buf := s.buf.set i (hi ++ b)
         ar := if i + 1 < s.len.toNat then s.ar else addr (2 * s.ar.toNat)
         trace := s.trace ++ [.recv b]
         phase := if i + 1 < s.len.toNat then .loadWordHi (i + 1) else .loadWait }
     | .loadByte i =>
       s.accept b = { s with trace := s.trace ++ [.recv b], phase := .loadByteWrite i b }
     | .readLenHi => s.accept b = { s with trace := s.trace ++ [.recv b], phase := .readLenLo b }
     | .readLenLo hi =>
       s.accept b = { s with len := hi ++ b, trace := s.trace ++ [.recv b], phase := .readType }
     | .readType =>
       s.accept b = { s with
         mt := b
         ar := if b = s.cfg.mtFlash then addr (2 * s.ar.toNat) else s.ar
         trace := s.trace ++ [.recv b]
         phase :=
           if b = s.cfg.mtFlash then
             (if s.len = 0 then .awaitCommand else .readWord ((s.len.toNat + 1) / 2 - 1))
           else if b = s.cfg.mtEeprom then
             (if s.len = 0 then .awaitCommand else .readByte (s.len.toNat - 1))
           else .sending 0x3F [] }
     | _ => True)

/-- R141, R150, R160, R180: what completing the pending transaction does at every position whose transaction
is no `Recv`, and which transaction comes next. -/
def Obligations.TransactionPositions : Prop :=
  ∀ s : State, s.cfg.wf → s.env = [] →
    (match s.phase with
     | .sending b bs =>
       step s = .next { s with
         trace := s.trace ++ [.send b]
         phase := match bs with | [] => .awaitCommand | b' :: bs' => .sending b' bs' }
     | .erasing a =>
       step s = .next { s.pageErase a with
         phase :=
           if a.toNat + s.cfg.pageBytes < s.cfg.bootStartBytes
           then .erasing (addr (a.toNat + s.cfg.pageBytes)) else .sending s.cfg.cr [] }
     | .handingOff => step s = .next { s with trace := s.trace ++ [.handoff], phase := .handedOff }
     | .loadWait => step s = .next { s with trace := s.trace ++ [.nvmWait], phase := .loadFill 0 }
     | .loadFill i =>
       step s = .next { s with
         pb := s.pb.set ((s.ar.toNat + 2 * i) % 65536 / 2 % s.cfg.pageWords) (s.buf.getD i 0)
         trace := s.trace ++ [.pageFill (addr (s.ar.toNat + 2 * i)) (s.buf.getD i 0)]
         phase := if i + 1 < s.cfg.pageWords then .loadFill (i + 1) else .loadWrite }
     | .loadWrite => step s = .next { s.pageWrite s.ar with phase := .sending s.cfg.cr [] }
     | .loadByteWrite i b =>
       step s = .next { s.writeEeprom s.ar b with
         ar := addr (s.ar.toNat + 1)
         phase := if i + 1 < s.len.toNat then .loadByte (i + 1) else .sending s.cfg.cr [] }
     | .readWord n =>
       step s = .next { s.readFlash s.ar with
         phase := .readWordHi
           (if s.cfg.flashReadTx = .programWord then s.flashWord s.ar else s.buf.getD 0 0) n }
     | .readWordHi w n =>
       step s = .next { s with
         trace := s.trace ++ [.send (BitVec.ofNat 8 (w.toNat / 256))], phase := .readWordLo w n }
     | .readWordLo w n =>
       step s = .next { s with
         ar := addr (s.ar.toNat + 2)
         trace := s.trace ++ [.send (BitVec.ofNat 8 w.toNat)]
         phase := match n with | 0 => .awaitCommand | m + 1 => .readWord m }
     | .readByte n =>
       step s = .next { s.readEeprom s.ar with phase := .readByteOut (s.eepromByte s.ar) n }
     | .readByteOut b n =>
       step s = .next { s with
         ar := addr (s.ar.toNat + 1)
         trace := s.trace ++ [.send b]
         phase := match n with | 0 => .awaitCommand | m + 1 => .readByte m }
     | _ => True)

/-- R240: the environment decides which transactions complete. One that does not complete leaves the block as it
is, for ever, whatever is pending, and only a reset ends the wait; one that completes is one step of one transaction, the same that a step
makes when every transaction completes and no whole command is there (the form is the model's, log 10). -/
def Obligations.EnvironmentDecides : Prop :=
  ∀ (s : State) (moves : List EnvMove), s.cfg.wf →
    (s.env = .stall :: moves → .reset ∉ moves → ∀ n, Sys2Proof.core.run n s = .next s) ∧
    (∀ pre, s.env = .stall :: pre ++ .reset :: moves → .reset ∉ pre →
      step s = .next { s with env := .reset :: moves }) ∧
    (s.env = .complete :: moves →
      ∃ (t : State) (new : List Txn), step s = .next t ∧ t.env = moves ∧ t.cfg = s.cfg ∧
        t.trace = s.trace ++ new ∧ new.length ≤ 1 ∧
        ((s.phase = .awaitCommand → ∃ m, decode s.cfg s.rx = .error m) →
          ∃ u, step { s with env := [] } = .next u ∧ t = { u with env := moves }))

/-- R240, the other half of the completion premise: when the environment stops completing transactions, at any
point of any command, and raises no reset, the block stands there for ever, and what the command has done up to
there stays done. -/
def Obligations.StallAnywhere : Prop :=
  ∀ (s : State) (i : Instr) (rest : List Byte) (moves : List EnvMove) (n : Nat), s.cfg.wf →
    s.phase = .awaitCommand → i.wf s.cfg = true → s.rx = encode s.cfg i ++ rest →
    s.env = List.replicate n .complete ++ .stall :: moves → .reset ∉ moves →
    ∃ (t : State) (new : List Txn),
      exec i { s with rx := rest, trace := s.trace ++ [.recv (commandByte s.cfg i)] } = .next t ∧
      t.trace = s.trace ++ new ∧
      (n ≤ new.length →
        ∃ u, (∀ m, Sys2Proof.core.run (n + m) s = .next u) ∧ u.trace = s.trace ++ new.take n)

/-- R230: a reset may come at any point of any command. The handler is abandoned where it stands: exactly the
transactions that had completed have been made, nothing further is sent, and the block is in
`AwaitCommand`. -/
def Obligations.ResetAnywhere : Prop :=
  ∀ (s : State) (i : Instr) (rest : List Byte) (moves : List EnvMove) (n : Nat), s.cfg.wf →
    s.phase = .awaitCommand → i.wf s.cfg = true → s.rx = encode s.cfg i ++ rest →
    s.env = List.replicate n .complete ++ .reset :: moves →
    ∃ (t : State) (new : List Txn),
      exec i { s with rx := rest, trace := s.trace ++ [.recv (commandByte s.cfg i)] } = .next t ∧
      t.trace = s.trace ++ new ∧
      (n ≤ new.length →
        ∃ u, Sys2Proof.core.run (n + 1) s = .next u ∧ u.trace = s.trace ++ new.take n ∧
          u.phase = .awaitCommand ∧ u.env = moves ∧ u.cfg = s.cfg)

/-- Under a well-formed configuration no step faults or refuses: every byte sequence has a defined
behaviour, and there is no fatal error (R202, R236). -/
def Obligations.StepNeverStops : Prop :=
  ∀ s : State, s.cfg.wf → ∃ t, step s = .next t

/-- The model's one fault: a configuration outside R9, under which every rule is stated, has no behaviour
(the model's choice, log 25). -/
def Obligations.IllConfiguredFaults : Prop :=
  ∀ s : State, ¬ s.cfg.wf → step s = .fault .illConfigured

/-- The model's one refusal: a block-load term whose body is not of the shape R98 prescribes, which no byte
sequence decodes to (the model's choice, log 26). -/
def Obligations.IllFormedRefused : Prop :=
  ∀ (s : State) (len : Word) (body : Option LoadBody), (Instr.blkload len body).wf s.cfg = false →
    exec (.blkload len body) s = .refused .illFormed

/-- R240: with no byte from the host the block waits, for ever, in `AwaitCommand` and at every position of a
handler whose next transaction is a `Recv` (that a wait is a step that changes nothing is log 9). -/
def Obligations.WaitsForTheHost : Prop :=
  ∀ (s : State) (n : Nat), s.cfg.wf → s.env = [] → s.rx = [] → s.phase.waits = true →
    Sys2Proof.core.run n s = .next s

/-- R52: a step takes bytes in the order the host sent them, each exactly once. -/
def Obligations.ReceivesInOrder : Prop :=
  ∀ s t : State, (∀ moves, s.env ≠ .reset :: moves) → step s = .next t →
    ∃ new, t.trace = s.trace ++ new ∧ s.rx = receivedBytes new ++ t.rx

/-- R240: a flash block-load whose payload is cut short has latched length and type and written the `BUF` cells
it received whole; it has neither shifted `AR` nor touched the NVM nor sent anything, nothing else has
changed, and it stands there for ever, at the high byte of the next word or holding the last byte received as
the high byte of a word. -/
def Obligations.CutFlashLoad : Prop :=
  ∀ (s : State) (len : Word) (p : List Byte) (m : Nat), s.Inv → s.phase = .awaitCommand → s.env = [] →
    len.toNat ≤ s.cfg.pageWords → p.length < 2 * len.toNat →
    s.rx = s.cfg.op.blkload :: wireBytes len ++ s.cfg.mtFlash :: p →
    Sys2Proof.core.run (4 + p.length + m) s = .next { s with
      buf := wordsOf p ++ s.buf.drop (p.length / 2)
      len := len
      mt := s.cfg.mtFlash
      rx := []
      trace := s.trace ++ s.rx.map .recv
      phase :=
        if p.length % 2 = 0 then .loadWordHi (p.length / 2)
        else .loadWordLo (p.length / 2) (p.getLastD 0) }

/-- R240: an EEPROM block-load whose payload is cut short, inside the EEPROM, has latched length and type,
written the bytes it received and advanced `AR` past them; nothing was sent, nothing else has changed, and it
stands there for ever, waiting for the next byte. -/
def Obligations.CutEepromLoad : Prop :=
  ∀ (s : State) (len : Word) (p : List Byte), s.cfg.wf → s.phase = .awaitCommand → s.env = [] →
    len.toNat ≤ s.cfg.pageWords → p.length < len.toNat →
    s.ar.toNat + p.length ≤ s.cfg.eepromBytes →
    s.rx = s.cfg.op.blkload :: wireBytes len ++ s.cfg.mtEeprom :: p →
    ∃ e : Memory 8,
      (∀ m, Sys2Proof.core.run (4 + 2 * p.length + m) s = .next { s with
        ar := addr (s.ar.toNat + p.length)
        len := len
        mt := s.cfg.mtEeprom
        eeprom := e
        rx := []
        trace := s.trace ++
          ((s.cfg.op.blkload :: wireBytes len ++ [s.cfg.mtEeprom]).map .recv ++
            (List.range p.length).flatMap
              (fun i => [.recv (p.getD i 0), .writeEeprom (addr (s.ar.toNat + i)) (p.getD i 0)]))
        phase := .loadByte p.length }) ∧
      (∀ i < p.length, e.read (s.ar.toNat + i) = p.getD i 0) ∧
      (∀ a, a < s.ar.toNat ∨ s.ar.toNat + p.length ≤ a → e.read a = s.eeprom.read a)

/-! ### Session commands and queries -/

/-- R121, R122, R123: each is its command byte alone; the two no-ops answer CR and report-autoincrement
answers 'Y'; nothing else changes. -/
def Obligations.SessionCommands : Prop :=
  ∀ s : State,
    encode s.cfg .enterprog = [s.cfg.op.enterprog] ∧
    encode s.cfg .leaveprog = [s.cfg.op.leaveprog] ∧
    encode s.cfg .autoinc = [s.cfg.op.autoinc] ∧
    exec .enterprog s =
      .next { s with trace := s.trace ++ [.send s.cfg.cr], phase := .awaitCommand } ∧
    exec .leaveprog s =
      .next { s with trace := s.trace ++ [.send s.cfg.cr], phase := .awaitCommand } ∧
    exec .autoinc s =
      .next { s with trace := s.trace ++ [.send 0x59], phase := .awaitCommand }

/-- R124, R125, R126: the command byte and one argument byte, which is taken and discarded, whatever it is;
CR is sent after it. With the command byte alone nothing is sent and the block waits. -/
def Obligations.DiscardCommands : Prop :=
  ∀ (s : State) (b : Byte),
    encode s.cfg (.devtype b) = [s.cfg.op.devtype, b] ∧
    encode s.cfg (.ledset b) = [s.cfg.op.ledset, b] ∧
    encode s.cfg (.ledclr b) = [s.cfg.op.ledclr, b] ∧
    (s.cfg.wf → s.phase = .awaitCommand →
      s.accept s.cfg.op.devtype =
        { s with trace := s.trace ++ [.recv s.cfg.op.devtype], phase := .devtypeArg } ∧
      s.accept s.cfg.op.ledset =
        { s with trace := s.trace ++ [.recv s.cfg.op.ledset], phase := .ledsetArg } ∧
      s.accept s.cfg.op.ledclr =
        { s with trace := s.trace ++ [.recv s.cfg.op.ledclr], phase := .ledclrArg }) ∧
    exec (.devtype b) s =
      .next { s with trace := s.trace ++ [.recv b, .send s.cfg.cr], phase := .awaitCommand } ∧
    exec (.ledset b) s =
      .next { s with trace := s.trace ++ [.recv b, .send s.cfg.cr], phase := .awaitCommand } ∧
    exec (.ledclr b) s =
      .next { s with trace := s.trace ++ [.recv b, .send s.cfg.cr], phase := .awaitCommand }

/-- R127, R128, R129, R130, R131, R132: each is its command byte alone; the identity queries send their
literals in order; nothing else changes. -/
def Obligations.IdentityQueries : Prop :=
  ∀ s : State,
    encode s.cfg .readsig = [s.cfg.op.readsig] ∧ encode s.cfg .devcodes = [s.cfg.op.devcodes] ∧
    encode s.cfg .swid = [s.cfg.op.swid] ∧ encode s.cfg .swver = [s.cfg.op.swver] ∧
    encode s.cfg .progtype = [s.cfg.op.progtype] ∧ encode s.cfg .blksup = [s.cfg.op.blksup] ∧
    exec .readsig s =
      .next { s with
        trace := s.trace ++ [.send s.cfg.sig[0], .send s.cfg.sig[1], .send s.cfg.sig[2]]
        phase := .awaitCommand } ∧
    exec .devcodes s =
      .next { s with
        trace := s.trace ++ [.send s.cfg.devcode, .send 0x00], phase := .awaitCommand } ∧
    exec .swid s =
      .next { s with
        trace := s.trace ++ [.send s.cfg.swid[0], .send s.cfg.swid[1], .send s.cfg.swid[2],
          .send s.cfg.swid[3], .send s.cfg.swid[4], .send s.cfg.swid[5], .send s.cfg.swid[6]]
        phase := .awaitCommand } ∧
    exec .swver s =
      .next { s with
        trace := s.trace ++ [.send s.cfg.swver[0], .send s.cfg.swver[1]]
        phase := .awaitCommand } ∧
    exec .progtype s =
      .next { s with trace := s.trace ++ [.send 0x53], phase := .awaitCommand } ∧
    exec .blksup s =
      .next { s with
        trace := s.trace ++ [.send 0x59, .send (BitVec.ofNat 8 (s.cfg.blockSizeReport.toNat / 256)),
          .send (BitVec.ofNat 8 s.cfg.blockSizeReport.toNat)]
        phase := .awaitCommand }

/-! ### set-address, chip-erase, exit, unknown -/

/-- R140: every 16-bit value, sent high byte first, is stored as sent, after both bytes have arrived and
before CR. If the host stops after one byte, `AR` keeps its value and the block waits. -/
def Obligations.SetAddress : Prop :=
  ∀ (s : State) (hi lo : Byte),
    encode s.cfg (.setaddr (hi ++ lo)) = [s.cfg.op.setaddr, hi, lo] ∧
    (s.cfg.wf → s.phase = .awaitCommand →
      (s.accept s.cfg.op.setaddr).accept hi =
        { s with trace := s.trace ++ [.recv s.cfg.op.setaddr, .recv hi], phase := .setaddrLo hi }) ∧
    exec (.setaddr (hi ++ lo)) s =
      .next { s with
        ar := BitVec.ofNat 16 (hi.toNat * 256 + lo.toNat)
        trace := s.trace ++ [.recv hi, .recv lo, .send s.cfg.cr]
        phase := .awaitCommand }

/-- R141: the command byte alone; one page erase for each page of the application region, in ascending order, then
CR; the block's state, the EEPROM and the page buffer are unchanged. -/
def Obligations.ChipEraseTransactions : Prop :=
  ∀ s : State, s.cfg.wf →
    encode s.cfg .chiperase = [s.cfg.op.chiperase] ∧
    ∃ m, exec .chiperase s =
      .next { s with
        flash := m
        trace := s.trace ++
          (List.range (s.cfg.bootStartBytes / s.cfg.pageBytes)).map
            (fun k => .pageErase (addr (k * s.cfg.pageBytes))) ++
          [.send s.cfg.cr]
        phase := .awaitCommand }

/-- R142: after chip-erase every flash word with byte address below `BOOT_START_BYTES` reads 0xFFFF, every
other word is unchanged, and so are the EEPROM and the page buffer. -/
def Obligations.ChipEraseMemory : Prop :=
  ∀ s : State, s.cfg.wf →
    ∃ t, exec .chiperase s = .next t ∧
      (∀ k, 2 * k < s.cfg.bootStartBytes → t.flash.read k = 0xFFFF) ∧
      (∀ k, s.cfg.bootStartBytes ≤ 2 * k → t.flash.read k = s.flash.read k) ∧
      (∀ a, t.eeprom.read a = s.eeprom.read a) ∧ t.pb = s.pb

/-- R150: the command byte alone; exit raises the handoff and enters `HandedOff`; no byte is sent, nothing
else changes, and nothing is checked. -/
def Obligations.ExitHandsOff : Prop :=
  ∀ s : State, encode s.cfg .exit = [s.cfg.op.exit] ∧
    exec .exit s = .next { s with trace := s.trace ++ [.handoff], phase := .handedOff }

/-- R151: `HandedOff` is terminal; whatever the environment does short of a reset, nothing is received, sent or
done, for ever; a reset leaves it. -/
def Obligations.HandedOffForEver : Prop :=
  ∀ (s : State) (n : Nat), s.cfg.wf → s.phase = .handedOff →
    (.reset ∉ s.env → ∃ moves, Sys2Proof.core.run n s = .next { s with env := moves }) ∧
    (∀ moves, s.env = .reset :: moves → ∃ t, step s = .next t ∧ t.phase = .awaitCommand)

/-- R195: any command byte that is none of the 17 is a command by itself; one 0x3F is sent and no state
changes. -/
def Obligations.UnknownRejected : Prop :=
  ∀ (s : State) (c : Byte),
    ((.unknown c : Instr).wf s.cfg = true ↔ c ∉ s.cfg.op.toList) ∧
    encode s.cfg (.unknown c) = [c] ∧
    exec (.unknown c) s =
      .next { s with trace := s.trace ++ [.send 0x3F], phase := .awaitCommand }

/-! ### block-load -/

/-- R161: an oversize length is answered 0x3F before the memory type is taken, for both memory types;
only `LEN` changes. -/
def Obligations.LoadOversize : Prop :=
  ∀ (s : State) (hi lo : Byte), s.cfg.pageWords < hi.toNat * 256 + lo.toNat →
    encode s.cfg (.blkload (hi ++ lo) none) = [s.cfg.op.blkload, hi, lo] ∧
    exec (.blkload (hi ++ lo) none) s =
      .next { s with
        len := hi ++ lo
        trace := s.trace ++ [.recv hi, .recv lo, .send 0x3F]
        phase := .awaitCommand }

/-- R164: an unknown memory type is answered 0x3F after four bytes, with no payload taken; only `LEN` and
`MT` change. -/
def Obligations.LoadUnknownType : Prop :=
  ∀ (s : State) (hi lo mt : Byte), hi.toNat * 256 + lo.toNat ≤ s.cfg.pageWords →
    mt ≠ s.cfg.mtFlash → mt ≠ s.cfg.mtEeprom →
    encode s.cfg (.blkload (hi ++ lo) (some ⟨mt, []⟩)) = [s.cfg.op.blkload, hi, lo, mt] ∧
    exec (.blkload (hi ++ lo) (some ⟨mt, []⟩)) s =
      .next { s with
        len := hi ++ lo
        mt := mt
        trace := s.trace ++ [.recv hi, .recv lo, .recv mt, .send 0x3F]
        phase := .awaitCommand }

/-- R162, R168: the flash arm. `BUF` receives the payload's words and keeps its other cells; `AR` is
shifted once and not advanced; the transactions are exactly these, in this order; whatever the target
address is, CR is sent. Inputs are unchanged. -/
def Obligations.LoadFlashBlockSide : Prop :=
  ∀ (s : State) (len : Word) (p : List Byte), s.Inv → len.toNat ≤ s.cfg.pageWords →
    p.length = 2 * len.toNat →
    ∃ t, exec (.blkload len (some ⟨s.cfg.mtFlash, p⟩)) s = .next t ∧
      t.buf = wordsOf p ++ s.buf.drop len.toNat ∧
      t.ar = addr (2 * s.ar.toNat) ∧ t.len = len ∧ t.mt = s.cfg.mtFlash ∧
      t.trace = s.trace ++
        ((wireBytes len ++ s.cfg.mtFlash :: p).map .recv ++ .nvmWait ::
          (List.range s.cfg.pageWords).map
            (fun i => .pageFill (addr (2 * s.ar.toNat + 2 * i)) (t.buf.getD i 0)) ++
          [.pageWrite (addr (2 * s.ar.toNat)), .send s.cfg.cr]) ∧
      t.phase = .awaitCommand ∧ SameInputs s t

/-- R74, R75, R79: what the flash arm does to the memory when the target page lies in the application
region and a page write commits (U4's default): the page that holds `A = (2 * AR) mod 65536` receives
`BUF` rotated by `(A div 2) mod PAGE_WORDS`, the page buffer holds the same words, every other flash word
and every EEPROM byte is unchanged. For an address that is not page-aligned the rotation is the model's choice
(log 15; U5 says it is no fact of the source). -/
def Obligations.LoadFlashMemory : Prop :=
  ∀ (s : State) (len : Word) (p : List Byte) (A : Nat), s.Inv → len.toNat ≤ s.cfg.pageWords →
    p.length = 2 * len.toNat → A = 2 * s.ar.toNat % 65536 → A < s.cfg.bootStartBytes →
    s.cfg.pageWriteEffect = .commit →
    ∃ t, exec (.blkload len (some ⟨s.cfg.mtFlash, p⟩)) s = .next t ∧
      (∀ i < s.cfg.pageWords,
        t.pb.getD ((A / 2 + i) % s.cfg.pageWords) 0 = t.buf.getD i 0 ∧
        t.flash.read (A / s.cfg.pageBytes * s.cfg.pageWords + (A / 2 + i) % s.cfg.pageWords) =
          t.buf.getD i 0) ∧
      (∀ k, k < A / s.cfg.pageBytes * s.cfg.pageWords ∨
          A / s.cfg.pageBytes * s.cfg.pageWords + s.cfg.pageWords ≤ k →
        t.flash.read k = s.flash.read k) ∧
      (∀ a, t.eeprom.read a = s.eeprom.read a)

/-- The other values of the page-write parameter (U4, R248): under `clearOnly` a word of the target page
holds old AND new; under `anyIfNotErased` a word that was erased holds the new word. Outside the page
nothing changes, whatever the parameter. The parameter is log 14's; for an address that is not page-aligned
which cell of `BUF` goes to which word is the model's choice (log 15). -/
def Obligations.LoadFlashUnerased : Prop :=
  ∀ (s : State) (len : Word) (p : List Byte) (A : Nat), s.Inv → len.toNat ≤ s.cfg.pageWords →
    p.length = 2 * len.toNat → A = 2 * s.ar.toNat % 65536 → A < s.cfg.bootStartBytes →
    ∃ t, exec (.blkload len (some ⟨s.cfg.mtFlash, p⟩)) s = .next t ∧
      (∀ i < s.cfg.pageWords, ∀ k,
        k = A / s.cfg.pageBytes * s.cfg.pageWords + (A / 2 + i) % s.cfg.pageWords →
        (s.cfg.pageWriteEffect = .clearOnly →
          t.flash.read k = s.flash.read k &&& t.buf.getD i 0) ∧
        (s.cfg.pageWriteEffect = .anyIfNotErased → s.flash.read k = 0xFFFF →
          t.flash.read k = t.buf.getD i 0)) ∧
      (∀ k, k < A / s.cfg.pageBytes * s.cfg.pageWords ∨
          A / s.cfg.pageBytes * s.cfg.pageWords + s.cfg.pageWords ≤ k →
        t.flash.read k = s.flash.read k)

/-- R163: the EEPROM arm. Each byte is written at `AR` as it arrives, before the next is taken, and `AR`
advances by one; CR is sent last, wherever the addresses lie. `BUF` is unchanged. -/
def Obligations.LoadEepromBlockSide : Prop :=
  ∀ (s : State) (len : Word) (p : List Byte), s.cfg.wf → len.toNat ≤ s.cfg.pageWords →
    p.length = len.toNat →
    ∃ t, exec (.blkload len (some ⟨s.cfg.mtEeprom, p⟩)) s = .next t ∧
      t.ar = addr (s.ar.toNat + len.toNat) ∧ t.len = len ∧ t.mt = s.cfg.mtEeprom ∧
      t.trace = s.trace ++
        ((wireBytes len ++ [s.cfg.mtEeprom]).map .recv ++
          (List.range len.toNat).flatMap
            (fun i => [.recv (p.getD i 0), .writeEeprom (addr (s.ar.toNat + i)) (p.getD i 0)]) ++
          [.send s.cfg.cr]) ∧
      t.phase = .awaitCommand ∧ t.buf = s.buf ∧ SameInputs s t

/-- R77, R163, R167 (a): when every address lies inside the EEPROM, byte `i` of the payload ends at
`(AR + i) mod 65536` and every other EEPROM byte and every flash word is unchanged. -/
def Obligations.LoadEepromMemory : Prop :=
  ∀ (s : State) (len : Word) (p : List Byte), s.cfg.wf → len.toNat ≤ s.cfg.pageWords →
    p.length = len.toNat →
    (∀ i < len.toNat, (s.ar.toNat + i) % 65536 < s.cfg.eepromBytes) →
    ∃ t, exec (.blkload len (some ⟨s.cfg.mtEeprom, p⟩)) s = .next t ∧
      (∀ i < len.toNat, t.eeprom.read ((s.ar.toNat + i) % 65536) = p.getD i 0) ∧
      (∀ a, (∀ i < len.toNat, a ≠ (s.ar.toNat + i) % 65536) →
        t.eeprom.read a = s.eeprom.read a) ∧
      (∀ k, t.flash.read k = s.flash.read k)

/-- The memories a block-load is not aimed at, at every target address and under every page-write parameter.
The flash arm leaves every EEPROM byte as it was, and the page buffer holds `BUF`, cell `i` at
`((A div 2) + i) mod PAGE_WORDS` (R74); the EEPROM arm leaves every flash word and the page buffer as they
were. For a target outside the reference model's domain, of which R79 says nothing, this is the model's choice
(log 13), as is the order in the page buffer for an address that is not page-aligned (log 15). -/
def Obligations.LoadLeavesOtherMemories : Prop :=
  ∀ (s : State) (len : Word) (p : List Byte), s.Inv → len.toNat ≤ s.cfg.pageWords →
    (p.length = 2 * len.toNat →
      ∃ t, exec (.blkload len (some ⟨s.cfg.mtFlash, p⟩)) s = .next t ∧ t.eeprom = s.eeprom ∧
        ∀ i < s.cfg.pageWords,
          t.pb.getD ((2 * s.ar.toNat % 65536 / 2 + i) % s.cfg.pageWords) 0 = t.buf.getD i 0) ∧
    (p.length = len.toNat →
      ∃ t, exec (.blkload len (some ⟨s.cfg.mtEeprom, p⟩)) s = .next t ∧ t.flash = s.flash ∧ t.pb = s.pb)

/-! ### block-read -/

/-- R181, R185: the flash arm. `AR` is shifted once; `ceil(LEN / 2)` words are read at ascending even
addresses; each turn sends two bytes, high byte first, of the word read, or of `BUF[0]` under the other
value of `FLASH_READ_TX`; a word inside the flash is the memory's (R76), one beyond it is any value (U7).
No memory and no other register changes, and no terminator is sent. -/
def Obligations.ReadFlash : Prop :=
  ∀ (s : State) (len : Word), s.cfg.wf →
    ∃ (t : State) (ws : List Word), exec (.blkread len s.cfg.mtFlash) s = .next t ∧
      ws.length = (len.toNat + 1) / 2 ∧
      t.ar = addr (2 * s.ar.toNat + 2 * ((len.toNat + 1) / 2)) ∧
      t.trace = s.trace ++
        ((wireBytes len ++ [s.cfg.mtFlash]).map .recv ++
          (List.range ws.length).flatMap (fun k =>
            .readFlash (addr (2 * s.ar.toNat + 2 * k)) (ws.getD k 0) ::
              (wireBytes (if s.cfg.flashReadTx = .programWord then ws.getD k 0
                else s.buf.getD 0 0)).map .send)) ∧
      (∀ k < ws.length, (2 * s.ar.toNat + 2 * k) % 65536 < s.cfg.flashBytes →
        ws.getD k 0 = s.flash.read ((2 * s.ar.toNat + 2 * k) % 65536 / 2)) ∧
      t.len = len ∧ t.mt = s.cfg.mtFlash ∧ t.buf = s.buf ∧ t.phase = .awaitCommand ∧
      SameMemories s t ∧ SameInputs s t

/-- R182: the EEPROM arm. `LEN` bytes are read at `AR`, sent, and `AR` advances by one each; a byte inside
the EEPROM is the memory's (R77), one beyond it is any value (U7). No memory and no other register
changes, and no terminator is sent. -/
def Obligations.ReadEeprom : Prop :=
  ∀ (s : State) (len : Word), s.cfg.wf →
    ∃ (t : State) (bs : List Byte), exec (.blkread len s.cfg.mtEeprom) s = .next t ∧
      bs.length = len.toNat ∧
      t.ar = addr (s.ar.toNat + len.toNat) ∧
      t.trace = s.trace ++
        ((wireBytes len ++ [s.cfg.mtEeprom]).map .recv ++
          (List.range bs.length).flatMap (fun k =>
            [.readEeprom (addr (s.ar.toNat + k)) (bs.getD k 0), .send (bs.getD k 0)])) ∧
      (∀ k < bs.length, (s.ar.toNat + k) % 65536 < s.cfg.eepromBytes →
        bs.getD k 0 = s.eeprom.read ((s.ar.toNat + k) % 65536)) ∧
      t.len = len ∧ t.mt = s.cfg.mtEeprom ∧ t.buf = s.buf ∧ t.phase = .awaitCommand ∧
      SameMemories s t ∧ SameInputs s t

/-- R183: an unknown memory type is answered 0x3F, whatever the length; only `LEN` and `MT` change. -/
def Obligations.ReadUnknownType : Prop :=
  ∀ (s : State) (hi lo mt : Byte), mt ≠ s.cfg.mtFlash → mt ≠ s.cfg.mtEeprom →
    encode s.cfg (.blkread (hi ++ lo) mt) = [s.cfg.op.blkread, hi, lo, mt] ∧
    exec (.blkread (hi ++ lo) mt) s =
      .next { s with
        len := hi ++ lo
        mt := mt
        trace := s.trace ++ [.recv hi, .recv lo, .recv mt, .send 0x3F]
        phase := .awaitCommand }

/-! ### Rules of the whole machine -/

/-- R100: the response of every command, on the wire. From `AwaitCommand`, with the bytes of a command at
the head of the stream, one step takes exactly those bytes, sends exactly this response, and sends no byte
of it before the last byte of the command is taken. -/
def Obligations.WireResponses : Prop :=
  ∀ (s : State) (i : Instr) (rest : List Byte), s.cfg.wf → s.env = [] →
    s.phase = .awaitCommand → i.wf s.cfg = true → s.rx = encode s.cfg i ++ rest →
    ∃ (t : State) (pre post : List Txn), step s = .next t ∧ t.rx = rest ∧
      t.trace = s.trace ++ pre ++ post ∧
      receivedBytes pre = encode s.cfg i ∧ sentBytes pre = [] ∧ receivedBytes post = [] ∧
      (match i with
       | .enterprog | .leaveprog | .setaddr _ | .chiperase | .devtype _ | .ledset _ | .ledclr _ =>
         sentBytes post = [s.cfg.cr]
       | .autoinc => sentBytes post = [0x59]
       | .readsig => sentBytes post = s.cfg.sig.toList
       | .devcodes => sentBytes post = [s.cfg.devcode, 0x00]
       | .swid => sentBytes post = s.cfg.swid.toList
       | .swver => sentBytes post = s.cfg.swver.toList
       | .progtype => sentBytes post = [0x53]
       | .exit => sentBytes post = []
       | .blksup => sentBytes post = 0x59 :: wireBytes s.cfg.blockSizeReport
       | .blkload len body =>
         sentBytes post =
           if s.cfg.pageWords < len.toNat then [0x3F]
           else match body with
             | some b =>
               if b.memType = s.cfg.mtFlash ∨ b.memType = s.cfg.mtEeprom then [s.cfg.cr] else [0x3F]
             | none => []
       | .blkread len mt =>
         if mt = s.cfg.mtFlash then (sentBytes post).length = 2 * ((len.toNat + 1) / 2)
         else if mt = s.cfg.mtEeprom then (sentBytes post).length = len.toNat
         else sentBytes post = [0x3F]
       | .unknown _ => sentBytes post = [0x3F])

/-- R200, R207: the three errors on the wire: bytes taken (1, 3, 4), the code 0x3F, and the state after,
which differs in the latches only. What follows on the stream is decoded as commands (R206, R241). -/
def Obligations.ErrorsOnTheWire : Prop :=
  ∀ (s : State) (c hi lo mt : Byte) (rest : List Byte), s.cfg.wf → s.env = [] →
    s.phase = .awaitCommand →
    (c ∉ s.cfg.op.toList → s.rx = c :: rest →
      step s = .next { s with rx := rest, trace := s.trace ++ [.recv c, .send 0x3F] }) ∧
    (s.cfg.pageWords < hi.toNat * 256 + lo.toNat → s.rx = s.cfg.op.blkload :: hi :: lo :: rest →
      step s = .next { s with
        rx := rest
        len := hi ++ lo
        trace := s.trace ++ [.recv s.cfg.op.blkload, .recv hi, .recv lo, .send 0x3F] }) ∧
    (mt ≠ s.cfg.mtFlash → mt ≠ s.cfg.mtEeprom → hi.toNat * 256 + lo.toNat ≤ s.cfg.pageWords →
      s.rx = s.cfg.op.blkload :: hi :: lo :: mt :: rest →
      step s = .next { s with
        rx := rest
        len := hi ++ lo
        mt := mt
        trace := s.trace ++ [.recv s.cfg.op.blkload, .recv hi, .recv lo, .recv mt, .send 0x3F] }) ∧
    (mt ≠ s.cfg.mtFlash → mt ≠ s.cfg.mtEeprom →
      s.rx = s.cfg.op.blkread :: hi :: lo :: mt :: rest →
      step s = .next { s with
        rx := rest
        len := hi ++ lo
        mt := mt
        trace := s.trace ++ [.recv s.cfg.op.blkread, .recv hi, .recv lo, .recv mt, .send 0x3F] })

/-- R24: the value of `AR` after every command. -/
def Obligations.AddressRegisterTable : Prop :=
  ∀ (s t : State) (i : Instr), s.cfg.wf → i.wf s.cfg = true → exec i s = .next t →
    t.ar =
      (match i with
       | .setaddr w => w
       | .blkload len body =>
         if s.cfg.pageWords < len.toNat then s.ar
         else match body with
           | some b =>
             if b.memType = s.cfg.mtFlash then addr (2 * s.ar.toNat)
             else if b.memType = s.cfg.mtEeprom then addr (s.ar.toNat + len.toNat)
             else s.ar
           | none => s.ar
       | .blkread len mt =>
         if mt = s.cfg.mtFlash then addr (2 * s.ar.toNat + 2 * ((len.toNat + 1) / 2))
         else if mt = s.cfg.mtEeprom then addr (s.ar.toNat + len.toNat)
         else s.ar
       | _ => s.ar)

/-- R26: the only writer of `BUF` is the flash arm of block-load, and it writes cells `0 .. LEN-1` and no
other. -/
def Obligations.BufferWriter : Prop :=
  ∀ (s t : State) (i : Instr), s.Inv → exec i s = .next t →
    ((∀ len p, i ≠ .blkload len (some ⟨s.cfg.mtFlash, p⟩)) → t.buf = s.buf) ∧
    (∀ len p, i = .blkload len (some ⟨s.cfg.mtFlash, p⟩) →
      t.buf = wordsOf p ++ s.buf.drop len.toNat)

/-- R55 to R62: which command issues which transaction. -/
def Obligations.TransactionIssuers : Prop :=
  ∀ (s t : State) (i : Instr), exec i s = .next t →
    ∃ new, t.trace = s.trace ++ new ∧ ∀ x ∈ new,
      (match x with
       | .recv _ => x ∈ (argumentBytes i).map .recv
       | .send _ => i ≠ .exit
       | .pageErase _ => i = .chiperase
       | .pageFill _ _ | .pageWrite _ | .nvmWait =>
         ∃ len p, i = .blkload len (some ⟨s.cfg.mtFlash, p⟩)
       | .writeEeprom _ _ => ∃ len p, i = .blkload len (some ⟨s.cfg.mtEeprom, p⟩)
       | .readFlash _ _ => ∃ len, i = .blkread len s.cfg.mtFlash
       | .readEeprom _ _ => ∃ len, i = .blkread len s.cfg.mtEeprom
       | .handoff => i = .exit)

/-- R65: every flash byte address the block issues is even; every step, of a whole command or of one
transaction, keeps this of the whole record, from every state that meets the invariant (InvariantKept). -/
def Obligations.FlashAddressesEven : Prop :=
  ∀ s t : State, s.Inv → s.EvenFlash → step s = .next t → t.EvenFlash

/-- The record of transactions, the position and the environment's moves have no influence on a whole command:
no command depends on an earlier one except through the state the spec names (R20, R120). -/
def Obligations.RecordHasNoInfluence : Prop :=
  ∀ (s t : State) (i : Instr) (tr : List Txn) (ph : Phase) (moves : List EnvMove), exec i s = .next t →
    ∃ (new : List Txn) (t' : State),
      exec i { s with trace := tr, phase := ph, env := moves } = .next t' ∧
      t.trace = s.trace ++ new ∧ t'.trace = tr ++ new ∧ t'.env = moves ∧
      { t' with trace := [], env := [] } = { t with trace := [], env := [] }

/-- R37: no command, and no reset, writes a configuration parameter. -/
def Obligations.ConfigurationConstant : Prop :=
  ∀ s t : State, step s = .next t → t.cfg = s.cfg

/-- Every step keeps the invariant: well-formed configuration, `PAGE_WORDS` cells in both buffers (R25,
R72), both memories in canonical form and inside their bounds (R71, R77), a position that fits the
latches and the address register (R65, R141, R160). -/
def Obligations.InvariantKept : Prop :=
  ∀ s t : State, s.Inv → step s = .next t → t.Inv

/-- The invariant holds at reset, under every well-formed configuration, and so does R65 of the empty
record. -/
def Obligations.InvariantAtReset : Prop :=
  (∀ c : Config, c.wf → (State.launch c).Inv ∧ (State.launch c).EvenFlash) ∧
  State.reset.Inv ∧ State.reset.EvenFlash

/-- R40: after reset `phase = AwaitCommand`, `AR = AR_INIT`, `BUF[i] = BUF_INIT[i]`; the values of the
parameters are the model's choice at `State.reset` (log 1, log 3) and arbitrary here. -/
def Obligations.ResetValues : Prop :=
  ∀ c : Config, (State.launch c).phase = .awaitCommand ∧ (State.launch c).ar = c.arInit ∧
    (State.launch c).buf = c.bufInit ∧ (State.launch c).cfg = c ∧
    ∃ c, State.reset = State.launch c ∧ c.wf

/-- R230, R231: a raised reset comes before everything else, at any position; the pending transaction does not
complete, and the block stands in `AwaitCommand`. Both memories persist, but for the page or the EEPROM byte
whose erase or write was pending; where such an access lies outside the reference model's domain nothing is
said of its memory (log 13). What `AR`, `BUF`, the latches, the page buffer and the place under write hold is
open. That the bytes still in the host's stream keep their order and none is invented is the model's choice
(log 12): no source says what a reset does to the transport. -/
def Obligations.ResetTaken : Prop :=
  ∀ (s : State) (moves : List EnvMove), s.cfg.wf → s.env = .reset :: moves →
    ∃ t, step s = .next t ∧ t.phase = .awaitCommand ∧ t.env = moves ∧ t.trace = s.trace ∧
      t.cfg = s.cfg ∧ t.rx.Sublist s.rx ∧
      t.buf.length = s.cfg.pageWords ∧ t.pb.length = s.cfg.pageWords ∧
      (∀ k,
        (∀ a : Word, s.phase = .erasing a ∨ (s.phase = .loadWrite ∧ a = s.ar) →
          a.toNat < s.cfg.bootStartBytes ∧
          (k < a.toNat / s.cfg.pageBytes * s.cfg.pageWords ∨
            a.toNat / s.cfg.pageBytes * s.cfg.pageWords + s.cfg.pageWords ≤ k)) →
        t.flash.read k = s.flash.read k) ∧
      (∀ a,
        (∀ i b, s.phase = .loadByteWrite i b → s.ar.toNat < s.cfg.eepromBytes ∧ a ≠ s.ar.toNat) →
        t.eeprom.read a = s.eeprom.read a)

/-! ### Sequences of commands the spec's rules speak of -/

/-- R186, flash: a full page loaded at a page-aligned word address of the application region is what a
block-read of that page returns. -/
def Obligations.FlashRoundTrip : Prop :=
  ∀ (s : State) (w : Word) (p : List Byte), s.Inv → s.cfg.flashReadTx = .programWord →
    s.cfg.pageWriteEffect = .commit → 2 * w.toNat % s.cfg.pageBytes = 0 →
    2 * w.toNat + s.cfg.pageBytes ≤ s.cfg.bootStartBytes → p.length = s.cfg.pageBytes →
    ∃ t₁ t₂ t₃ t₄, exec (.setaddr w) s = .next t₁ ∧
      exec (.blkload (addr s.cfg.pageWords) (some ⟨s.cfg.mtFlash, p⟩)) t₁ = .next t₂ ∧
      exec (.setaddr w) t₂ = .next t₃ ∧
      exec (.blkread (addr s.cfg.pageBytes) s.cfg.mtFlash) t₃ = .next t₄ ∧
      sentBytes t₄.trace = sentBytes s.trace ++ [s.cfg.cr, s.cfg.cr, s.cfg.cr] ++ p

/-- R186, EEPROM: bytes loaded at an address are what a block-read at that address returns. -/
def Obligations.EepromRoundTrip : Prop :=
  ∀ (s : State) (a : Word) (p : List Byte), s.cfg.wf → p.length ≤ s.cfg.pageWords →
    a.toNat + p.length ≤ s.cfg.eepromBytes →
    ∃ t₁ t₂ t₃ t₄, exec (.setaddr a) s = .next t₁ ∧
      exec (.blkload (addr p.length) (some ⟨s.cfg.mtEeprom, p⟩)) t₁ = .next t₂ ∧
      exec (.setaddr a) t₂ = .next t₃ ∧
      exec (.blkread (addr p.length) s.cfg.mtEeprom) t₃ = .next t₄ ∧
      sentBytes t₄.trace = sentBytes s.trace ++ [s.cfg.cr, s.cfg.cr, s.cfg.cr] ++ p

/-- R142 and the source's property S2b: a block-read of any part of the application region after a
chip-erase returns bytes 0xFF only. It rests on R78 (log 17): every erase has finished when its transaction
completes. On a device that queues an erase the read could return any value (U8). -/
def Obligations.EraseThenRead : Prop :=
  ∀ (s t : State) (w len : Word), s.cfg.wf → s.cfg.flashReadTx = .programWord →
    2 * w.toNat + 2 * ((len.toNat + 1) / 2) ≤ s.cfg.bootStartBytes →
    exec .chiperase s = .next t →
    ∃ t₁ t₂, exec (.setaddr w) t = .next t₁ ∧ exec (.blkread len s.cfg.mtFlash) t₁ = .next t₂ ∧
      sentBytes t₂.trace =
        sentBytes t.trace ++ s.cfg.cr :: List.replicate (2 * ((len.toNat + 1) / 2)) 0xFF

/-- R166 (e), R243: of two flash block-loads in a row, the second writes the page at `(4 * X) mod
65536`. -/
def Obligations.DoubleShift : Prop :=
  ∀ (s t u : State) (l₁ l₂ : Word) (p₁ p₂ : List Byte), s.Inv →
    l₁.toNat ≤ s.cfg.pageWords → l₂.toNat ≤ s.cfg.pageWords →
    exec (.blkload l₁ (some ⟨s.cfg.mtFlash, p₁⟩)) s = .next t →
    exec (.blkload l₂ (some ⟨s.cfg.mtFlash, p₂⟩)) t = .next u →
    u.ar = addr (4 * s.ar.toNat) ∧
    ∃ new, u.trace = t.trace ++ new ∧
      new.filter (fun x => decide (x = .pageWrite (addr (4 * s.ar.toNat)))) =
        [.pageWrite (addr (4 * s.ar.toNat))]

/-- R184 (h): of two flash block-reads in a row, the second starts at `2 * (2 * X + 2 * ceil(L1 / 2))`
modulo 65536; of two EEPROM block-reads in a row, the second continues where the first stopped. -/
def Obligations.ReadsInARow : Prop :=
  ∀ (s t u : State) (l₁ l₂ : Word), s.cfg.wf →
    (exec (.blkread l₁ s.cfg.mtFlash) s = .next t → exec (.blkread l₂ s.cfg.mtFlash) t = .next u →
      u.ar = addr (2 * (2 * s.ar.toNat + 2 * ((l₁.toNat + 1) / 2)) + 2 * ((l₂.toNat + 1) / 2))) ∧
    (exec (.blkread l₁ s.cfg.mtEeprom) s = .next t → exec (.blkread l₂ s.cfg.mtEeprom) t = .next u →
      u.ar = addr (s.ar.toNat + l₁.toNat + l₂.toNat))
end

