-- ==== Sys2Proof/Laws/PerInstr.lean ====
section
/-! SUPPORT. The statements made per instruction, about the instruction as syntax: its command byte selects
its own row, under every well-formed configuration (spec/30_encoding.md R96). -/

namespace Sys2Proof.Laws.CommandByte

open Sys2Proof

/-- The command byte of a well-formed instruction is dispatched to the instruction's own row. -/
def Statement (i : Instr) : Prop :=
  ∀ c : Config, c.wf → i.wf c = true → opcodeOf c.op (commandByte c i) = i.opcode

/-- R9 (f), in the form the lemmas below use: each command byte differs from every earlier one. -/
theorem ops_distinct (c : Config) (h : c.wf) : c.op.toList.reverse.Nodup :=
  List.nodup_reverse.mpr h.2.2.2.2.2.1

theorem enterprog : Statement .enterprog := by
  intro c _ _; simp [commandByte, opcodeOf, Instr.opcode]

theorem leaveprog : Statement .leaveprog := by
  intro c h _
  have n := ops_distinct c h
  simp only [OpBytes.toList, List.reverse_cons, List.reverse_nil, List.nil_append, List.cons_append,
    List.nodup_cons, List.mem_cons, not_or] at n
  simp [commandByte, opcodeOf, Instr.opcode, n]

theorem autoinc : Statement .autoinc := by
  intro c h _
  have n := ops_distinct c h
  simp only [OpBytes.toList, List.reverse_cons, List.reverse_nil, List.nil_append, List.cons_append,
    List.nodup_cons, List.mem_cons, not_or] at n
  simp [commandByte, opcodeOf, Instr.opcode, n]

theorem setaddr (addr : Word) : Statement (.setaddr addr) := by
  intro c h _
  have n := ops_distinct c h
  simp only [OpBytes.toList, List.reverse_cons, List.reverse_nil, List.nil_append, List.cons_append,
    List.nodup_cons, List.mem_cons, not_or] at n
  simp [commandByte, opcodeOf, Instr.opcode, n]

theorem chiperase : Statement .chiperase := by
  intro c h _
  have n := ops_distinct c h
  simp only [OpBytes.toList, List.reverse_cons, List.reverse_nil, List.nil_append, List.cons_append,
    List.nodup_cons, List.mem_cons, not_or] at n
  simp [commandByte, opcodeOf, Instr.opcode, n]

theorem devtype (arg : Byte) : Statement (.devtype arg) := by
  intro c h _
  have n := ops_distinct c h
  simp only [OpBytes.toList, List.reverse_cons, List.reverse_nil, List.nil_append, List.cons_append,
    List.nodup_cons, List.mem_cons, not_or] at n
  simp [commandByte, opcodeOf, Instr.opcode, n]

theorem ledset (arg : Byte) : Statement (.ledset arg) := by
  intro c h _
  have n := ops_distinct c h
  simp only [OpBytes.toList, List.reverse_cons, List.reverse_nil, List.nil_append, List.cons_append,
    List.nodup_cons, List.mem_cons, not_or] at n
  simp [commandByte, opcodeOf, Instr.opcode, n]

theorem ledclr (arg : Byte) : Statement (.ledclr arg) := by
  intro c h _
  have n := ops_distinct c h
  simp only [OpBytes.toList, List.reverse_cons, List.reverse_nil, List.nil_append, List.cons_append,
    List.nodup_cons, List.mem_cons, not_or] at n
  simp [commandByte, opcodeOf, Instr.opcode, n]

theorem readsig : Statement .readsig := by
  intro c h _
  have n := ops_distinct c h
  simp only [OpBytes.toList, List.reverse_cons, List.reverse_nil, List.nil_append, List.cons_append,
    List.nodup_cons, List.mem_cons, not_or] at n
  simp [commandByte, opcodeOf, Instr.opcode, n]

theorem devcodes : Statement .devcodes := by
  intro c h _
  have n := ops_distinct c h
  simp only [OpBytes.toList, List.reverse_cons, List.reverse_nil, List.nil_append, List.cons_append,
    List.nodup_cons, List.mem_cons, not_or] at n
  simp [commandByte, opcodeOf, Instr.opcode, n]

theorem swid : Statement .swid := by
  intro c h _
  have n := ops_distinct c h
  simp only [OpBytes.toList, List.reverse_cons, List.reverse_nil, List.nil_append, List.cons_append,
    List.nodup_cons, List.mem_cons, not_or] at n
  simp [commandByte, opcodeOf, Instr.opcode, n]

theorem swver : Statement .swver := by
  intro c h _
  have n := ops_distinct c h
  simp only [OpBytes.toList, List.reverse_cons, List.reverse_nil, List.nil_append, List.cons_append,
    List.nodup_cons, List.mem_cons, not_or] at n
  simp [commandByte, opcodeOf, Instr.opcode, n]

theorem progtype : Statement .progtype := by
  intro c h _
  have n := ops_distinct c h
  simp only [OpBytes.toList, List.reverse_cons, List.reverse_nil, List.nil_append, List.cons_append,
    List.nodup_cons, List.mem_cons, not_or] at n
  simp [commandByte, opcodeOf, Instr.opcode, n]

theorem exit : Statement .exit := by
  intro c h _
  have n := ops_distinct c h
  simp only [OpBytes.toList, List.reverse_cons, List.reverse_nil, List.nil_append, List.cons_append,
    List.nodup_cons, List.mem_cons, not_or] at n
  simp [commandByte, opcodeOf, Instr.opcode, n]

theorem blksup : Statement .blksup := by
  intro c h _
  have n := ops_distinct c h
  simp only [OpBytes.toList, List.reverse_cons, List.reverse_nil, List.nil_append, List.cons_append,
    List.nodup_cons, List.mem_cons, not_or] at n
  simp [commandByte, opcodeOf, Instr.opcode, n]

theorem blkload (len : Word) (body : Option LoadBody) : Statement (.blkload len body) := by
  intro c h _
  have n := ops_distinct c h
  simp only [OpBytes.toList, List.reverse_cons, List.reverse_nil, List.nil_append, List.cons_append,
    List.nodup_cons, List.mem_cons, not_or] at n
  simp [commandByte, opcodeOf, Instr.opcode, n]

theorem blkread (len : Word) (mt : Byte) : Statement (.blkread len mt) := by
  intro c h _
  have n := ops_distinct c h
  simp only [OpBytes.toList, List.reverse_cons, List.reverse_nil, List.nil_append, List.cons_append,
    List.nodup_cons, List.mem_cons, not_or] at n
  simp [commandByte, opcodeOf, Instr.opcode, n]

theorem unknown (cmd : Byte) : Statement (.unknown cmd) := by
  intro c _ hw
  simp [Instr.wf, OpBytes.toList] at hw
  simp [commandByte, opcodeOf, Instr.opcode, hw]

end Sys2Proof.Laws.CommandByte
end

