-- ==== Sys2Proof/Laws/Decode.lean ====
section
/-! SUPPORT. What the dispatch of a command byte says: the selected row's own command byte was received, or
the byte is none of the 17 (spec/30_encoding.md R96). -/

namespace Sys2Proof

/-- The command byte that row `r` of the dispatch table matches; the unknown row matches every byte that
is none of the 17. -/
def OpBytes.Matches (o : OpBytes) (b : Byte) : Opcode → Prop
  | .enterprog => b = o.enterprog
  | .leaveprog => b = o.leaveprog
  | .autoinc => b = o.autoinc
  | .setaddr => b = o.setaddr
  | .chiperase => b = o.chiperase
  | .devtype => b = o.devtype
  | .ledset => b = o.ledset
  | .ledclr => b = o.ledclr
  | .readsig => b = o.readsig
  | .devcodes => b = o.devcodes
  | .swid => b = o.swid
  | .swver => b = o.swver
  | .progtype => b = o.progtype
  | .exit => b = o.exit
  | .blksup => b = o.blksup
  | .blkload => b = o.blkload
  | .blkread => b = o.blkread
  | .unknown => b ∉ o.toList

theorem opcode_ite {P : Opcode → Prop} {c : Prop} [Decidable c] {x y : Opcode} (h : c → P x)
    (h' : ¬c → P y) : P (if c then x else y) := by
  by_cases hc : c
  · rw [if_pos hc]; exact h hc
  · rw [if_neg hc]; exact h' hc

/-- The selected row matches the byte. -/
theorem opcodeOf_matches (o : OpBytes) (b : Byte) : o.Matches b (opcodeOf o b) := by
  unfold opcodeOf
  refine opcode_ite (P := o.Matches b) (fun h => h) (fun h1 => ?_)
  refine opcode_ite (P := o.Matches b) (fun h => h) (fun h2 => ?_)
  refine opcode_ite (P := o.Matches b) (fun h => h) (fun h3 => ?_)
  refine opcode_ite (P := o.Matches b) (fun h => h) (fun h4 => ?_)
  refine opcode_ite (P := o.Matches b) (fun h => h) (fun h5 => ?_)
  refine opcode_ite (P := o.Matches b) (fun h => h) (fun h6 => ?_)
  refine opcode_ite (P := o.Matches b) (fun h => h) (fun h7 => ?_)
  refine opcode_ite (P := o.Matches b) (fun h => h) (fun h8 => ?_)
  refine opcode_ite (P := o.Matches b) (fun h => h) (fun h9 => ?_)
  refine opcode_ite (P := o.Matches b) (fun h => h) (fun h10 => ?_)
  refine opcode_ite (P := o.Matches b) (fun h => h) (fun h11 => ?_)
  refine opcode_ite (P := o.Matches b) (fun h => h) (fun h12 => ?_)
  refine opcode_ite (P := o.Matches b) (fun h => h) (fun h13 => ?_)
  refine opcode_ite (P := o.Matches b) (fun h => h) (fun h14 => ?_)
  refine opcode_ite (P := o.Matches b) (fun h => h) (fun h15 => ?_)
  refine opcode_ite (P := o.Matches b) (fun h => h) (fun h16 => ?_)
  refine opcode_ite (P := o.Matches b) (fun h => h) (fun h17 => ?_)
  show b ∉ o.toList
  simp only [OpBytes.toList, List.mem_cons, List.not_mem_nil, or_false, not_or]
  exact ⟨h1, h2, h3, h4, h5, h6, h7, h8, h9, h10,
    h11, h12, h13, h14, h15, h16, h17⟩

/-- An instruction of the selected row, other than the unknown one, has the byte as its command byte. -/
theorem commandByte_of_opcode (c : Config) (b : Byte) (i : Instr) (h : opcodeOf c.op b = i.opcode)
    (hne : i.opcode ≠ .unknown) : commandByte c i = b := by
  have m := opcodeOf_matches c.op b
  rw [h] at m
  cases i <;> first | exact m.symm | exact absurd rfl hne

end Sys2Proof
end

