-- ==== Sys2Proof/Laws/State.lean ====
section
/-! SUPPORT. One lemma per field per update of `State`, true by `rfl`, so that no later proof unfolds a
record update. -/

namespace Sys2Proof.Machine

variable (s : State)

@[simp] theorem State.log_cfg (t : Txn) : (s.log t).cfg = s.cfg := rfl
@[simp] theorem State.log_ar (t : Txn) : (s.log t).ar = s.ar := rfl
@[simp] theorem State.log_buf (t : Txn) : (s.log t).buf = s.buf := rfl
@[simp] theorem State.log_len (t : Txn) : (s.log t).len = s.len := rfl
@[simp] theorem State.log_mt (t : Txn) : (s.log t).mt = s.mt := rfl
@[simp] theorem State.log_phase (t : Txn) : (s.log t).phase = s.phase := rfl
@[simp] theorem State.log_flash (t : Txn) : (s.log t).flash = s.flash := rfl
@[simp] theorem State.log_pb (t : Txn) : (s.log t).pb = s.pb := rfl
@[simp] theorem State.log_eeprom (t : Txn) : (s.log t).eeprom = s.eeprom := rfl
@[simp] theorem State.log_rx (t : Txn) : (s.log t).rx = s.rx := rfl
@[simp] theorem State.log_env (t : Txn) : (s.log t).env = s.env := rfl
@[simp] theorem State.log_trace (t : Txn) : (s.log t).trace = s.trace ++ [t] := rfl
@[simp] theorem State.log_draws (t : Txn) : (s.log t).draws = s.draws := rfl

@[simp] theorem State.setAr_cfg (w : Word) : (s.setAr w).cfg = s.cfg := rfl
@[simp] theorem State.setAr_ar (w : Word) : (s.setAr w).ar = w := rfl
@[simp] theorem State.setAr_buf (w : Word) : (s.setAr w).buf = s.buf := rfl
@[simp] theorem State.setAr_len (w : Word) : (s.setAr w).len = s.len := rfl
@[simp] theorem State.setAr_mt (w : Word) : (s.setAr w).mt = s.mt := rfl
@[simp] theorem State.setAr_phase (w : Word) : (s.setAr w).phase = s.phase := rfl
@[simp] theorem State.setAr_flash (w : Word) : (s.setAr w).flash = s.flash := rfl
@[simp] theorem State.setAr_pb (w : Word) : (s.setAr w).pb = s.pb := rfl
@[simp] theorem State.setAr_eeprom (w : Word) : (s.setAr w).eeprom = s.eeprom := rfl
@[simp] theorem State.setAr_rx (w : Word) : (s.setAr w).rx = s.rx := rfl
@[simp] theorem State.setAr_env (w : Word) : (s.setAr w).env = s.env := rfl
@[simp] theorem State.setAr_trace (w : Word) : (s.setAr w).trace = s.trace := rfl
@[simp] theorem State.setAr_draws (w : Word) : (s.setAr w).draws = s.draws := rfl

@[simp] theorem State.setBuf_cfg (i : Nat) (w : Word) : (s.setBuf i w).cfg = s.cfg := rfl
@[simp] theorem State.setBuf_ar (i : Nat) (w : Word) : (s.setBuf i w).ar = s.ar := rfl
@[simp] theorem State.setBuf_buf (i : Nat) (w : Word) : (s.setBuf i w).buf = s.buf.set i w := rfl
@[simp] theorem State.setBuf_len (i : Nat) (w : Word) : (s.setBuf i w).len = s.len := rfl
@[simp] theorem State.setBuf_mt (i : Nat) (w : Word) : (s.setBuf i w).mt = s.mt := rfl
@[simp] theorem State.setBuf_phase (i : Nat) (w : Word) : (s.setBuf i w).phase = s.phase := rfl
@[simp] theorem State.setBuf_flash (i : Nat) (w : Word) : (s.setBuf i w).flash = s.flash := rfl
@[simp] theorem State.setBuf_pb (i : Nat) (w : Word) : (s.setBuf i w).pb = s.pb := rfl
@[simp] theorem State.setBuf_eeprom (i : Nat) (w : Word) : (s.setBuf i w).eeprom = s.eeprom := rfl
@[simp] theorem State.setBuf_rx (i : Nat) (w : Word) : (s.setBuf i w).rx = s.rx := rfl
@[simp] theorem State.setBuf_env (i : Nat) (w : Word) : (s.setBuf i w).env = s.env := rfl
@[simp] theorem State.setBuf_trace (i : Nat) (w : Word) : (s.setBuf i w).trace = s.trace := rfl
@[simp] theorem State.setBuf_draws (i : Nat) (w : Word) : (s.setBuf i w).draws = s.draws := rfl

@[simp] theorem State.setLen_cfg (w : Word) : (s.setLen w).cfg = s.cfg := rfl
@[simp] theorem State.setLen_ar (w : Word) : (s.setLen w).ar = s.ar := rfl
@[simp] theorem State.setLen_buf (w : Word) : (s.setLen w).buf = s.buf := rfl
@[simp] theorem State.setLen_len (w : Word) : (s.setLen w).len = w := rfl
@[simp] theorem State.setLen_mt (w : Word) : (s.setLen w).mt = s.mt := rfl
@[simp] theorem State.setLen_phase (w : Word) : (s.setLen w).phase = s.phase := rfl
@[simp] theorem State.setLen_flash (w : Word) : (s.setLen w).flash = s.flash := rfl
@[simp] theorem State.setLen_pb (w : Word) : (s.setLen w).pb = s.pb := rfl
@[simp] theorem State.setLen_eeprom (w : Word) : (s.setLen w).eeprom = s.eeprom := rfl
@[simp] theorem State.setLen_rx (w : Word) : (s.setLen w).rx = s.rx := rfl
@[simp] theorem State.setLen_env (w : Word) : (s.setLen w).env = s.env := rfl
@[simp] theorem State.setLen_trace (w : Word) : (s.setLen w).trace = s.trace := rfl
@[simp] theorem State.setLen_draws (w : Word) : (s.setLen w).draws = s.draws := rfl

@[simp] theorem State.setMt_cfg (b : Byte) : (s.setMt b).cfg = s.cfg := rfl
@[simp] theorem State.setMt_ar (b : Byte) : (s.setMt b).ar = s.ar := rfl
@[simp] theorem State.setMt_buf (b : Byte) : (s.setMt b).buf = s.buf := rfl
@[simp] theorem State.setMt_len (b : Byte) : (s.setMt b).len = s.len := rfl
@[simp] theorem State.setMt_mt (b : Byte) : (s.setMt b).mt = b := rfl
@[simp] theorem State.setMt_phase (b : Byte) : (s.setMt b).phase = s.phase := rfl
@[simp] theorem State.setMt_flash (b : Byte) : (s.setMt b).flash = s.flash := rfl
@[simp] theorem State.setMt_pb (b : Byte) : (s.setMt b).pb = s.pb := rfl
@[simp] theorem State.setMt_eeprom (b : Byte) : (s.setMt b).eeprom = s.eeprom := rfl
@[simp] theorem State.setMt_rx (b : Byte) : (s.setMt b).rx = s.rx := rfl
@[simp] theorem State.setMt_env (b : Byte) : (s.setMt b).env = s.env := rfl
@[simp] theorem State.setMt_trace (b : Byte) : (s.setMt b).trace = s.trace := rfl
@[simp] theorem State.setMt_draws (b : Byte) : (s.setMt b).draws = s.draws := rfl

@[simp] theorem State.setPhase_cfg (p : Phase) : (s.setPhase p).cfg = s.cfg := rfl
@[simp] theorem State.setPhase_ar (p : Phase) : (s.setPhase p).ar = s.ar := rfl
@[simp] theorem State.setPhase_buf (p : Phase) : (s.setPhase p).buf = s.buf := rfl
@[simp] theorem State.setPhase_len (p : Phase) : (s.setPhase p).len = s.len := rfl
@[simp] theorem State.setPhase_mt (p : Phase) : (s.setPhase p).mt = s.mt := rfl
@[simp] theorem State.setPhase_phase (p : Phase) : (s.setPhase p).phase = p := rfl
@[simp] theorem State.setPhase_flash (p : Phase) : (s.setPhase p).flash = s.flash := rfl
@[simp] theorem State.setPhase_pb (p : Phase) : (s.setPhase p).pb = s.pb := rfl
@[simp] theorem State.setPhase_eeprom (p : Phase) : (s.setPhase p).eeprom = s.eeprom := rfl
@[simp] theorem State.setPhase_rx (p : Phase) : (s.setPhase p).rx = s.rx := rfl
@[simp] theorem State.setPhase_env (p : Phase) : (s.setPhase p).env = s.env := rfl
@[simp] theorem State.setPhase_trace (p : Phase) : (s.setPhase p).trace = s.trace := rfl
@[simp] theorem State.setPhase_draws (p : Phase) : (s.setPhase p).draws = s.draws := rfl

@[simp] theorem State.takeCommand_cfg (rest : List Byte) : (s.takeCommand rest).cfg = s.cfg := rfl
@[simp] theorem State.takeCommand_ar (rest : List Byte) : (s.takeCommand rest).ar = s.ar := rfl
@[simp] theorem State.takeCommand_buf (rest : List Byte) : (s.takeCommand rest).buf = s.buf := rfl
@[simp] theorem State.takeCommand_len (rest : List Byte) : (s.takeCommand rest).len = s.len := rfl
@[simp] theorem State.takeCommand_mt (rest : List Byte) : (s.takeCommand rest).mt = s.mt := rfl
@[simp] theorem State.takeCommand_phase (rest : List Byte) : (s.takeCommand rest).phase = s.phase := rfl
@[simp] theorem State.takeCommand_flash (rest : List Byte) : (s.takeCommand rest).flash = s.flash := rfl
@[simp] theorem State.takeCommand_pb (rest : List Byte) : (s.takeCommand rest).pb = s.pb := rfl
@[simp] theorem State.takeCommand_eeprom (rest : List Byte) : (s.takeCommand rest).eeprom = s.eeprom := rfl
@[simp] theorem State.takeCommand_rx (rest : List Byte) : (s.takeCommand rest).rx = rest := rfl
@[simp] theorem State.takeCommand_env (rest : List Byte) :
    (s.takeCommand rest).env =
      s.env := rfl
@[simp] theorem State.takeCommand_trace (rest : List Byte) :
    (s.takeCommand rest).trace =
      s.trace ++ (s.rx.take 1).map .recv := rfl
@[simp] theorem State.takeCommand_draws (rest : List Byte) : (s.takeCommand rest).draws = s.draws := rfl

@[simp] theorem State.placeCommand_cfg (bs : List Byte) : (s.placeCommand bs).cfg = s.cfg := rfl
@[simp] theorem State.placeCommand_ar (bs : List Byte) : (s.placeCommand bs).ar = s.ar := rfl
@[simp] theorem State.placeCommand_buf (bs : List Byte) : (s.placeCommand bs).buf = s.buf := rfl
@[simp] theorem State.placeCommand_len (bs : List Byte) : (s.placeCommand bs).len = s.len := rfl
@[simp] theorem State.placeCommand_mt (bs : List Byte) : (s.placeCommand bs).mt = s.mt := rfl
@[simp] theorem State.placeCommand_phase (bs : List Byte) : (s.placeCommand bs).phase = .awaitCommand := rfl
@[simp] theorem State.placeCommand_flash (bs : List Byte) : (s.placeCommand bs).flash = s.flash := rfl
@[simp] theorem State.placeCommand_pb (bs : List Byte) : (s.placeCommand bs).pb = s.pb := rfl
@[simp] theorem State.placeCommand_eeprom (bs : List Byte) : (s.placeCommand bs).eeprom = s.eeprom := rfl
@[simp] theorem State.placeCommand_rx (bs : List Byte) : (s.placeCommand bs).rx = bs ++ s.rx := rfl
@[simp] theorem State.placeCommand_env (bs : List Byte) : (s.placeCommand bs).env = [] := rfl
@[simp] theorem State.placeCommand_trace (bs : List Byte) : (s.placeCommand bs).trace = s.trace := rfl
@[simp] theorem State.placeCommand_draws (bs : List Byte) : (s.placeCommand bs).draws = s.draws := rfl

@[simp] theorem State.shiftAr_cfg : s.shiftAr.cfg = s.cfg := rfl
@[simp] theorem State.shiftAr_ar : s.shiftAr.ar = shiftAddress s.ar := rfl
@[simp] theorem State.shiftAr_buf : s.shiftAr.buf = s.buf := rfl
@[simp] theorem State.shiftAr_len : s.shiftAr.len = s.len := rfl
@[simp] theorem State.shiftAr_mt : s.shiftAr.mt = s.mt := rfl
@[simp] theorem State.shiftAr_phase : s.shiftAr.phase = s.phase := rfl
@[simp] theorem State.shiftAr_flash : s.shiftAr.flash = s.flash := rfl
@[simp] theorem State.shiftAr_pb : s.shiftAr.pb = s.pb := rfl
@[simp] theorem State.shiftAr_eeprom : s.shiftAr.eeprom = s.eeprom := rfl
@[simp] theorem State.shiftAr_rx : s.shiftAr.rx = s.rx := rfl
@[simp] theorem State.shiftAr_env : s.shiftAr.env = s.env := rfl
@[simp] theorem State.shiftAr_trace : s.shiftAr.trace = s.trace := rfl
@[simp] theorem State.shiftAr_draws : s.shiftAr.draws = s.draws := rfl

@[simp] theorem State.advanceAr_cfg (n : Nat) : (s.advanceAr n).cfg = s.cfg := rfl
@[simp] theorem State.advanceAr_ar (n : Nat) : (s.advanceAr n).ar = advanceAddress s.ar n := rfl
@[simp] theorem State.advanceAr_buf (n : Nat) : (s.advanceAr n).buf = s.buf := rfl
@[simp] theorem State.advanceAr_len (n : Nat) : (s.advanceAr n).len = s.len := rfl
@[simp] theorem State.advanceAr_mt (n : Nat) : (s.advanceAr n).mt = s.mt := rfl
@[simp] theorem State.advanceAr_phase (n : Nat) : (s.advanceAr n).phase = s.phase := rfl
@[simp] theorem State.advanceAr_flash (n : Nat) : (s.advanceAr n).flash = s.flash := rfl
@[simp] theorem State.advanceAr_pb (n : Nat) : (s.advanceAr n).pb = s.pb := rfl
@[simp] theorem State.advanceAr_eeprom (n : Nat) : (s.advanceAr n).eeprom = s.eeprom := rfl
@[simp] theorem State.advanceAr_rx (n : Nat) : (s.advanceAr n).rx = s.rx := rfl
@[simp] theorem State.advanceAr_env (n : Nat) : (s.advanceAr n).env = s.env := rfl
@[simp] theorem State.advanceAr_trace (n : Nat) : (s.advanceAr n).trace = s.trace := rfl
@[simp] theorem State.advanceAr_draws (n : Nat) : (s.advanceAr n).draws = s.draws := rfl

@[simp] theorem State.finish_cfg : s.finish.cfg = s.cfg := rfl
@[simp] theorem State.finish_ar : s.finish.ar = s.ar := rfl
@[simp] theorem State.finish_buf : s.finish.buf = s.buf := rfl
@[simp] theorem State.finish_len : s.finish.len = s.len := rfl
@[simp] theorem State.finish_mt : s.finish.mt = s.mt := rfl
@[simp] theorem State.finish_phase : s.finish.phase = .awaitCommand := rfl
@[simp] theorem State.finish_flash : s.finish.flash = s.flash := rfl
@[simp] theorem State.finish_pb : s.finish.pb = s.pb := rfl
@[simp] theorem State.finish_eeprom : s.finish.eeprom = s.eeprom := rfl
@[simp] theorem State.finish_rx : s.finish.rx = s.rx := rfl
@[simp] theorem State.finish_env : s.finish.env = s.env := rfl
@[simp] theorem State.finish_trace : s.finish.trace = s.trace := rfl
@[simp] theorem State.finish_draws : s.finish.draws = s.draws := rfl

@[simp] theorem State.recv_cfg (b : Byte) : (s.recv b).cfg = s.cfg := rfl
@[simp] theorem State.recv_ar (b : Byte) : (s.recv b).ar = s.ar := rfl
@[simp] theorem State.recv_buf (b : Byte) : (s.recv b).buf = s.buf := rfl
@[simp] theorem State.recv_len (b : Byte) : (s.recv b).len = s.len := rfl
@[simp] theorem State.recv_mt (b : Byte) : (s.recv b).mt = s.mt := rfl
@[simp] theorem State.recv_phase (b : Byte) : (s.recv b).phase = s.phase := rfl
@[simp] theorem State.recv_flash (b : Byte) : (s.recv b).flash = s.flash := rfl
@[simp] theorem State.recv_pb (b : Byte) : (s.recv b).pb = s.pb := rfl
@[simp] theorem State.recv_eeprom (b : Byte) : (s.recv b).eeprom = s.eeprom := rfl
@[simp] theorem State.recv_rx (b : Byte) : (s.recv b).rx = s.rx := rfl
@[simp] theorem State.recv_env (b : Byte) : (s.recv b).env = s.env := rfl
@[simp] theorem State.recv_trace (b : Byte) : (s.recv b).trace = s.trace ++ [.recv b] := rfl
@[simp] theorem State.recv_draws (b : Byte) : (s.recv b).draws = s.draws := rfl

@[simp] theorem State.send_cfg (b : Byte) : (s.send b).cfg = s.cfg := rfl
@[simp] theorem State.send_ar (b : Byte) : (s.send b).ar = s.ar := rfl
@[simp] theorem State.send_buf (b : Byte) : (s.send b).buf = s.buf := rfl
@[simp] theorem State.send_len (b : Byte) : (s.send b).len = s.len := rfl
@[simp] theorem State.send_mt (b : Byte) : (s.send b).mt = s.mt := rfl
@[simp] theorem State.send_phase (b : Byte) : (s.send b).phase = s.phase := rfl
@[simp] theorem State.send_flash (b : Byte) : (s.send b).flash = s.flash := rfl
@[simp] theorem State.send_pb (b : Byte) : (s.send b).pb = s.pb := rfl
@[simp] theorem State.send_eeprom (b : Byte) : (s.send b).eeprom = s.eeprom := rfl
@[simp] theorem State.send_rx (b : Byte) : (s.send b).rx = s.rx := rfl
@[simp] theorem State.send_env (b : Byte) : (s.send b).env = s.env := rfl
@[simp] theorem State.send_trace (b : Byte) : (s.send b).trace = s.trace ++ [.send b] := rfl
@[simp] theorem State.send_draws (b : Byte) : (s.send b).draws = s.draws := rfl

@[simp] theorem State.nvmWait_cfg : s.nvmWait.cfg = s.cfg := rfl
@[simp] theorem State.nvmWait_ar : s.nvmWait.ar = s.ar := rfl
@[simp] theorem State.nvmWait_buf : s.nvmWait.buf = s.buf := rfl
@[simp] theorem State.nvmWait_len : s.nvmWait.len = s.len := rfl
@[simp] theorem State.nvmWait_mt : s.nvmWait.mt = s.mt := rfl
@[simp] theorem State.nvmWait_phase : s.nvmWait.phase = s.phase := rfl
@[simp] theorem State.nvmWait_flash : s.nvmWait.flash = s.flash := rfl
@[simp] theorem State.nvmWait_pb : s.nvmWait.pb = s.pb := rfl
@[simp] theorem State.nvmWait_eeprom : s.nvmWait.eeprom = s.eeprom := rfl
@[simp] theorem State.nvmWait_rx : s.nvmWait.rx = s.rx := rfl
@[simp] theorem State.nvmWait_env : s.nvmWait.env = s.env := rfl
@[simp] theorem State.nvmWait_trace : s.nvmWait.trace = s.trace ++ [.nvmWait] := rfl
@[simp] theorem State.nvmWait_draws : s.nvmWait.draws = s.draws := rfl

@[simp] theorem State.handOff_cfg : s.handOff.cfg = s.cfg := rfl
@[simp] theorem State.handOff_ar : s.handOff.ar = s.ar := rfl
@[simp] theorem State.handOff_buf : s.handOff.buf = s.buf := rfl
@[simp] theorem State.handOff_len : s.handOff.len = s.len := rfl
@[simp] theorem State.handOff_mt : s.handOff.mt = s.mt := rfl
@[simp] theorem State.handOff_phase : s.handOff.phase = .handedOff := rfl
@[simp] theorem State.handOff_flash : s.handOff.flash = s.flash := rfl
@[simp] theorem State.handOff_pb : s.handOff.pb = s.pb := rfl
@[simp] theorem State.handOff_eeprom : s.handOff.eeprom = s.eeprom := rfl
@[simp] theorem State.handOff_rx : s.handOff.rx = s.rx := rfl
@[simp] theorem State.handOff_env : s.handOff.env = s.env := rfl
@[simp] theorem State.handOff_trace : s.handOff.trace = s.trace ++ [.handoff] := rfl
@[simp] theorem State.handOff_draws : s.handOff.draws = s.draws := rfl

@[simp] theorem State.drawFlash_cfg : s.drawFlash.cfg = s.cfg := rfl
@[simp] theorem State.drawFlash_ar : s.drawFlash.ar = s.ar := rfl
@[simp] theorem State.drawFlash_buf : s.drawFlash.buf = s.buf := rfl
@[simp] theorem State.drawFlash_len : s.drawFlash.len = s.len := rfl
@[simp] theorem State.drawFlash_mt : s.drawFlash.mt = s.mt := rfl
@[simp] theorem State.drawFlash_phase : s.drawFlash.phase = s.phase := rfl
@[simp] theorem State.drawFlash_flash :
    s.drawFlash.flash =
      Memory.drawn (Config.flashWords s.cfg) (Config.strayFlash s.draws) := rfl
@[simp] theorem State.drawFlash_pb : s.drawFlash.pb = s.pb := rfl
@[simp] theorem State.drawFlash_eeprom : s.drawFlash.eeprom = s.eeprom := rfl
@[simp] theorem State.drawFlash_rx : s.drawFlash.rx = s.rx := rfl
@[simp] theorem State.drawFlash_env : s.drawFlash.env = s.env := rfl
@[simp] theorem State.drawFlash_trace : s.drawFlash.trace = s.trace := rfl
@[simp] theorem State.drawFlash_draws : s.drawFlash.draws = s.draws + 1 := rfl

@[simp] theorem State.pageFill_cfg (a w : Word) : (s.pageFill a w).cfg = s.cfg := rfl
@[simp] theorem State.pageFill_ar (a w : Word) : (s.pageFill a w).ar = s.ar := rfl
@[simp] theorem State.pageFill_buf (a w : Word) : (s.pageFill a w).buf = s.buf := rfl
@[simp] theorem State.pageFill_len (a w : Word) : (s.pageFill a w).len = s.len := rfl
@[simp] theorem State.pageFill_mt (a w : Word) : (s.pageFill a w).mt = s.mt := rfl
@[simp] theorem State.pageFill_phase (a w : Word) : (s.pageFill a w).phase = s.phase := rfl
@[simp] theorem State.pageFill_flash (a w : Word) : (s.pageFill a w).flash = s.flash := rfl
@[simp] theorem State.pageFill_pb (a w : Word) :
    (s.pageFill a w).pb =
      s.pb.set (wordIndex a % s.cfg.pageWords) w := rfl
@[simp] theorem State.pageFill_eeprom (a w : Word) : (s.pageFill a w).eeprom = s.eeprom := rfl
@[simp] theorem State.pageFill_rx (a w : Word) : (s.pageFill a w).rx = s.rx := rfl
@[simp] theorem State.pageFill_env (a w : Word) : (s.pageFill a w).env = s.env := rfl
@[simp] theorem State.pageFill_trace (a w : Word) : (s.pageFill a w).trace = s.trace ++ [.pageFill a w] := rfl
@[simp] theorem State.pageFill_draws (a w : Word) : (s.pageFill a w).draws = s.draws := rfl

@[simp] theorem State.restart_cfg : s.restart.cfg = s.cfg := rfl
@[simp] theorem State.restart_ar : s.restart.ar = Config.freeWord s.draws := rfl
@[simp] theorem State.restart_buf :
    s.restart.buf =
      (List.range s.cfg.pageWords).map (fun i => Config.freeWord (s.draws + 2 + i)) := rfl
@[simp] theorem State.restart_len : s.restart.len = Config.freeWord (s.draws + 1) := rfl
@[simp] theorem State.restart_mt : s.restart.mt = Config.freeByte s.draws := rfl
@[simp] theorem State.restart_phase : s.restart.phase = .awaitCommand := rfl
@[simp] theorem State.restart_flash : s.restart.flash = s.flash := rfl
@[simp] theorem State.restart_pb :
    s.restart.pb =
      (List.range s.cfg.pageWords).map
      (fun i => Config.freeWord (s.draws + 2 + s.cfg.pageWords + i)) := rfl
@[simp] theorem State.restart_eeprom : s.restart.eeprom = s.eeprom := rfl
@[simp] theorem State.restart_rx : s.restart.rx = survivors (Config.survives s.draws) s.rx := rfl
@[simp] theorem State.restart_env : s.restart.env = s.env := rfl
@[simp] theorem State.restart_trace : s.restart.trace = s.trace := rfl
@[simp] theorem State.restart_draws : s.restart.draws = s.draws + 2 + 2 * s.cfg.pageWords := rfl

@[simp] theorem State.dropMove_cfg (m : List EnvMove) : (s.dropMove m).cfg = s.cfg := rfl
@[simp] theorem State.dropMove_ar (m : List EnvMove) : (s.dropMove m).ar = s.ar := rfl
@[simp] theorem State.dropMove_buf (m : List EnvMove) : (s.dropMove m).buf = s.buf := rfl
@[simp] theorem State.dropMove_len (m : List EnvMove) : (s.dropMove m).len = s.len := rfl
@[simp] theorem State.dropMove_mt (m : List EnvMove) : (s.dropMove m).mt = s.mt := rfl
@[simp] theorem State.dropMove_phase (m : List EnvMove) : (s.dropMove m).phase = s.phase := rfl
@[simp] theorem State.dropMove_flash (m : List EnvMove) : (s.dropMove m).flash = s.flash := rfl
@[simp] theorem State.dropMove_pb (m : List EnvMove) : (s.dropMove m).pb = s.pb := rfl
@[simp] theorem State.dropMove_eeprom (m : List EnvMove) : (s.dropMove m).eeprom = s.eeprom := rfl
@[simp] theorem State.dropMove_rx (m : List EnvMove) : (s.dropMove m).rx = s.rx := rfl
@[simp] theorem State.dropMove_env (m : List EnvMove) : (s.dropMove m).env = m := rfl
@[simp] theorem State.dropMove_trace (m : List EnvMove) : (s.dropMove m).trace = s.trace := rfl
@[simp] theorem State.dropMove_draws (m : List EnvMove) : (s.dropMove m).draws = s.draws := rfl

@[simp] theorem State.drawEeprom_cfg : s.drawEeprom.cfg = s.cfg := rfl
@[simp] theorem State.drawEeprom_ar : s.drawEeprom.ar = s.ar := rfl
@[simp] theorem State.drawEeprom_buf : s.drawEeprom.buf = s.buf := rfl
@[simp] theorem State.drawEeprom_len : s.drawEeprom.len = s.len := rfl
@[simp] theorem State.drawEeprom_mt : s.drawEeprom.mt = s.mt := rfl
@[simp] theorem State.drawEeprom_phase : s.drawEeprom.phase = s.phase := rfl
@[simp] theorem State.drawEeprom_flash : s.drawEeprom.flash = s.flash := rfl
@[simp] theorem State.drawEeprom_pb : s.drawEeprom.pb = s.pb := rfl
@[simp] theorem State.drawEeprom_rx : s.drawEeprom.rx = s.rx := rfl
@[simp] theorem State.drawEeprom_env : s.drawEeprom.env = s.env := rfl
@[simp] theorem State.drawEeprom_trace : s.drawEeprom.trace = s.trace := rfl
@[simp] theorem State.drawEeprom_eeprom :
    s.drawEeprom.eeprom = Memory.drawn s.cfg.eepromBytes (Config.strayEeprom s.draws) := rfl
@[simp] theorem State.drawEeprom_draws : s.drawEeprom.draws = s.draws + 1 := rfl

end Sys2Proof.Machine
end

