-- ==== Sys2Proof/Laws/Ops.lean ====
section
/-! SUPPORT. What each shared operation of Machine/Ops.lean and each loop of the command files can do: its
transactions, what it changes, and that it changes nothing else. Callers cite these and do not unfold. -/

namespace Sys2Proof.Machine

variable (s : State)

/-! ### Single transactions -/

/-- What `pageErase` leaves in each field. -/
theorem State.pageErase_frame (a : Word) :
    (s.pageErase a).cfg = s.cfg ∧
    (s.pageErase a).ar = s.ar ∧
    (s.pageErase a).buf = s.buf ∧
    (s.pageErase a).len = s.len ∧
    (s.pageErase a).mt = s.mt ∧
    (s.pageErase a).phase = s.phase ∧
    (s.pageErase a).pb = s.pb ∧
    (s.pageErase a).eeprom = s.eeprom ∧
    (s.pageErase a).rx = s.rx ∧
    (s.pageErase a).env = s.env := by
  unfold State.pageErase; dsimp only; split <;> simp
@[simp] theorem State.pageErase_cfg (a : Word) :
    (s.pageErase a).cfg = s.cfg :=
  (s.pageErase_frame a).1
@[simp] theorem State.pageErase_ar (a : Word) :
    (s.pageErase a).ar = s.ar :=
  (s.pageErase_frame a).2.1
@[simp] theorem State.pageErase_buf (a : Word) :
    (s.pageErase a).buf = s.buf :=
  (s.pageErase_frame a).2.2.1
@[simp] theorem State.pageErase_len (a : Word) :
    (s.pageErase a).len = s.len :=
  (s.pageErase_frame a).2.2.2.1
@[simp] theorem State.pageErase_mt (a : Word) :
    (s.pageErase a).mt = s.mt :=
  (s.pageErase_frame a).2.2.2.2.1
@[simp] theorem State.pageErase_phase (a : Word) :
    (s.pageErase a).phase = s.phase :=
  (s.pageErase_frame a).2.2.2.2.2.1
@[simp] theorem State.pageErase_pb (a : Word) :
    (s.pageErase a).pb = s.pb :=
  (s.pageErase_frame a).2.2.2.2.2.2.1
@[simp] theorem State.pageErase_eeprom (a : Word) :
    (s.pageErase a).eeprom = s.eeprom :=
  (s.pageErase_frame a).2.2.2.2.2.2.2.1
@[simp] theorem State.pageErase_rx (a : Word) :
    (s.pageErase a).rx = s.rx :=
  (s.pageErase_frame a).2.2.2.2.2.2.2.2.1
@[simp] theorem State.pageErase_env (a : Word) :
    (s.pageErase a).env = s.env :=
  (s.pageErase_frame a).2.2.2.2.2.2.2.2.2
@[simp] theorem State.pageErase_trace (a : Word) :
    (s.pageErase a).trace = s.trace ++ [.pageErase a] := by
  unfold State.pageErase; dsimp only; split <;> simp

/-- What `pageWrite` leaves in each field. -/
theorem State.pageWrite_frame (a : Word) :
    (s.pageWrite a).cfg = s.cfg ∧
    (s.pageWrite a).ar = s.ar ∧
    (s.pageWrite a).buf = s.buf ∧
    (s.pageWrite a).len = s.len ∧
    (s.pageWrite a).mt = s.mt ∧
    (s.pageWrite a).phase = s.phase ∧
    (s.pageWrite a).pb = s.pb ∧
    (s.pageWrite a).eeprom = s.eeprom ∧
    (s.pageWrite a).rx = s.rx ∧
    (s.pageWrite a).env = s.env := by
  unfold State.pageWrite; dsimp only; split <;> simp
@[simp] theorem State.pageWrite_cfg (a : Word) :
    (s.pageWrite a).cfg = s.cfg :=
  (s.pageWrite_frame a).1
@[simp] theorem State.pageWrite_ar (a : Word) :
    (s.pageWrite a).ar = s.ar :=
  (s.pageWrite_frame a).2.1
@[simp] theorem State.pageWrite_buf (a : Word) :
    (s.pageWrite a).buf = s.buf :=
  (s.pageWrite_frame a).2.2.1
@[simp] theorem State.pageWrite_len (a : Word) :
    (s.pageWrite a).len = s.len :=
  (s.pageWrite_frame a).2.2.2.1
@[simp] theorem State.pageWrite_mt (a : Word) :
    (s.pageWrite a).mt = s.mt :=
  (s.pageWrite_frame a).2.2.2.2.1
@[simp] theorem State.pageWrite_phase (a : Word) :
    (s.pageWrite a).phase = s.phase :=
  (s.pageWrite_frame a).2.2.2.2.2.1
@[simp] theorem State.pageWrite_pb (a : Word) :
    (s.pageWrite a).pb = s.pb :=
  (s.pageWrite_frame a).2.2.2.2.2.2.1
@[simp] theorem State.pageWrite_eeprom (a : Word) :
    (s.pageWrite a).eeprom = s.eeprom :=
  (s.pageWrite_frame a).2.2.2.2.2.2.2.1
@[simp] theorem State.pageWrite_rx (a : Word) :
    (s.pageWrite a).rx = s.rx :=
  (s.pageWrite_frame a).2.2.2.2.2.2.2.2.1
@[simp] theorem State.pageWrite_env (a : Word) :
    (s.pageWrite a).env = s.env :=
  (s.pageWrite_frame a).2.2.2.2.2.2.2.2.2
@[simp] theorem State.pageWrite_trace (a : Word) :
    (s.pageWrite a).trace = s.trace ++ [.pageWrite a] := by
  unfold State.pageWrite; dsimp only; split <;> simp

/-- What `readFlash` leaves in each field. -/
theorem State.readFlash_frame (a : Word) :
    (s.readFlash a).cfg = s.cfg ∧
    (s.readFlash a).ar = s.ar ∧
    (s.readFlash a).buf = s.buf ∧
    (s.readFlash a).len = s.len ∧
    (s.readFlash a).mt = s.mt ∧
    (s.readFlash a).phase = s.phase ∧
    (s.readFlash a).flash = s.flash ∧
    (s.readFlash a).pb = s.pb ∧
    (s.readFlash a).eeprom = s.eeprom ∧
    (s.readFlash a).rx = s.rx ∧
    (s.readFlash a).env = s.env := by
  unfold State.readFlash; dsimp only; split <;> simp
@[simp] theorem State.readFlash_cfg (a : Word) :
    (s.readFlash a).cfg = s.cfg :=
  (s.readFlash_frame a).1
@[simp] theorem State.readFlash_ar (a : Word) :
    (s.readFlash a).ar = s.ar :=
  (s.readFlash_frame a).2.1
@[simp] theorem State.readFlash_buf (a : Word) :
    (s.readFlash a).buf = s.buf :=
  (s.readFlash_frame a).2.2.1
@[simp] theorem State.readFlash_len (a : Word) :
    (s.readFlash a).len = s.len :=
  (s.readFlash_frame a).2.2.2.1
@[simp] theorem State.readFlash_mt (a : Word) :
    (s.readFlash a).mt = s.mt :=
  (s.readFlash_frame a).2.2.2.2.1
@[simp] theorem State.readFlash_phase (a : Word) :
    (s.readFlash a).phase = s.phase :=
  (s.readFlash_frame a).2.2.2.2.2.1
@[simp] theorem State.readFlash_flash (a : Word) :
    (s.readFlash a).flash = s.flash :=
  (s.readFlash_frame a).2.2.2.2.2.2.1
@[simp] theorem State.readFlash_pb (a : Word) :
    (s.readFlash a).pb = s.pb :=
  (s.readFlash_frame a).2.2.2.2.2.2.2.1
@[simp] theorem State.readFlash_eeprom (a : Word) :
    (s.readFlash a).eeprom = s.eeprom :=
  (s.readFlash_frame a).2.2.2.2.2.2.2.2.1
@[simp] theorem State.readFlash_rx (a : Word) :
    (s.readFlash a).rx = s.rx :=
  (s.readFlash_frame a).2.2.2.2.2.2.2.2.2.1
@[simp] theorem State.readFlash_env (a : Word) :
    (s.readFlash a).env = s.env :=
  (s.readFlash_frame a).2.2.2.2.2.2.2.2.2.2
@[simp] theorem State.readFlash_trace (a : Word) :
    (s.readFlash a).trace = s.trace ++ [.readFlash a (s.flashWord a)] := by
  unfold State.readFlash; dsimp only; split <;> simp

/-- What `writeEeprom` leaves in each field. -/
theorem State.writeEeprom_frame (a : Word) (b : Byte) :
    (s.writeEeprom a b).cfg = s.cfg ∧
    (s.writeEeprom a b).ar = s.ar ∧
    (s.writeEeprom a b).buf = s.buf ∧
    (s.writeEeprom a b).len = s.len ∧
    (s.writeEeprom a b).mt = s.mt ∧
    (s.writeEeprom a b).phase = s.phase ∧
    (s.writeEeprom a b).flash = s.flash ∧
    (s.writeEeprom a b).pb = s.pb ∧
    (s.writeEeprom a b).rx = s.rx ∧
    (s.writeEeprom a b).env = s.env := by
  unfold State.writeEeprom; dsimp only; split <;> simp
@[simp] theorem State.writeEeprom_cfg (a : Word) (b : Byte) :
    (s.writeEeprom a b).cfg = s.cfg :=
  (s.writeEeprom_frame a b).1
@[simp] theorem State.writeEeprom_ar (a : Word) (b : Byte) :
    (s.writeEeprom a b).ar = s.ar :=
  (s.writeEeprom_frame a b).2.1
@[simp] theorem State.writeEeprom_buf (a : Word) (b : Byte) :
    (s.writeEeprom a b).buf = s.buf :=
  (s.writeEeprom_frame a b).2.2.1
@[simp] theorem State.writeEeprom_len (a : Word) (b : Byte) :
    (s.writeEeprom a b).len = s.len :=
  (s.writeEeprom_frame a b).2.2.2.1
@[simp] theorem State.writeEeprom_mt (a : Word) (b : Byte) :
    (s.writeEeprom a b).mt = s.mt :=
  (s.writeEeprom_frame a b).2.2.2.2.1
@[simp] theorem State.writeEeprom_phase (a : Word) (b : Byte) :
    (s.writeEeprom a b).phase = s.phase :=
  (s.writeEeprom_frame a b).2.2.2.2.2.1
@[simp] theorem State.writeEeprom_flash (a : Word) (b : Byte) :
    (s.writeEeprom a b).flash = s.flash :=
  (s.writeEeprom_frame a b).2.2.2.2.2.2.1
@[simp] theorem State.writeEeprom_pb (a : Word) (b : Byte) :
    (s.writeEeprom a b).pb = s.pb :=
  (s.writeEeprom_frame a b).2.2.2.2.2.2.2.1
@[simp] theorem State.writeEeprom_rx (a : Word) (b : Byte) :
    (s.writeEeprom a b).rx = s.rx :=
  (s.writeEeprom_frame a b).2.2.2.2.2.2.2.2.1
@[simp] theorem State.writeEeprom_env (a : Word) (b : Byte) :
    (s.writeEeprom a b).env = s.env :=
  (s.writeEeprom_frame a b).2.2.2.2.2.2.2.2.2
@[simp] theorem State.writeEeprom_trace (a : Word) (b : Byte) :
    (s.writeEeprom a b).trace = s.trace ++ [.writeEeprom a b] := by
  unfold State.writeEeprom; dsimp only; split <;> simp

/-- What `readEeprom` leaves in each field. -/
theorem State.readEeprom_frame (a : Word) :
    (s.readEeprom a).cfg = s.cfg ∧
    (s.readEeprom a).ar = s.ar ∧
    (s.readEeprom a).buf = s.buf ∧
    (s.readEeprom a).len = s.len ∧
    (s.readEeprom a).mt = s.mt ∧
    (s.readEeprom a).phase = s.phase ∧
    (s.readEeprom a).flash = s.flash ∧
    (s.readEeprom a).pb = s.pb ∧
    (s.readEeprom a).eeprom = s.eeprom ∧
    (s.readEeprom a).rx = s.rx ∧
    (s.readEeprom a).env = s.env := by
  unfold State.readEeprom; dsimp only; split <;> simp
@[simp] theorem State.readEeprom_cfg (a : Word) :
    (s.readEeprom a).cfg = s.cfg :=
  (s.readEeprom_frame a).1
@[simp] theorem State.readEeprom_ar (a : Word) :
    (s.readEeprom a).ar = s.ar :=
  (s.readEeprom_frame a).2.1
@[simp] theorem State.readEeprom_buf (a : Word) :
    (s.readEeprom a).buf = s.buf :=
  (s.readEeprom_frame a).2.2.1
@[simp] theorem State.readEeprom_len (a : Word) :
    (s.readEeprom a).len = s.len :=
  (s.readEeprom_frame a).2.2.2.1
@[simp] theorem State.readEeprom_mt (a : Word) :
    (s.readEeprom a).mt = s.mt :=
  (s.readEeprom_frame a).2.2.2.2.1
@[simp] theorem State.readEeprom_phase (a : Word) :
    (s.readEeprom a).phase = s.phase :=
  (s.readEeprom_frame a).2.2.2.2.2.1
@[simp] theorem State.readEeprom_flash (a : Word) :
    (s.readEeprom a).flash = s.flash :=
  (s.readEeprom_frame a).2.2.2.2.2.2.1
@[simp] theorem State.readEeprom_pb (a : Word) :
    (s.readEeprom a).pb = s.pb :=
  (s.readEeprom_frame a).2.2.2.2.2.2.2.1
@[simp] theorem State.readEeprom_eeprom (a : Word) :
    (s.readEeprom a).eeprom = s.eeprom :=
  (s.readEeprom_frame a).2.2.2.2.2.2.2.2.1
@[simp] theorem State.readEeprom_rx (a : Word) :
    (s.readEeprom a).rx = s.rx :=
  (s.readEeprom_frame a).2.2.2.2.2.2.2.2.2.1
@[simp] theorem State.readEeprom_env (a : Word) :
    (s.readEeprom a).env = s.env :=
  (s.readEeprom_frame a).2.2.2.2.2.2.2.2.2.2
@[simp] theorem State.readEeprom_trace (a : Word) :
    (s.readEeprom a).trace = s.trace ++ [.readEeprom a (s.eepromByte a)] := by
  unfold State.readEeprom; dsimp only; split <;> simp

/-- A page erase in the application region blanks the words of its page (spec/20_memory.md R73). -/
theorem State.pageErase_flash_app (a : Word) (h : a.toNat < s.cfg.bootStartBytes) :
    (s.pageErase a).flash = s.flash.eraseRun (pageBase s.cfg a) s.cfg.pageWords := by
  simp [State.pageErase, h]

/-- A page erase in the application region draws nothing. -/
theorem State.pageErase_draws_app (a : Word) (h : a.toNat < s.cfg.bootStartBytes) :
    (s.pageErase a).draws = s.draws := by
  simp [State.pageErase, h]

/-- A page write in the application region leaves `writtenPage` in its page (R75). -/
theorem State.pageWrite_flash_app (a : Word) (h : a.toNat < s.cfg.bootStartBytes) :
    (s.pageWrite a).flash = s.flash.writeRun (pageBase s.cfg a) (s.writtenPage a) := by
  simp [State.pageWrite, State.writtenPage, h]

/-- A page write elsewhere draws the whole flash (R79, U6). -/
theorem State.pageWrite_flash_stray (a : Word) (h : s.cfg.bootStartBytes ≤ a.toNat) :
    (s.pageWrite a).flash = Memory.drawn (Config.flashWords s.cfg) (Config.strayFlash s.draws) := by
  simp [State.pageWrite, Nat.not_lt.mpr h]

/-- An EEPROM write inside the memory writes one byte (R77). -/
theorem State.writeEeprom_eeprom_inside (a : Word) (b : Byte) (h : a.toNat < s.cfg.eepromBytes) :
    (s.writeEeprom a b).eeprom = s.eeprom.write a.toNat b := by
  simp [State.writeEeprom, h]

/-- An EEPROM write elsewhere draws the whole EEPROM (R79, U7). -/
theorem State.writeEeprom_eeprom_stray (a : Word) (b : Byte) (h : s.cfg.eepromBytes ≤ a.toNat) :
    (s.writeEeprom a b).eeprom = Memory.drawn s.cfg.eepromBytes (Config.strayEeprom s.draws) := by
  simp [State.writeEeprom, Nat.not_lt.mpr h]

/-- A flash read inside the memory returns its word (R76). -/
theorem State.flashWord_inside (a : Word) (h : a.toNat < s.cfg.flashBytes) :
    s.flashWord a = s.flash.read (wordIndex a) := by
  simp [State.flashWord, h]

/-- An EEPROM read inside the memory returns its byte (R77). -/
theorem State.eepromByte_inside (a : Word) (h : a.toNat < s.cfg.eepromBytes) :
    s.eepromByte a = s.eeprom.read a.toNat := by
  simp [State.eepromByte, h]

/-! ### Sequences of sends and receives, and the ends of handlers -/

/-- Sending bytes only records them. -/
theorem State.sendAll_eq (bs : List Byte) :
    s.sendAll bs = { s with trace := s.trace ++ bs.map .send } := by
  induction bs generalizing s with
  | nil => simp [State.sendAll]
  | cons b bs ih => simp [State.sendAll, ih, State.send, State.log]

/-- Answering records the bytes sent and returns to `AwaitCommand` (spec/10_state.md R32). -/
theorem State.answer_eq (bs : List Byte) :
    s.answer bs = { s with trace := s.trace ++ bs.map .send, phase := .awaitCommand } := by
  simp [State.answer, State.sendAll_eq, State.finish, State.setPhase]

/-- Raising an error is exactly `Send(0x3F)` and the return to `AwaitCommand`, whatever its kind
(spec/60_exceptions.md R207). -/
theorem State.reject_eq (k : RejectKind) :
    s.reject k = { s with trace := s.trace ++ [.send 0x3F], phase := .awaitCommand } := by
  simp [State.reject, State.answer_eq, Config.qm]

/-- Receiving a word only records its two bytes. -/
theorem State.recvWord_eq (w : Word) :
    s.recvWord w = { s with trace := s.trace ++ (wireBytes w).map .recv } := by
  simp [State.recvWord, State.recv, State.log, wireBytes]

/-- What `sendAll` leaves in each field. -/
theorem State.sendAll_frame (bs : List Byte) :
    (s.sendAll bs).cfg = s.cfg ∧
    (s.sendAll bs).ar = s.ar ∧
    (s.sendAll bs).buf = s.buf ∧
    (s.sendAll bs).len = s.len ∧
    (s.sendAll bs).mt = s.mt ∧
    (s.sendAll bs).phase = s.phase ∧
    (s.sendAll bs).flash = s.flash ∧
    (s.sendAll bs).pb = s.pb ∧
    (s.sendAll bs).eeprom = s.eeprom ∧
    (s.sendAll bs).rx = s.rx ∧
    (s.sendAll bs).env = s.env ∧
    (s.sendAll bs).trace = s.trace ++ bs.map .send := by
  simp [State.sendAll_eq]
@[simp] theorem State.sendAll_cfg (bs : List Byte) :
    (s.sendAll bs).cfg = s.cfg :=
  (s.sendAll_frame bs).1
@[simp] theorem State.sendAll_ar (bs : List Byte) :
    (s.sendAll bs).ar = s.ar :=
  (s.sendAll_frame bs).2.1
@[simp] theorem State.sendAll_buf (bs : List Byte) :
    (s.sendAll bs).buf = s.buf :=
  (s.sendAll_frame bs).2.2.1
@[simp] theorem State.sendAll_len (bs : List Byte) :
    (s.sendAll bs).len = s.len :=
  (s.sendAll_frame bs).2.2.2.1
@[simp] theorem State.sendAll_mt (bs : List Byte) :
    (s.sendAll bs).mt = s.mt :=
  (s.sendAll_frame bs).2.2.2.2.1
@[simp] theorem State.sendAll_phase (bs : List Byte) :
    (s.sendAll bs).phase = s.phase :=
  (s.sendAll_frame bs).2.2.2.2.2.1
@[simp] theorem State.sendAll_flash (bs : List Byte) :
    (s.sendAll bs).flash = s.flash :=
  (s.sendAll_frame bs).2.2.2.2.2.2.1
@[simp] theorem State.sendAll_pb (bs : List Byte) :
    (s.sendAll bs).pb = s.pb :=
  (s.sendAll_frame bs).2.2.2.2.2.2.2.1
@[simp] theorem State.sendAll_eeprom (bs : List Byte) :
    (s.sendAll bs).eeprom = s.eeprom :=
  (s.sendAll_frame bs).2.2.2.2.2.2.2.2.1
@[simp] theorem State.sendAll_rx (bs : List Byte) :
    (s.sendAll bs).rx = s.rx :=
  (s.sendAll_frame bs).2.2.2.2.2.2.2.2.2.1
@[simp] theorem State.sendAll_env (bs : List Byte) :
    (s.sendAll bs).env = s.env :=
  (s.sendAll_frame bs).2.2.2.2.2.2.2.2.2.2.1
@[simp] theorem State.sendAll_trace (bs : List Byte) :
    (s.sendAll bs).trace = s.trace ++ bs.map .send :=
  (s.sendAll_frame bs).2.2.2.2.2.2.2.2.2.2.2
@[simp] theorem State.sendAll_draws (bs : List Byte) :
    (s.sendAll bs).draws = s.draws := by
  rw [State.sendAll_eq]

/-- What `answer` leaves in each field. -/
theorem State.answer_frame (bs : List Byte) :
    (s.answer bs).cfg = s.cfg ∧
    (s.answer bs).ar = s.ar ∧
    (s.answer bs).buf = s.buf ∧
    (s.answer bs).len = s.len ∧
    (s.answer bs).mt = s.mt ∧
    (s.answer bs).phase = .awaitCommand ∧
    (s.answer bs).flash = s.flash ∧
    (s.answer bs).pb = s.pb ∧
    (s.answer bs).eeprom = s.eeprom ∧
    (s.answer bs).rx = s.rx ∧
    (s.answer bs).env = s.env ∧
    (s.answer bs).trace = s.trace ++ bs.map .send := by
  simp [State.answer_eq]
@[simp] theorem State.answer_cfg (bs : List Byte) :
    (s.answer bs).cfg = s.cfg :=
  (s.answer_frame bs).1
@[simp] theorem State.answer_ar (bs : List Byte) :
    (s.answer bs).ar = s.ar :=
  (s.answer_frame bs).2.1
@[simp] theorem State.answer_buf (bs : List Byte) :
    (s.answer bs).buf = s.buf :=
  (s.answer_frame bs).2.2.1
@[simp] theorem State.answer_len (bs : List Byte) :
    (s.answer bs).len = s.len :=
  (s.answer_frame bs).2.2.2.1
@[simp] theorem State.answer_mt (bs : List Byte) :
    (s.answer bs).mt = s.mt :=
  (s.answer_frame bs).2.2.2.2.1
@[simp] theorem State.answer_phase (bs : List Byte) :
    (s.answer bs).phase = .awaitCommand :=
  (s.answer_frame bs).2.2.2.2.2.1
@[simp] theorem State.answer_flash (bs : List Byte) :
    (s.answer bs).flash = s.flash :=
  (s.answer_frame bs).2.2.2.2.2.2.1
@[simp] theorem State.answer_pb (bs : List Byte) :
    (s.answer bs).pb = s.pb :=
  (s.answer_frame bs).2.2.2.2.2.2.2.1
@[simp] theorem State.answer_eeprom (bs : List Byte) :
    (s.answer bs).eeprom = s.eeprom :=
  (s.answer_frame bs).2.2.2.2.2.2.2.2.1
@[simp] theorem State.answer_rx (bs : List Byte) :
    (s.answer bs).rx = s.rx :=
  (s.answer_frame bs).2.2.2.2.2.2.2.2.2.1
@[simp] theorem State.answer_env (bs : List Byte) :
    (s.answer bs).env = s.env :=
  (s.answer_frame bs).2.2.2.2.2.2.2.2.2.2.1
@[simp] theorem State.answer_trace (bs : List Byte) :
    (s.answer bs).trace = s.trace ++ bs.map .send :=
  (s.answer_frame bs).2.2.2.2.2.2.2.2.2.2.2
@[simp] theorem State.answer_draws (bs : List Byte) :
    (s.answer bs).draws = s.draws := by
  rw [State.answer_eq]

/-- What `reject` leaves in each field. -/
theorem State.reject_frame (k : RejectKind) :
    (s.reject k).cfg = s.cfg ∧
    (s.reject k).ar = s.ar ∧
    (s.reject k).buf = s.buf ∧
    (s.reject k).len = s.len ∧
    (s.reject k).mt = s.mt ∧
    (s.reject k).phase = .awaitCommand ∧
    (s.reject k).flash = s.flash ∧
    (s.reject k).pb = s.pb ∧
    (s.reject k).eeprom = s.eeprom ∧
    (s.reject k).rx = s.rx ∧
    (s.reject k).env = s.env ∧
    (s.reject k).trace = s.trace ++ [.send 0x3F] := by
  simp [State.reject_eq]
@[simp] theorem State.reject_cfg (k : RejectKind) :
    (s.reject k).cfg = s.cfg :=
  (s.reject_frame k).1
@[simp] theorem State.reject_ar (k : RejectKind) :
    (s.reject k).ar = s.ar :=
  (s.reject_frame k).2.1
@[simp] theorem State.reject_buf (k : RejectKind) :
    (s.reject k).buf = s.buf :=
  (s.reject_frame k).2.2.1
@[simp] theorem State.reject_len (k : RejectKind) :
    (s.reject k).len = s.len :=
  (s.reject_frame k).2.2.2.1
@[simp] theorem State.reject_mt (k : RejectKind) :
    (s.reject k).mt = s.mt :=
  (s.reject_frame k).2.2.2.2.1
@[simp] theorem State.reject_phase (k : RejectKind) :
    (s.reject k).phase = .awaitCommand :=
  (s.reject_frame k).2.2.2.2.2.1
@[simp] theorem State.reject_flash (k : RejectKind) :
    (s.reject k).flash = s.flash :=
  (s.reject_frame k).2.2.2.2.2.2.1
@[simp] theorem State.reject_pb (k : RejectKind) :
    (s.reject k).pb = s.pb :=
  (s.reject_frame k).2.2.2.2.2.2.2.1
@[simp] theorem State.reject_eeprom (k : RejectKind) :
    (s.reject k).eeprom = s.eeprom :=
  (s.reject_frame k).2.2.2.2.2.2.2.2.1
@[simp] theorem State.reject_rx (k : RejectKind) :
    (s.reject k).rx = s.rx :=
  (s.reject_frame k).2.2.2.2.2.2.2.2.2.1
@[simp] theorem State.reject_env (k : RejectKind) :
    (s.reject k).env = s.env :=
  (s.reject_frame k).2.2.2.2.2.2.2.2.2.2.1
@[simp] theorem State.reject_trace (k : RejectKind) :
    (s.reject k).trace = s.trace ++ [.send 0x3F] :=
  (s.reject_frame k).2.2.2.2.2.2.2.2.2.2.2
@[simp] theorem State.reject_draws (k : RejectKind) :
    (s.reject k).draws = s.draws := by
  rw [State.reject_eq]

/-- What `recvWord` leaves in each field. -/
theorem State.recvWord_frame (w : Word) :
    (s.recvWord w).cfg = s.cfg ∧
    (s.recvWord w).ar = s.ar ∧
    (s.recvWord w).buf = s.buf ∧
    (s.recvWord w).len = s.len ∧
    (s.recvWord w).mt = s.mt ∧
    (s.recvWord w).phase = s.phase ∧
    (s.recvWord w).flash = s.flash ∧
    (s.recvWord w).pb = s.pb ∧
    (s.recvWord w).eeprom = s.eeprom ∧
    (s.recvWord w).rx = s.rx ∧
    (s.recvWord w).env = s.env ∧
    (s.recvWord w).trace = s.trace ++ (wireBytes w).map .recv := by
  simp [State.recvWord_eq]
@[simp] theorem State.recvWord_cfg (w : Word) :
    (s.recvWord w).cfg = s.cfg :=
  (s.recvWord_frame w).1
@[simp] theorem State.recvWord_ar (w : Word) :
    (s.recvWord w).ar = s.ar :=
  (s.recvWord_frame w).2.1
@[simp] theorem State.recvWord_buf (w : Word) :
    (s.recvWord w).buf = s.buf :=
  (s.recvWord_frame w).2.2.1
@[simp] theorem State.recvWord_len (w : Word) :
    (s.recvWord w).len = s.len :=
  (s.recvWord_frame w).2.2.2.1
@[simp] theorem State.recvWord_mt (w : Word) :
    (s.recvWord w).mt = s.mt :=
  (s.recvWord_frame w).2.2.2.2.1
@[simp] theorem State.recvWord_phase (w : Word) :
    (s.recvWord w).phase = s.phase :=
  (s.recvWord_frame w).2.2.2.2.2.1
@[simp] theorem State.recvWord_flash (w : Word) :
    (s.recvWord w).flash = s.flash :=
  (s.recvWord_frame w).2.2.2.2.2.2.1
@[simp] theorem State.recvWord_pb (w : Word) :
    (s.recvWord w).pb = s.pb :=
  (s.recvWord_frame w).2.2.2.2.2.2.2.1
@[simp] theorem State.recvWord_eeprom (w : Word) :
    (s.recvWord w).eeprom = s.eeprom :=
  (s.recvWord_frame w).2.2.2.2.2.2.2.2.1
@[simp] theorem State.recvWord_rx (w : Word) :
    (s.recvWord w).rx = s.rx :=
  (s.recvWord_frame w).2.2.2.2.2.2.2.2.2.1
@[simp] theorem State.recvWord_env (w : Word) :
    (s.recvWord w).env = s.env :=
  (s.recvWord_frame w).2.2.2.2.2.2.2.2.2.2.1
@[simp] theorem State.recvWord_trace (w : Word) :
    (s.recvWord w).trace = s.trace ++ (wireBytes w).map .recv :=
  (s.recvWord_frame w).2.2.2.2.2.2.2.2.2.2.2
@[simp] theorem State.recvWord_draws (w : Word) :
    (s.recvWord w).draws = s.draws := by
  rw [State.recvWord_eq]

/-- What `loadAr` leaves in each field. -/
theorem State.loadAr_frame (w : Word) :
    (s.loadAr w).cfg = s.cfg ∧
    (s.loadAr w).ar = w ∧
    (s.loadAr w).buf = s.buf ∧
    (s.loadAr w).len = s.len ∧
    (s.loadAr w).mt = s.mt ∧
    (s.loadAr w).phase = .awaitCommand ∧
    (s.loadAr w).flash = s.flash ∧
    (s.loadAr w).pb = s.pb ∧
    (s.loadAr w).eeprom = s.eeprom ∧
    (s.loadAr w).rx = s.rx ∧
    (s.loadAr w).env = s.env ∧
    (s.loadAr w).trace = s.trace ++ [.send s.cfg.cr] := by
  simp [State.loadAr, replyCr]
@[simp] theorem State.loadAr_cfg (w : Word) :
    (s.loadAr w).cfg = s.cfg :=
  (s.loadAr_frame w).1
@[simp] theorem State.loadAr_ar (w : Word) :
    (s.loadAr w).ar = w :=
  (s.loadAr_frame w).2.1
@[simp] theorem State.loadAr_buf (w : Word) :
    (s.loadAr w).buf = s.buf :=
  (s.loadAr_frame w).2.2.1
@[simp] theorem State.loadAr_len (w : Word) :
    (s.loadAr w).len = s.len :=
  (s.loadAr_frame w).2.2.2.1
@[simp] theorem State.loadAr_mt (w : Word) :
    (s.loadAr w).mt = s.mt :=
  (s.loadAr_frame w).2.2.2.2.1
@[simp] theorem State.loadAr_phase (w : Word) :
    (s.loadAr w).phase = .awaitCommand :=
  (s.loadAr_frame w).2.2.2.2.2.1
@[simp] theorem State.loadAr_flash (w : Word) :
    (s.loadAr w).flash = s.flash :=
  (s.loadAr_frame w).2.2.2.2.2.2.1
@[simp] theorem State.loadAr_pb (w : Word) :
    (s.loadAr w).pb = s.pb :=
  (s.loadAr_frame w).2.2.2.2.2.2.2.1
@[simp] theorem State.loadAr_eeprom (w : Word) :
    (s.loadAr w).eeprom = s.eeprom :=
  (s.loadAr_frame w).2.2.2.2.2.2.2.2.1
@[simp] theorem State.loadAr_rx (w : Word) :
    (s.loadAr w).rx = s.rx :=
  (s.loadAr_frame w).2.2.2.2.2.2.2.2.2.1
@[simp] theorem State.loadAr_env (w : Word) :
    (s.loadAr w).env = s.env :=
  (s.loadAr_frame w).2.2.2.2.2.2.2.2.2.2.1
@[simp] theorem State.loadAr_trace (w : Word) :
    (s.loadAr w).trace = s.trace ++ [.send s.cfg.cr] :=
  (s.loadAr_frame w).2.2.2.2.2.2.2.2.2.2.2
@[simp] theorem State.loadAr_draws (w : Word) :
    (s.loadAr w).draws = s.draws := by
  simp [State.loadAr, replyCr]

/-! ### One turn of each loop -/

/-- What `loadByteAt` leaves in each field. -/
theorem State.loadByteAt_frame (b : Byte) :
    (s.loadByteAt b).cfg = s.cfg ∧
    (s.loadByteAt b).ar = advanceAddress s.ar 1 ∧
    (s.loadByteAt b).buf = s.buf ∧
    (s.loadByteAt b).len = s.len ∧
    (s.loadByteAt b).mt = s.mt ∧
    (s.loadByteAt b).phase = s.phase ∧
    (s.loadByteAt b).flash = s.flash ∧
    (s.loadByteAt b).pb = s.pb ∧
    (s.loadByteAt b).rx = s.rx ∧
    (s.loadByteAt b).env = s.env := by
  simp [State.loadByteAt]
@[simp] theorem State.loadByteAt_cfg (b : Byte) :
    (s.loadByteAt b).cfg = s.cfg :=
  (s.loadByteAt_frame b).1
@[simp] theorem State.loadByteAt_ar (b : Byte) :
    (s.loadByteAt b).ar = advanceAddress s.ar 1 :=
  (s.loadByteAt_frame b).2.1
@[simp] theorem State.loadByteAt_buf (b : Byte) :
    (s.loadByteAt b).buf = s.buf :=
  (s.loadByteAt_frame b).2.2.1
@[simp] theorem State.loadByteAt_len (b : Byte) :
    (s.loadByteAt b).len = s.len :=
  (s.loadByteAt_frame b).2.2.2.1
@[simp] theorem State.loadByteAt_mt (b : Byte) :
    (s.loadByteAt b).mt = s.mt :=
  (s.loadByteAt_frame b).2.2.2.2.1
@[simp] theorem State.loadByteAt_phase (b : Byte) :
    (s.loadByteAt b).phase = s.phase :=
  (s.loadByteAt_frame b).2.2.2.2.2.1
@[simp] theorem State.loadByteAt_flash (b : Byte) :
    (s.loadByteAt b).flash = s.flash :=
  (s.loadByteAt_frame b).2.2.2.2.2.2.1
@[simp] theorem State.loadByteAt_pb (b : Byte) :
    (s.loadByteAt b).pb = s.pb :=
  (s.loadByteAt_frame b).2.2.2.2.2.2.2.1
@[simp] theorem State.loadByteAt_rx (b : Byte) :
    (s.loadByteAt b).rx = s.rx :=
  (s.loadByteAt_frame b).2.2.2.2.2.2.2.2.1
@[simp] theorem State.loadByteAt_env (b : Byte) :
    (s.loadByteAt b).env = s.env :=
  (s.loadByteAt_frame b).2.2.2.2.2.2.2.2.2
@[simp] theorem State.loadByteAt_trace (b : Byte) :
    (s.loadByteAt b).trace = s.trace ++ [.recv b, .writeEeprom s.ar b] := by
  simp [State.loadByteAt]

/-- What `readByteOut` leaves in each field. -/
theorem State.readByteOut_frame :
    s.readByteOut.cfg = s.cfg ∧
    s.readByteOut.ar = advanceAddress s.ar 1 ∧
    s.readByteOut.buf = s.buf ∧
    s.readByteOut.len = s.len ∧
    s.readByteOut.mt = s.mt ∧
    s.readByteOut.phase = s.phase ∧
    s.readByteOut.flash = s.flash ∧
    s.readByteOut.pb = s.pb ∧
    s.readByteOut.eeprom = s.eeprom ∧
    s.readByteOut.rx = s.rx ∧
    s.readByteOut.env = s.env := by
  simp [State.readByteOut]
@[simp] theorem State.readByteOut_cfg :
    s.readByteOut.cfg = s.cfg :=
  (s.readByteOut_frame).1
@[simp] theorem State.readByteOut_ar :
    s.readByteOut.ar = advanceAddress s.ar 1 :=
  (s.readByteOut_frame).2.1
@[simp] theorem State.readByteOut_buf :
    s.readByteOut.buf = s.buf :=
  (s.readByteOut_frame).2.2.1
@[simp] theorem State.readByteOut_len :
    s.readByteOut.len = s.len :=
  (s.readByteOut_frame).2.2.2.1
@[simp] theorem State.readByteOut_mt :
    s.readByteOut.mt = s.mt :=
  (s.readByteOut_frame).2.2.2.2.1
@[simp] theorem State.readByteOut_phase :
    s.readByteOut.phase = s.phase :=
  (s.readByteOut_frame).2.2.2.2.2.1
@[simp] theorem State.readByteOut_flash :
    s.readByteOut.flash = s.flash :=
  (s.readByteOut_frame).2.2.2.2.2.2.1
@[simp] theorem State.readByteOut_pb :
    s.readByteOut.pb = s.pb :=
  (s.readByteOut_frame).2.2.2.2.2.2.2.1
@[simp] theorem State.readByteOut_eeprom :
    s.readByteOut.eeprom = s.eeprom :=
  (s.readByteOut_frame).2.2.2.2.2.2.2.2.1
@[simp] theorem State.readByteOut_rx :
    s.readByteOut.rx = s.rx :=
  (s.readByteOut_frame).2.2.2.2.2.2.2.2.2.1
@[simp] theorem State.readByteOut_env :
    s.readByteOut.env = s.env :=
  (s.readByteOut_frame).2.2.2.2.2.2.2.2.2.2
@[simp] theorem State.readByteOut_trace :
    s.readByteOut.trace = s.trace ++ [.readEeprom s.ar (s.eepromByte s.ar), .send (s.eepromByte s.ar)] := by
  simp [State.readByteOut]

/-- What `readWordOut` leaves in each field. -/
theorem State.readWordOut_frame :
    s.readWordOut.cfg = s.cfg ∧
    s.readWordOut.ar = advanceAddress s.ar 2 ∧
    s.readWordOut.buf = s.buf ∧
    s.readWordOut.len = s.len ∧
    s.readWordOut.mt = s.mt ∧
    s.readWordOut.phase = s.phase ∧
    s.readWordOut.flash = s.flash ∧
    s.readWordOut.pb = s.pb ∧
    s.readWordOut.eeprom = s.eeprom ∧
    s.readWordOut.rx = s.rx ∧
    s.readWordOut.env = s.env := by
  simp [State.readWordOut]
@[simp] theorem State.readWordOut_cfg :
    s.readWordOut.cfg = s.cfg :=
  (s.readWordOut_frame).1
@[simp] theorem State.readWordOut_ar :
    s.readWordOut.ar = advanceAddress s.ar 2 :=
  (s.readWordOut_frame).2.1
@[simp] theorem State.readWordOut_buf :
    s.readWordOut.buf = s.buf :=
  (s.readWordOut_frame).2.2.1
@[simp] theorem State.readWordOut_len :
    s.readWordOut.len = s.len :=
  (s.readWordOut_frame).2.2.2.1
@[simp] theorem State.readWordOut_mt :
    s.readWordOut.mt = s.mt :=
  (s.readWordOut_frame).2.2.2.2.1
@[simp] theorem State.readWordOut_phase :
    s.readWordOut.phase = s.phase :=
  (s.readWordOut_frame).2.2.2.2.2.1
@[simp] theorem State.readWordOut_flash :
    s.readWordOut.flash = s.flash :=
  (s.readWordOut_frame).2.2.2.2.2.2.1
@[simp] theorem State.readWordOut_pb :
    s.readWordOut.pb = s.pb :=
  (s.readWordOut_frame).2.2.2.2.2.2.2.1
@[simp] theorem State.readWordOut_eeprom :
    s.readWordOut.eeprom = s.eeprom :=
  (s.readWordOut_frame).2.2.2.2.2.2.2.2.1
@[simp] theorem State.readWordOut_rx :
    s.readWordOut.rx = s.rx :=
  (s.readWordOut_frame).2.2.2.2.2.2.2.2.2.1
@[simp] theorem State.readWordOut_env :
    s.readWordOut.env = s.env :=
  (s.readWordOut_frame).2.2.2.2.2.2.2.2.2.2
@[simp] theorem State.readWordOut_trace :
    s.readWordOut.trace = s.trace ++ .readFlash s.ar (s.flashWord s.ar) :: (wireBytes s.wordToSend).map .send := by
  simp [State.readWordOut]

/-! ### The loops: what they leave unchanged -/

/-- What `eraseLoop` leaves in each field. -/
theorem State.eraseLoop_frame (a n : Nat) :
    (s.eraseLoop a n).cfg = s.cfg ∧
    (s.eraseLoop a n).ar = s.ar ∧
    (s.eraseLoop a n).buf = s.buf ∧
    (s.eraseLoop a n).len = s.len ∧
    (s.eraseLoop a n).mt = s.mt ∧
    (s.eraseLoop a n).phase = s.phase ∧
    (s.eraseLoop a n).pb = s.pb ∧
    (s.eraseLoop a n).eeprom = s.eeprom ∧
    (s.eraseLoop a n).rx = s.rx := by
  induction n generalizing s a <;> simp_all [State.eraseLoop]
@[simp] theorem State.eraseLoop_cfg (a n : Nat) :
    (s.eraseLoop a n).cfg = s.cfg :=
  (s.eraseLoop_frame a n).1
@[simp] theorem State.eraseLoop_ar (a n : Nat) :
    (s.eraseLoop a n).ar = s.ar :=
  (s.eraseLoop_frame a n).2.1
@[simp] theorem State.eraseLoop_buf (a n : Nat) :
    (s.eraseLoop a n).buf = s.buf :=
  (s.eraseLoop_frame a n).2.2.1
@[simp] theorem State.eraseLoop_len (a n : Nat) :
    (s.eraseLoop a n).len = s.len :=
  (s.eraseLoop_frame a n).2.2.2.1
@[simp] theorem State.eraseLoop_mt (a n : Nat) :
    (s.eraseLoop a n).mt = s.mt :=
  (s.eraseLoop_frame a n).2.2.2.2.1
@[simp] theorem State.eraseLoop_phase (a n : Nat) :
    (s.eraseLoop a n).phase = s.phase :=
  (s.eraseLoop_frame a n).2.2.2.2.2.1
@[simp] theorem State.eraseLoop_pb (a n : Nat) :
    (s.eraseLoop a n).pb = s.pb :=
  (s.eraseLoop_frame a n).2.2.2.2.2.2.1
@[simp] theorem State.eraseLoop_eeprom (a n : Nat) :
    (s.eraseLoop a n).eeprom = s.eeprom :=
  (s.eraseLoop_frame a n).2.2.2.2.2.2.2.1
@[simp] theorem State.eraseLoop_rx (a n : Nat) :
    (s.eraseLoop a n).rx = s.rx :=
  (s.eraseLoop_frame a n).2.2.2.2.2.2.2.2
@[simp] theorem State.eraseLoop_env (a n : Nat) :
    (s.eraseLoop a n).env = s.env := by
  induction n generalizing s a <;> simp_all [State.eraseLoop]

/-- What `fillLoop` leaves in each field. -/
theorem State.fillLoop_frame (i n : Nat) :
    (s.fillLoop i n).cfg = s.cfg ∧
    (s.fillLoop i n).ar = s.ar ∧
    (s.fillLoop i n).buf = s.buf ∧
    (s.fillLoop i n).len = s.len ∧
    (s.fillLoop i n).mt = s.mt ∧
    (s.fillLoop i n).phase = s.phase ∧
    (s.fillLoop i n).flash = s.flash ∧
    (s.fillLoop i n).eeprom = s.eeprom ∧
    (s.fillLoop i n).rx = s.rx ∧
    (s.fillLoop i n).env = s.env := by
  induction n generalizing s i <;> simp_all [State.fillLoop]
@[simp] theorem State.fillLoop_cfg (i n : Nat) :
    (s.fillLoop i n).cfg = s.cfg :=
  (s.fillLoop_frame i n).1
@[simp] theorem State.fillLoop_ar (i n : Nat) :
    (s.fillLoop i n).ar = s.ar :=
  (s.fillLoop_frame i n).2.1
@[simp] theorem State.fillLoop_buf (i n : Nat) :
    (s.fillLoop i n).buf = s.buf :=
  (s.fillLoop_frame i n).2.2.1
@[simp] theorem State.fillLoop_len (i n : Nat) :
    (s.fillLoop i n).len = s.len :=
  (s.fillLoop_frame i n).2.2.2.1
@[simp] theorem State.fillLoop_mt (i n : Nat) :
    (s.fillLoop i n).mt = s.mt :=
  (s.fillLoop_frame i n).2.2.2.2.1
@[simp] theorem State.fillLoop_phase (i n : Nat) :
    (s.fillLoop i n).phase = s.phase :=
  (s.fillLoop_frame i n).2.2.2.2.2.1
@[simp] theorem State.fillLoop_flash (i n : Nat) :
    (s.fillLoop i n).flash = s.flash :=
  (s.fillLoop_frame i n).2.2.2.2.2.2.1
@[simp] theorem State.fillLoop_eeprom (i n : Nat) :
    (s.fillLoop i n).eeprom = s.eeprom :=
  (s.fillLoop_frame i n).2.2.2.2.2.2.2.1
@[simp] theorem State.fillLoop_rx (i n : Nat) :
    (s.fillLoop i n).rx = s.rx :=
  (s.fillLoop_frame i n).2.2.2.2.2.2.2.2.1
@[simp] theorem State.fillLoop_env (i n : Nat) :
    (s.fillLoop i n).env = s.env :=
  (s.fillLoop_frame i n).2.2.2.2.2.2.2.2.2
@[simp] theorem State.fillLoop_draws (i n : Nat) :
    (s.fillLoop i n).draws = s.draws := by
  induction n generalizing s i <;> simp_all [State.fillLoop]

/-- What `loadBytes` leaves in each field. -/
theorem State.loadBytes_frame (bs : List Byte) :
    (s.loadBytes bs).cfg = s.cfg ∧
    (s.loadBytes bs).buf = s.buf ∧
    (s.loadBytes bs).len = s.len ∧
    (s.loadBytes bs).mt = s.mt ∧
    (s.loadBytes bs).phase = s.phase ∧
    (s.loadBytes bs).flash = s.flash ∧
    (s.loadBytes bs).pb = s.pb ∧
    (s.loadBytes bs).rx = s.rx := by
  induction bs generalizing s <;> simp_all [State.loadBytes]
@[simp] theorem State.loadBytes_cfg (bs : List Byte) :
    (s.loadBytes bs).cfg = s.cfg :=
  (s.loadBytes_frame bs).1
@[simp] theorem State.loadBytes_buf (bs : List Byte) :
    (s.loadBytes bs).buf = s.buf :=
  (s.loadBytes_frame bs).2.1
@[simp] theorem State.loadBytes_len (bs : List Byte) :
    (s.loadBytes bs).len = s.len :=
  (s.loadBytes_frame bs).2.2.1
@[simp] theorem State.loadBytes_mt (bs : List Byte) :
    (s.loadBytes bs).mt = s.mt :=
  (s.loadBytes_frame bs).2.2.2.1
@[simp] theorem State.loadBytes_phase (bs : List Byte) :
    (s.loadBytes bs).phase = s.phase :=
  (s.loadBytes_frame bs).2.2.2.2.1
@[simp] theorem State.loadBytes_flash (bs : List Byte) :
    (s.loadBytes bs).flash = s.flash :=
  (s.loadBytes_frame bs).2.2.2.2.2.1
@[simp] theorem State.loadBytes_pb (bs : List Byte) :
    (s.loadBytes bs).pb = s.pb :=
  (s.loadBytes_frame bs).2.2.2.2.2.2.1
@[simp] theorem State.loadBytes_rx (bs : List Byte) :
    (s.loadBytes bs).rx = s.rx :=
  (s.loadBytes_frame bs).2.2.2.2.2.2.2
@[simp] theorem State.loadBytes_env (bs : List Byte) :
    (s.loadBytes bs).env = s.env := by
  induction bs generalizing s <;> simp_all [State.loadBytes]

/-- What `readBytes` leaves in each field. -/
theorem State.readBytes_frame (n : Nat) :
    (s.readBytes n).cfg = s.cfg ∧
    (s.readBytes n).buf = s.buf ∧
    (s.readBytes n).len = s.len ∧
    (s.readBytes n).mt = s.mt ∧
    (s.readBytes n).phase = s.phase ∧
    (s.readBytes n).flash = s.flash ∧
    (s.readBytes n).pb = s.pb ∧
    (s.readBytes n).eeprom = s.eeprom ∧
    (s.readBytes n).rx = s.rx := by
  induction n generalizing s <;> simp_all [State.readBytes]
@[simp] theorem State.readBytes_cfg (n : Nat) :
    (s.readBytes n).cfg = s.cfg :=
  (s.readBytes_frame n).1
@[simp] theorem State.readBytes_buf (n : Nat) :
    (s.readBytes n).buf = s.buf :=
  (s.readBytes_frame n).2.1
@[simp] theorem State.readBytes_len (n : Nat) :
    (s.readBytes n).len = s.len :=
  (s.readBytes_frame n).2.2.1
@[simp] theorem State.readBytes_mt (n : Nat) :
    (s.readBytes n).mt = s.mt :=
  (s.readBytes_frame n).2.2.2.1
@[simp] theorem State.readBytes_phase (n : Nat) :
    (s.readBytes n).phase = s.phase :=
  (s.readBytes_frame n).2.2.2.2.1
@[simp] theorem State.readBytes_flash (n : Nat) :
    (s.readBytes n).flash = s.flash :=
  (s.readBytes_frame n).2.2.2.2.2.1
@[simp] theorem State.readBytes_pb (n : Nat) :
    (s.readBytes n).pb = s.pb :=
  (s.readBytes_frame n).2.2.2.2.2.2.1
@[simp] theorem State.readBytes_eeprom (n : Nat) :
    (s.readBytes n).eeprom = s.eeprom :=
  (s.readBytes_frame n).2.2.2.2.2.2.2.1
@[simp] theorem State.readBytes_rx (n : Nat) :
    (s.readBytes n).rx = s.rx :=
  (s.readBytes_frame n).2.2.2.2.2.2.2.2
@[simp] theorem State.readBytes_env (n : Nat) :
    (s.readBytes n).env = s.env := by
  induction n generalizing s <;> simp_all [State.readBytes]

/-- What `readWords` leaves in each field. -/
theorem State.readWords_frame (n : Nat) :
    (s.readWords n).cfg = s.cfg ∧
    (s.readWords n).buf = s.buf ∧
    (s.readWords n).len = s.len ∧
    (s.readWords n).mt = s.mt ∧
    (s.readWords n).phase = s.phase ∧
    (s.readWords n).flash = s.flash ∧
    (s.readWords n).pb = s.pb ∧
    (s.readWords n).eeprom = s.eeprom ∧
    (s.readWords n).rx = s.rx := by
  induction n generalizing s <;> simp_all [State.readWords]
@[simp] theorem State.readWords_cfg (n : Nat) :
    (s.readWords n).cfg = s.cfg :=
  (s.readWords_frame n).1
@[simp] theorem State.readWords_buf (n : Nat) :
    (s.readWords n).buf = s.buf :=
  (s.readWords_frame n).2.1
@[simp] theorem State.readWords_len (n : Nat) :
    (s.readWords n).len = s.len :=
  (s.readWords_frame n).2.2.1
@[simp] theorem State.readWords_mt (n : Nat) :
    (s.readWords n).mt = s.mt :=
  (s.readWords_frame n).2.2.2.1
@[simp] theorem State.readWords_phase (n : Nat) :
    (s.readWords n).phase = s.phase :=
  (s.readWords_frame n).2.2.2.2.1
@[simp] theorem State.readWords_flash (n : Nat) :
    (s.readWords n).flash = s.flash :=
  (s.readWords_frame n).2.2.2.2.2.1
@[simp] theorem State.readWords_pb (n : Nat) :
    (s.readWords n).pb = s.pb :=
  (s.readWords_frame n).2.2.2.2.2.2.1
@[simp] theorem State.readWords_eeprom (n : Nat) :
    (s.readWords n).eeprom = s.eeprom :=
  (s.readWords_frame n).2.2.2.2.2.2.2.1
@[simp] theorem State.readWords_rx (n : Nat) :
    (s.readWords n).rx = s.rx :=
  (s.readWords_frame n).2.2.2.2.2.2.2.2
@[simp] theorem State.readWords_env (n : Nat) :
    (s.readWords n).env = s.env := by
  induction n generalizing s <;> simp_all [State.readWords]

/-- What `loadWords` leaves in each field. -/
theorem State.loadWords_frame (i : Nat) (bs : List Byte) :
    (s.loadWords i bs).cfg = s.cfg ∧
    (s.loadWords i bs).ar = s.ar ∧
    (s.loadWords i bs).len = s.len ∧
    (s.loadWords i bs).mt = s.mt ∧
    (s.loadWords i bs).phase = s.phase ∧
    (s.loadWords i bs).flash = s.flash ∧
    (s.loadWords i bs).pb = s.pb ∧
    (s.loadWords i bs).eeprom = s.eeprom ∧
    (s.loadWords i bs).rx = s.rx ∧
    (s.loadWords i bs).env = s.env := by
  induction bs using List.twoStepInduction generalizing s i with
  | nil => simp [State.loadWords]
  | singleton => simp [State.loadWords]
  | cons_cons h l bs ih _ => simp [State.loadWords, ih]
@[simp] theorem State.loadWords_cfg (i : Nat) (bs : List Byte) :
    (s.loadWords i bs).cfg = s.cfg :=
  (s.loadWords_frame i bs).1
@[simp] theorem State.loadWords_ar (i : Nat) (bs : List Byte) :
    (s.loadWords i bs).ar = s.ar :=
  (s.loadWords_frame i bs).2.1
@[simp] theorem State.loadWords_len (i : Nat) (bs : List Byte) :
    (s.loadWords i bs).len = s.len :=
  (s.loadWords_frame i bs).2.2.1
@[simp] theorem State.loadWords_mt (i : Nat) (bs : List Byte) :
    (s.loadWords i bs).mt = s.mt :=
  (s.loadWords_frame i bs).2.2.2.1
@[simp] theorem State.loadWords_phase (i : Nat) (bs : List Byte) :
    (s.loadWords i bs).phase = s.phase :=
  (s.loadWords_frame i bs).2.2.2.2.1
@[simp] theorem State.loadWords_flash (i : Nat) (bs : List Byte) :
    (s.loadWords i bs).flash = s.flash :=
  (s.loadWords_frame i bs).2.2.2.2.2.1
@[simp] theorem State.loadWords_pb (i : Nat) (bs : List Byte) :
    (s.loadWords i bs).pb = s.pb :=
  (s.loadWords_frame i bs).2.2.2.2.2.2.1
@[simp] theorem State.loadWords_eeprom (i : Nat) (bs : List Byte) :
    (s.loadWords i bs).eeprom = s.eeprom :=
  (s.loadWords_frame i bs).2.2.2.2.2.2.2.1
@[simp] theorem State.loadWords_rx (i : Nat) (bs : List Byte) :
    (s.loadWords i bs).rx = s.rx :=
  (s.loadWords_frame i bs).2.2.2.2.2.2.2.2.1
@[simp] theorem State.loadWords_env (i : Nat) (bs : List Byte) :
    (s.loadWords i bs).env = s.env :=
  (s.loadWords_frame i bs).2.2.2.2.2.2.2.2.2
@[simp] theorem State.loadWords_draws (i : Nat) (bs : List Byte) :
    (s.loadWords i bs).draws = s.draws := by
  induction bs using List.twoStepInduction generalizing s i with
  | nil => rfl
  | singleton => rfl
  | cons_cons h l bs ih _ => simp [State.loadWords, ih]

/-- What `chipErase` leaves in each field. -/
theorem State.chipErase_frame :
    s.chipErase.cfg = s.cfg ∧
    s.chipErase.ar = s.ar ∧
    s.chipErase.buf = s.buf ∧
    s.chipErase.len = s.len ∧
    s.chipErase.mt = s.mt ∧
    s.chipErase.phase = .awaitCommand ∧
    s.chipErase.pb = s.pb ∧
    s.chipErase.eeprom = s.eeprom ∧
    s.chipErase.rx = s.rx := by
  simp [State.chipErase]
@[simp] theorem State.chipErase_cfg :
    s.chipErase.cfg = s.cfg :=
  (s.chipErase_frame).1
@[simp] theorem State.chipErase_ar :
    s.chipErase.ar = s.ar :=
  (s.chipErase_frame).2.1
@[simp] theorem State.chipErase_buf :
    s.chipErase.buf = s.buf :=
  (s.chipErase_frame).2.2.1
@[simp] theorem State.chipErase_len :
    s.chipErase.len = s.len :=
  (s.chipErase_frame).2.2.2.1
@[simp] theorem State.chipErase_mt :
    s.chipErase.mt = s.mt :=
  (s.chipErase_frame).2.2.2.2.1
@[simp] theorem State.chipErase_phase :
    s.chipErase.phase = .awaitCommand :=
  (s.chipErase_frame).2.2.2.2.2.1
@[simp] theorem State.chipErase_pb :
    s.chipErase.pb = s.pb :=
  (s.chipErase_frame).2.2.2.2.2.2.1
@[simp] theorem State.chipErase_eeprom :
    s.chipErase.eeprom = s.eeprom :=
  (s.chipErase_frame).2.2.2.2.2.2.2.1
@[simp] theorem State.chipErase_rx :
    s.chipErase.rx = s.rx :=
  (s.chipErase_frame).2.2.2.2.2.2.2.2
@[simp] theorem State.chipErase_env :
    s.chipErase.env = s.env := by
  simp [State.chipErase]

/-- What `commitBuffer` leaves in each field. -/
theorem State.commitBuffer_frame :
    s.commitBuffer.cfg = s.cfg ∧
    s.commitBuffer.ar = shiftAddress s.ar ∧
    s.commitBuffer.buf = s.buf ∧
    s.commitBuffer.len = s.len ∧
    s.commitBuffer.mt = s.mt ∧
    s.commitBuffer.phase = .awaitCommand ∧
    s.commitBuffer.eeprom = s.eeprom ∧
    s.commitBuffer.rx = s.rx := by
  simp [State.commitBuffer]
@[simp] theorem State.commitBuffer_cfg :
    s.commitBuffer.cfg = s.cfg :=
  (s.commitBuffer_frame).1
@[simp] theorem State.commitBuffer_ar :
    s.commitBuffer.ar = shiftAddress s.ar :=
  (s.commitBuffer_frame).2.1
@[simp] theorem State.commitBuffer_buf :
    s.commitBuffer.buf = s.buf :=
  (s.commitBuffer_frame).2.2.1
@[simp] theorem State.commitBuffer_len :
    s.commitBuffer.len = s.len :=
  (s.commitBuffer_frame).2.2.2.1
@[simp] theorem State.commitBuffer_mt :
    s.commitBuffer.mt = s.mt :=
  (s.commitBuffer_frame).2.2.2.2.1
@[simp] theorem State.commitBuffer_phase :
    s.commitBuffer.phase = .awaitCommand :=
  (s.commitBuffer_frame).2.2.2.2.2.1
@[simp] theorem State.commitBuffer_eeprom :
    s.commitBuffer.eeprom = s.eeprom :=
  (s.commitBuffer_frame).2.2.2.2.2.2.1
@[simp] theorem State.commitBuffer_rx :
    s.commitBuffer.rx = s.rx :=
  (s.commitBuffer_frame).2.2.2.2.2.2.2
@[simp] theorem State.commitBuffer_env :
    s.commitBuffer.env = s.env := by
  simp [State.commitBuffer]

end Sys2Proof.Machine
end

