-- ==== Sys2Proof/Laws/Record.lean ====
section
/-! SUPPORT. The views of the record of transactions: what each keeps of each transaction, and that they
distribute over concatenation. -/

namespace Sys2Proof.Machine

@[simp] theorem sentBytes_nil : sentBytes [] = [] := rfl

@[simp] theorem sentBytes_append (x y : List Txn) : sentBytes (x ++ y) = sentBytes x ++ sentBytes y :=
  List.filterMap_append ..

@[simp] theorem sentBytes_recv (b : Byte) (ts : List Txn) :
    sentBytes (.recv b :: ts) = sentBytes ts := rfl

@[simp] theorem sentBytes_send (b : Byte) (ts : List Txn) :
    sentBytes (.send b :: ts) = b :: sentBytes ts := rfl

@[simp] theorem sentBytes_pageErase (a : Word) (ts : List Txn) :
    sentBytes (.pageErase a :: ts) = sentBytes ts := rfl

@[simp] theorem sentBytes_pageFill (a w : Word) (ts : List Txn) :
    sentBytes (.pageFill a w :: ts) = sentBytes ts := rfl

@[simp] theorem sentBytes_pageWrite (a : Word) (ts : List Txn) :
    sentBytes (.pageWrite a :: ts) = sentBytes ts := rfl

@[simp] theorem sentBytes_nvmWait (ts : List Txn) :
    sentBytes (.nvmWait :: ts) = sentBytes ts := rfl

@[simp] theorem sentBytes_readFlash (a w : Word) (ts : List Txn) :
    sentBytes (.readFlash a w :: ts) = sentBytes ts := rfl

@[simp] theorem sentBytes_readEeprom (a : Word) (b : Byte) (ts : List Txn) :
    sentBytes (.readEeprom a b :: ts) = sentBytes ts := rfl

@[simp] theorem sentBytes_writeEeprom (a : Word) (b : Byte) (ts : List Txn) :
    sentBytes (.writeEeprom a b :: ts) = sentBytes ts := rfl

@[simp] theorem sentBytes_handoff (ts : List Txn) :
    sentBytes (.handoff :: ts) = sentBytes ts := rfl

@[simp] theorem receivedBytes_nil : receivedBytes [] = [] := rfl

@[simp] theorem receivedBytes_append (x y : List Txn) : receivedBytes (x ++ y) = receivedBytes x ++ receivedBytes y :=
  List.filterMap_append ..

@[simp] theorem receivedBytes_recv (b : Byte) (ts : List Txn) :
    receivedBytes (.recv b :: ts) = b :: receivedBytes ts := rfl

@[simp] theorem receivedBytes_send (b : Byte) (ts : List Txn) :
    receivedBytes (.send b :: ts) = receivedBytes ts := rfl

@[simp] theorem receivedBytes_pageErase (a : Word) (ts : List Txn) :
    receivedBytes (.pageErase a :: ts) = receivedBytes ts := rfl

@[simp] theorem receivedBytes_pageFill (a w : Word) (ts : List Txn) :
    receivedBytes (.pageFill a w :: ts) = receivedBytes ts := rfl

@[simp] theorem receivedBytes_pageWrite (a : Word) (ts : List Txn) :
    receivedBytes (.pageWrite a :: ts) = receivedBytes ts := rfl

@[simp] theorem receivedBytes_nvmWait (ts : List Txn) :
    receivedBytes (.nvmWait :: ts) = receivedBytes ts := rfl

@[simp] theorem receivedBytes_readFlash (a w : Word) (ts : List Txn) :
    receivedBytes (.readFlash a w :: ts) = receivedBytes ts := rfl

@[simp] theorem receivedBytes_readEeprom (a : Word) (b : Byte) (ts : List Txn) :
    receivedBytes (.readEeprom a b :: ts) = receivedBytes ts := rfl

@[simp] theorem receivedBytes_writeEeprom (a : Word) (b : Byte) (ts : List Txn) :
    receivedBytes (.writeEeprom a b :: ts) = receivedBytes ts := rfl

@[simp] theorem receivedBytes_handoff (ts : List Txn) :
    receivedBytes (.handoff :: ts) = receivedBytes ts := rfl

@[simp] theorem nvmTxns_nil : nvmTxns [] = [] := rfl

@[simp] theorem nvmTxns_append (x y : List Txn) : nvmTxns (x ++ y) = nvmTxns x ++ nvmTxns y :=
  List.filter_append ..

@[simp] theorem nvmTxns_recv (b : Byte) (ts : List Txn) :
    nvmTxns (.recv b :: ts) = nvmTxns ts := rfl

@[simp] theorem nvmTxns_send (b : Byte) (ts : List Txn) :
    nvmTxns (.send b :: ts) = nvmTxns ts := rfl

@[simp] theorem nvmTxns_pageErase (a : Word) (ts : List Txn) :
    nvmTxns (.pageErase a :: ts) = .pageErase a :: nvmTxns ts := rfl

@[simp] theorem nvmTxns_pageFill (a w : Word) (ts : List Txn) :
    nvmTxns (.pageFill a w :: ts) = .pageFill a w :: nvmTxns ts := rfl

@[simp] theorem nvmTxns_pageWrite (a : Word) (ts : List Txn) :
    nvmTxns (.pageWrite a :: ts) = .pageWrite a :: nvmTxns ts := rfl

@[simp] theorem nvmTxns_nvmWait (ts : List Txn) :
    nvmTxns (.nvmWait :: ts) = .nvmWait :: nvmTxns ts := rfl

@[simp] theorem nvmTxns_readFlash (a w : Word) (ts : List Txn) :
    nvmTxns (.readFlash a w :: ts) = .readFlash a w :: nvmTxns ts := rfl

@[simp] theorem nvmTxns_readEeprom (a : Word) (b : Byte) (ts : List Txn) :
    nvmTxns (.readEeprom a b :: ts) = .readEeprom a b :: nvmTxns ts := rfl

@[simp] theorem nvmTxns_writeEeprom (a : Word) (b : Byte) (ts : List Txn) :
    nvmTxns (.writeEeprom a b :: ts) = .writeEeprom a b :: nvmTxns ts := rfl

@[simp] theorem nvmTxns_handoff (ts : List Txn) :
    nvmTxns (.handoff :: ts) = nvmTxns ts := rfl

@[simp] theorem sentBytes_map_recv (bs : List Byte) : sentBytes (bs.map .recv) = [] := by
  induction bs with
  | nil => rfl
  | cons b bs ih => simp [ih]

@[simp] theorem sentBytes_map_send (bs : List Byte) : sentBytes (bs.map .send) = bs := by
  induction bs with
  | nil => rfl
  | cons b bs ih => simp [ih]

@[simp] theorem receivedBytes_map_recv (bs : List Byte) : receivedBytes (bs.map .recv) = bs := by
  induction bs with
  | nil => rfl
  | cons b bs ih => simp [ih]

@[simp] theorem receivedBytes_map_send (bs : List Byte) : receivedBytes (bs.map .send) = [] := by
  induction bs with
  | nil => rfl
  | cons b bs ih => simp [ih]

@[simp] theorem nvmTxns_map_recv (bs : List Byte) : nvmTxns (bs.map .recv) = [] := by
  induction bs with
  | nil => rfl
  | cons b bs ih => simp [ih]

@[simp] theorem nvmTxns_map_send (bs : List Byte) : nvmTxns (bs.map .send) = [] := by
  induction bs with
  | nil => rfl
  | cons b bs ih => simp [ih]

end Sys2Proof.Machine
end

