-- ==== Sys2Proof/Laws/Handlers.lean ====
section
/-! SUPPORT. The handlers one transaction at a time: going to the next position changes `phase` alone (and the
flash arm's shift `AR`); a completed transaction is at most one, takes its byte from the stream, and changes
neither the configuration nor the environment's moves. -/

namespace Sys2Proof.Machine

variable (s : State)

/-- What `toSend` leaves in each field. -/
theorem State.toSend_frame (bs : List Byte) :
    (s.toSend bs).cfg = s.cfg ∧
    (s.toSend bs).ar = s.ar ∧
    (s.toSend bs).buf = s.buf ∧
    (s.toSend bs).len = s.len ∧
    (s.toSend bs).mt = s.mt ∧
    (s.toSend bs).flash = s.flash ∧
    (s.toSend bs).pb = s.pb ∧
    (s.toSend bs).eeprom = s.eeprom ∧
    (s.toSend bs).rx = s.rx ∧
    (s.toSend bs).env = s.env ∧
    (s.toSend bs).trace = s.trace ∧
    (s.toSend bs).draws = s.draws := by
  cases bs <;> simp [State.toSend]
@[simp] theorem State.toSend_cfg (bs : List Byte) : (s.toSend bs).cfg = s.cfg :=
  (s.toSend_frame bs).1
@[simp] theorem State.toSend_ar (bs : List Byte) : (s.toSend bs).ar = s.ar :=
  (s.toSend_frame bs).2.1
@[simp] theorem State.toSend_buf (bs : List Byte) : (s.toSend bs).buf = s.buf :=
  (s.toSend_frame bs).2.2.1
@[simp] theorem State.toSend_len (bs : List Byte) : (s.toSend bs).len = s.len :=
  (s.toSend_frame bs).2.2.2.1
@[simp] theorem State.toSend_mt (bs : List Byte) : (s.toSend bs).mt = s.mt :=
  (s.toSend_frame bs).2.2.2.2.1
@[simp] theorem State.toSend_flash (bs : List Byte) : (s.toSend bs).flash = s.flash :=
  (s.toSend_frame bs).2.2.2.2.2.1
@[simp] theorem State.toSend_pb (bs : List Byte) : (s.toSend bs).pb = s.pb :=
  (s.toSend_frame bs).2.2.2.2.2.2.1
@[simp] theorem State.toSend_eeprom (bs : List Byte) : (s.toSend bs).eeprom = s.eeprom :=
  (s.toSend_frame bs).2.2.2.2.2.2.2.1
@[simp] theorem State.toSend_rx (bs : List Byte) : (s.toSend bs).rx = s.rx :=
  (s.toSend_frame bs).2.2.2.2.2.2.2.2.1
@[simp] theorem State.toSend_env (bs : List Byte) : (s.toSend bs).env = s.env :=
  (s.toSend_frame bs).2.2.2.2.2.2.2.2.2.1
@[simp] theorem State.toSend_trace (bs : List Byte) : (s.toSend bs).trace = s.trace :=
  (s.toSend_frame bs).2.2.2.2.2.2.2.2.2.2.1
@[simp] theorem State.toSend_draws (bs : List Byte) : (s.toSend bs).draws = s.draws :=
  (s.toSend_frame bs).2.2.2.2.2.2.2.2.2.2.2

/-- What `toErase` leaves in each field. -/
theorem State.toErase_frame (a : Nat) :
    (s.toErase a).cfg = s.cfg ∧
    (s.toErase a).ar = s.ar ∧
    (s.toErase a).buf = s.buf ∧
    (s.toErase a).len = s.len ∧
    (s.toErase a).mt = s.mt ∧
    (s.toErase a).flash = s.flash ∧
    (s.toErase a).pb = s.pb ∧
    (s.toErase a).eeprom = s.eeprom ∧
    (s.toErase a).rx = s.rx ∧
    (s.toErase a).env = s.env ∧
    (s.toErase a).trace = s.trace ∧
    (s.toErase a).draws = s.draws := by
  unfold State.toErase; split <;> simp
@[simp] theorem State.toErase_cfg (a : Nat) : (s.toErase a).cfg = s.cfg :=
  (s.toErase_frame a).1
@[simp] theorem State.toErase_ar (a : Nat) : (s.toErase a).ar = s.ar :=
  (s.toErase_frame a).2.1
@[simp] theorem State.toErase_buf (a : Nat) : (s.toErase a).buf = s.buf :=
  (s.toErase_frame a).2.2.1
@[simp] theorem State.toErase_len (a : Nat) : (s.toErase a).len = s.len :=
  (s.toErase_frame a).2.2.2.1
@[simp] theorem State.toErase_mt (a : Nat) : (s.toErase a).mt = s.mt :=
  (s.toErase_frame a).2.2.2.2.1
@[simp] theorem State.toErase_flash (a : Nat) : (s.toErase a).flash = s.flash :=
  (s.toErase_frame a).2.2.2.2.2.1
@[simp] theorem State.toErase_pb (a : Nat) : (s.toErase a).pb = s.pb :=
  (s.toErase_frame a).2.2.2.2.2.2.1
@[simp] theorem State.toErase_eeprom (a : Nat) : (s.toErase a).eeprom = s.eeprom :=
  (s.toErase_frame a).2.2.2.2.2.2.2.1
@[simp] theorem State.toErase_rx (a : Nat) : (s.toErase a).rx = s.rx :=
  (s.toErase_frame a).2.2.2.2.2.2.2.2.1
@[simp] theorem State.toErase_env (a : Nat) : (s.toErase a).env = s.env :=
  (s.toErase_frame a).2.2.2.2.2.2.2.2.2.1
@[simp] theorem State.toErase_trace (a : Nat) : (s.toErase a).trace = s.trace :=
  (s.toErase_frame a).2.2.2.2.2.2.2.2.2.2.1
@[simp] theorem State.toErase_draws (a : Nat) : (s.toErase a).draws = s.draws :=
  (s.toErase_frame a).2.2.2.2.2.2.2.2.2.2.2

/-- What `toFill` leaves in each field. -/
theorem State.toFill_frame (i : Nat) :
    (s.toFill i).cfg = s.cfg ∧
    (s.toFill i).ar = s.ar ∧
    (s.toFill i).buf = s.buf ∧
    (s.toFill i).len = s.len ∧
    (s.toFill i).mt = s.mt ∧
    (s.toFill i).flash = s.flash ∧
    (s.toFill i).pb = s.pb ∧
    (s.toFill i).eeprom = s.eeprom ∧
    (s.toFill i).rx = s.rx ∧
    (s.toFill i).env = s.env ∧
    (s.toFill i).trace = s.trace ∧
    (s.toFill i).draws = s.draws := by
  unfold State.toFill; split <;> simp
@[simp] theorem State.toFill_cfg (i : Nat) : (s.toFill i).cfg = s.cfg :=
  (s.toFill_frame i).1
@[simp] theorem State.toFill_ar (i : Nat) : (s.toFill i).ar = s.ar :=
  (s.toFill_frame i).2.1
@[simp] theorem State.toFill_buf (i : Nat) : (s.toFill i).buf = s.buf :=
  (s.toFill_frame i).2.2.1
@[simp] theorem State.toFill_len (i : Nat) : (s.toFill i).len = s.len :=
  (s.toFill_frame i).2.2.2.1
@[simp] theorem State.toFill_mt (i : Nat) : (s.toFill i).mt = s.mt :=
  (s.toFill_frame i).2.2.2.2.1
@[simp] theorem State.toFill_flash (i : Nat) : (s.toFill i).flash = s.flash :=
  (s.toFill_frame i).2.2.2.2.2.1
@[simp] theorem State.toFill_pb (i : Nat) : (s.toFill i).pb = s.pb :=
  (s.toFill_frame i).2.2.2.2.2.2.1
@[simp] theorem State.toFill_eeprom (i : Nat) : (s.toFill i).eeprom = s.eeprom :=
  (s.toFill_frame i).2.2.2.2.2.2.2.1
@[simp] theorem State.toFill_rx (i : Nat) : (s.toFill i).rx = s.rx :=
  (s.toFill_frame i).2.2.2.2.2.2.2.2.1
@[simp] theorem State.toFill_env (i : Nat) : (s.toFill i).env = s.env :=
  (s.toFill_frame i).2.2.2.2.2.2.2.2.2.1
@[simp] theorem State.toFill_trace (i : Nat) : (s.toFill i).trace = s.trace :=
  (s.toFill_frame i).2.2.2.2.2.2.2.2.2.2.1
@[simp] theorem State.toFill_draws (i : Nat) : (s.toFill i).draws = s.draws :=
  (s.toFill_frame i).2.2.2.2.2.2.2.2.2.2.2

/-- What `toLoadWord` leaves in each field. -/
theorem State.toLoadWord_frame (i : Nat) :
    (s.toLoadWord i).cfg = s.cfg ∧
    (s.toLoadWord i).buf = s.buf ∧
    (s.toLoadWord i).len = s.len ∧
    (s.toLoadWord i).mt = s.mt ∧
    (s.toLoadWord i).flash = s.flash ∧
    (s.toLoadWord i).pb = s.pb ∧
    (s.toLoadWord i).eeprom = s.eeprom ∧
    (s.toLoadWord i).rx = s.rx ∧
    (s.toLoadWord i).env = s.env ∧
    (s.toLoadWord i).trace = s.trace ∧
    (s.toLoadWord i).draws = s.draws := by
  unfold State.toLoadWord; split <;> simp
@[simp] theorem State.toLoadWord_cfg (i : Nat) : (s.toLoadWord i).cfg = s.cfg :=
  (s.toLoadWord_frame i).1
@[simp] theorem State.toLoadWord_buf (i : Nat) : (s.toLoadWord i).buf = s.buf :=
  (s.toLoadWord_frame i).2.1
@[simp] theorem State.toLoadWord_len (i : Nat) : (s.toLoadWord i).len = s.len :=
  (s.toLoadWord_frame i).2.2.1
@[simp] theorem State.toLoadWord_mt (i : Nat) : (s.toLoadWord i).mt = s.mt :=
  (s.toLoadWord_frame i).2.2.2.1
@[simp] theorem State.toLoadWord_flash (i : Nat) : (s.toLoadWord i).flash = s.flash :=
  (s.toLoadWord_frame i).2.2.2.2.1
@[simp] theorem State.toLoadWord_pb (i : Nat) : (s.toLoadWord i).pb = s.pb :=
  (s.toLoadWord_frame i).2.2.2.2.2.1
@[simp] theorem State.toLoadWord_eeprom (i : Nat) : (s.toLoadWord i).eeprom = s.eeprom :=
  (s.toLoadWord_frame i).2.2.2.2.2.2.1
@[simp] theorem State.toLoadWord_rx (i : Nat) : (s.toLoadWord i).rx = s.rx :=
  (s.toLoadWord_frame i).2.2.2.2.2.2.2.1
@[simp] theorem State.toLoadWord_env (i : Nat) : (s.toLoadWord i).env = s.env :=
  (s.toLoadWord_frame i).2.2.2.2.2.2.2.2.1
@[simp] theorem State.toLoadWord_trace (i : Nat) : (s.toLoadWord i).trace = s.trace :=
  (s.toLoadWord_frame i).2.2.2.2.2.2.2.2.2.1
@[simp] theorem State.toLoadWord_draws (i : Nat) : (s.toLoadWord i).draws = s.draws :=
  (s.toLoadWord_frame i).2.2.2.2.2.2.2.2.2.2

/-- What `toLoadByte` leaves in each field. -/
theorem State.toLoadByte_frame (i : Nat) :
    (s.toLoadByte i).cfg = s.cfg ∧
    (s.toLoadByte i).ar = s.ar ∧
    (s.toLoadByte i).buf = s.buf ∧
    (s.toLoadByte i).len = s.len ∧
    (s.toLoadByte i).mt = s.mt ∧
    (s.toLoadByte i).flash = s.flash ∧
    (s.toLoadByte i).pb = s.pb ∧
    (s.toLoadByte i).eeprom = s.eeprom ∧
    (s.toLoadByte i).rx = s.rx ∧
    (s.toLoadByte i).env = s.env ∧
    (s.toLoadByte i).trace = s.trace ∧
    (s.toLoadByte i).draws = s.draws := by
  unfold State.toLoadByte; split <;> simp
@[simp] theorem State.toLoadByte_cfg (i : Nat) : (s.toLoadByte i).cfg = s.cfg :=
  (s.toLoadByte_frame i).1
@[simp] theorem State.toLoadByte_ar (i : Nat) : (s.toLoadByte i).ar = s.ar :=
  (s.toLoadByte_frame i).2.1
@[simp] theorem State.toLoadByte_buf (i : Nat) : (s.toLoadByte i).buf = s.buf :=
  (s.toLoadByte_frame i).2.2.1
@[simp] theorem State.toLoadByte_len (i : Nat) : (s.toLoadByte i).len = s.len :=
  (s.toLoadByte_frame i).2.2.2.1
@[simp] theorem State.toLoadByte_mt (i : Nat) : (s.toLoadByte i).mt = s.mt :=
  (s.toLoadByte_frame i).2.2.2.2.1
@[simp] theorem State.toLoadByte_flash (i : Nat) : (s.toLoadByte i).flash = s.flash :=
  (s.toLoadByte_frame i).2.2.2.2.2.1
@[simp] theorem State.toLoadByte_pb (i : Nat) : (s.toLoadByte i).pb = s.pb :=
  (s.toLoadByte_frame i).2.2.2.2.2.2.1
@[simp] theorem State.toLoadByte_eeprom (i : Nat) : (s.toLoadByte i).eeprom = s.eeprom :=
  (s.toLoadByte_frame i).2.2.2.2.2.2.2.1
@[simp] theorem State.toLoadByte_rx (i : Nat) : (s.toLoadByte i).rx = s.rx :=
  (s.toLoadByte_frame i).2.2.2.2.2.2.2.2.1
@[simp] theorem State.toLoadByte_env (i : Nat) : (s.toLoadByte i).env = s.env :=
  (s.toLoadByte_frame i).2.2.2.2.2.2.2.2.2.1
@[simp] theorem State.toLoadByte_trace (i : Nat) : (s.toLoadByte i).trace = s.trace :=
  (s.toLoadByte_frame i).2.2.2.2.2.2.2.2.2.2.1
@[simp] theorem State.toLoadByte_draws (i : Nat) : (s.toLoadByte i).draws = s.draws :=
  (s.toLoadByte_frame i).2.2.2.2.2.2.2.2.2.2.2

/-- What `toReadWord` leaves in each field. -/
theorem State.toReadWord_frame (n : Nat) :
    (s.toReadWord n).cfg = s.cfg ∧
    (s.toReadWord n).ar = s.ar ∧
    (s.toReadWord n).buf = s.buf ∧
    (s.toReadWord n).len = s.len ∧
    (s.toReadWord n).mt = s.mt ∧
    (s.toReadWord n).flash = s.flash ∧
    (s.toReadWord n).pb = s.pb ∧
    (s.toReadWord n).eeprom = s.eeprom ∧
    (s.toReadWord n).rx = s.rx ∧
    (s.toReadWord n).env = s.env ∧
    (s.toReadWord n).trace = s.trace ∧
    (s.toReadWord n).draws = s.draws := by
  cases n <;> simp [State.toReadWord]
@[simp] theorem State.toReadWord_cfg (n : Nat) : (s.toReadWord n).cfg = s.cfg :=
  (s.toReadWord_frame n).1
@[simp] theorem State.toReadWord_ar (n : Nat) : (s.toReadWord n).ar = s.ar :=
  (s.toReadWord_frame n).2.1
@[simp] theorem State.toReadWord_buf (n : Nat) : (s.toReadWord n).buf = s.buf :=
  (s.toReadWord_frame n).2.2.1
@[simp] theorem State.toReadWord_len (n : Nat) : (s.toReadWord n).len = s.len :=
  (s.toReadWord_frame n).2.2.2.1
@[simp] theorem State.toReadWord_mt (n : Nat) : (s.toReadWord n).mt = s.mt :=
  (s.toReadWord_frame n).2.2.2.2.1
@[simp] theorem State.toReadWord_flash (n : Nat) : (s.toReadWord n).flash = s.flash :=
  (s.toReadWord_frame n).2.2.2.2.2.1
@[simp] theorem State.toReadWord_pb (n : Nat) : (s.toReadWord n).pb = s.pb :=
  (s.toReadWord_frame n).2.2.2.2.2.2.1
@[simp] theorem State.toReadWord_eeprom (n : Nat) : (s.toReadWord n).eeprom = s.eeprom :=
  (s.toReadWord_frame n).2.2.2.2.2.2.2.1
@[simp] theorem State.toReadWord_rx (n : Nat) : (s.toReadWord n).rx = s.rx :=
  (s.toReadWord_frame n).2.2.2.2.2.2.2.2.1
@[simp] theorem State.toReadWord_env (n : Nat) : (s.toReadWord n).env = s.env :=
  (s.toReadWord_frame n).2.2.2.2.2.2.2.2.2.1
@[simp] theorem State.toReadWord_trace (n : Nat) : (s.toReadWord n).trace = s.trace :=
  (s.toReadWord_frame n).2.2.2.2.2.2.2.2.2.2.1
@[simp] theorem State.toReadWord_draws (n : Nat) : (s.toReadWord n).draws = s.draws :=
  (s.toReadWord_frame n).2.2.2.2.2.2.2.2.2.2.2

/-- What `toReadByte` leaves in each field. -/
theorem State.toReadByte_frame (n : Nat) :
    (s.toReadByte n).cfg = s.cfg ∧
    (s.toReadByte n).ar = s.ar ∧
    (s.toReadByte n).buf = s.buf ∧
    (s.toReadByte n).len = s.len ∧
    (s.toReadByte n).mt = s.mt ∧
    (s.toReadByte n).flash = s.flash ∧
    (s.toReadByte n).pb = s.pb ∧
    (s.toReadByte n).eeprom = s.eeprom ∧
    (s.toReadByte n).rx = s.rx ∧
    (s.toReadByte n).env = s.env ∧
    (s.toReadByte n).trace = s.trace ∧
    (s.toReadByte n).draws = s.draws := by
  cases n <;> simp [State.toReadByte]
@[simp] theorem State.toReadByte_cfg (n : Nat) : (s.toReadByte n).cfg = s.cfg :=
  (s.toReadByte_frame n).1
@[simp] theorem State.toReadByte_ar (n : Nat) : (s.toReadByte n).ar = s.ar :=
  (s.toReadByte_frame n).2.1
@[simp] theorem State.toReadByte_buf (n : Nat) : (s.toReadByte n).buf = s.buf :=
  (s.toReadByte_frame n).2.2.1
@[simp] theorem State.toReadByte_len (n : Nat) : (s.toReadByte n).len = s.len :=
  (s.toReadByte_frame n).2.2.2.1
@[simp] theorem State.toReadByte_mt (n : Nat) : (s.toReadByte n).mt = s.mt :=
  (s.toReadByte_frame n).2.2.2.2.1
@[simp] theorem State.toReadByte_flash (n : Nat) : (s.toReadByte n).flash = s.flash :=
  (s.toReadByte_frame n).2.2.2.2.2.1
@[simp] theorem State.toReadByte_pb (n : Nat) : (s.toReadByte n).pb = s.pb :=
  (s.toReadByte_frame n).2.2.2.2.2.2.1
@[simp] theorem State.toReadByte_eeprom (n : Nat) : (s.toReadByte n).eeprom = s.eeprom :=
  (s.toReadByte_frame n).2.2.2.2.2.2.2.1
@[simp] theorem State.toReadByte_rx (n : Nat) : (s.toReadByte n).rx = s.rx :=
  (s.toReadByte_frame n).2.2.2.2.2.2.2.2.1
@[simp] theorem State.toReadByte_env (n : Nat) : (s.toReadByte n).env = s.env :=
  (s.toReadByte_frame n).2.2.2.2.2.2.2.2.2.1
@[simp] theorem State.toReadByte_trace (n : Nat) : (s.toReadByte n).trace = s.trace :=
  (s.toReadByte_frame n).2.2.2.2.2.2.2.2.2.2.1
@[simp] theorem State.toReadByte_draws (n : Nat) : (s.toReadByte n).draws = s.draws :=
  (s.toReadByte_frame n).2.2.2.2.2.2.2.2.2.2.2

/-- What `toReject` leaves in each field. -/
theorem State.toReject_frame (k : RejectKind) :
    (s.toReject k).cfg = s.cfg ∧
    (s.toReject k).ar = s.ar ∧
    (s.toReject k).buf = s.buf ∧
    (s.toReject k).len = s.len ∧
    (s.toReject k).mt = s.mt ∧
    (s.toReject k).flash = s.flash ∧
    (s.toReject k).pb = s.pb ∧
    (s.toReject k).eeprom = s.eeprom ∧
    (s.toReject k).rx = s.rx ∧
    (s.toReject k).env = s.env ∧
    (s.toReject k).trace = s.trace ∧
    (s.toReject k).draws = s.draws := by
  simp [State.toReject]
@[simp] theorem State.toReject_cfg (k : RejectKind) : (s.toReject k).cfg = s.cfg :=
  (s.toReject_frame k).1
@[simp] theorem State.toReject_ar (k : RejectKind) : (s.toReject k).ar = s.ar :=
  (s.toReject_frame k).2.1
@[simp] theorem State.toReject_buf (k : RejectKind) : (s.toReject k).buf = s.buf :=
  (s.toReject_frame k).2.2.1
@[simp] theorem State.toReject_len (k : RejectKind) : (s.toReject k).len = s.len :=
  (s.toReject_frame k).2.2.2.1
@[simp] theorem State.toReject_mt (k : RejectKind) : (s.toReject k).mt = s.mt :=
  (s.toReject_frame k).2.2.2.2.1
@[simp] theorem State.toReject_flash (k : RejectKind) : (s.toReject k).flash = s.flash :=
  (s.toReject_frame k).2.2.2.2.2.1
@[simp] theorem State.toReject_pb (k : RejectKind) : (s.toReject k).pb = s.pb :=
  (s.toReject_frame k).2.2.2.2.2.2.1
@[simp] theorem State.toReject_eeprom (k : RejectKind) : (s.toReject k).eeprom = s.eeprom :=
  (s.toReject_frame k).2.2.2.2.2.2.2.1
@[simp] theorem State.toReject_rx (k : RejectKind) : (s.toReject k).rx = s.rx :=
  (s.toReject_frame k).2.2.2.2.2.2.2.2.1
@[simp] theorem State.toReject_env (k : RejectKind) : (s.toReject k).env = s.env :=
  (s.toReject_frame k).2.2.2.2.2.2.2.2.2.1
@[simp] theorem State.toReject_trace (k : RejectKind) : (s.toReject k).trace = s.trace :=
  (s.toReject_frame k).2.2.2.2.2.2.2.2.2.2.1
@[simp] theorem State.toReject_draws (k : RejectKind) : (s.toReject k).draws = s.draws :=
  (s.toReject_frame k).2.2.2.2.2.2.2.2.2.2.2

/-- What `dispatch` leaves in each field. -/
theorem State.dispatch_frame (c : Byte) :
    (s.dispatch c).cfg = s.cfg ∧
    (s.dispatch c).ar = s.ar ∧
    (s.dispatch c).buf = s.buf ∧
    (s.dispatch c).len = s.len ∧
    (s.dispatch c).mt = s.mt ∧
    (s.dispatch c).flash = s.flash ∧
    (s.dispatch c).pb = s.pb ∧
    (s.dispatch c).eeprom = s.eeprom ∧
    (s.dispatch c).rx = s.rx ∧
    (s.dispatch c).env = s.env ∧
    (s.dispatch c).trace = s.trace ∧
    (s.dispatch c).draws = s.draws := by
  unfold State.dispatch; split <;> simp
@[simp] theorem State.dispatch_cfg (c : Byte) : (s.dispatch c).cfg = s.cfg :=
  (s.dispatch_frame c).1
@[simp] theorem State.dispatch_ar (c : Byte) : (s.dispatch c).ar = s.ar :=
  (s.dispatch_frame c).2.1
@[simp] theorem State.dispatch_buf (c : Byte) : (s.dispatch c).buf = s.buf :=
  (s.dispatch_frame c).2.2.1
@[simp] theorem State.dispatch_len (c : Byte) : (s.dispatch c).len = s.len :=
  (s.dispatch_frame c).2.2.2.1
@[simp] theorem State.dispatch_mt (c : Byte) : (s.dispatch c).mt = s.mt :=
  (s.dispatch_frame c).2.2.2.2.1
@[simp] theorem State.dispatch_flash (c : Byte) : (s.dispatch c).flash = s.flash :=
  (s.dispatch_frame c).2.2.2.2.2.1
@[simp] theorem State.dispatch_pb (c : Byte) : (s.dispatch c).pb = s.pb :=
  (s.dispatch_frame c).2.2.2.2.2.2.1
@[simp] theorem State.dispatch_eeprom (c : Byte) : (s.dispatch c).eeprom = s.eeprom :=
  (s.dispatch_frame c).2.2.2.2.2.2.2.1
@[simp] theorem State.dispatch_rx (c : Byte) : (s.dispatch c).rx = s.rx :=
  (s.dispatch_frame c).2.2.2.2.2.2.2.2.1
@[simp] theorem State.dispatch_env (c : Byte) : (s.dispatch c).env = s.env :=
  (s.dispatch_frame c).2.2.2.2.2.2.2.2.2.1
@[simp] theorem State.dispatch_trace (c : Byte) : (s.dispatch c).trace = s.trace :=
  (s.dispatch_frame c).2.2.2.2.2.2.2.2.2.2.1
@[simp] theorem State.dispatch_draws (c : Byte) : (s.dispatch c).draws = s.draws :=
  (s.dispatch_frame c).2.2.2.2.2.2.2.2.2.2.2

/-- What `lengthLatched` leaves in each field. -/
theorem State.lengthLatched_frame :
    s.lengthLatched.cfg = s.cfg ∧
    s.lengthLatched.ar = s.ar ∧
    s.lengthLatched.buf = s.buf ∧
    s.lengthLatched.len = s.len ∧
    s.lengthLatched.mt = s.mt ∧
    s.lengthLatched.flash = s.flash ∧
    s.lengthLatched.pb = s.pb ∧
    s.lengthLatched.eeprom = s.eeprom ∧
    s.lengthLatched.rx = s.rx ∧
    s.lengthLatched.env = s.env ∧
    s.lengthLatched.trace = s.trace ∧
    s.lengthLatched.draws = s.draws := by
  unfold State.lengthLatched; split <;> simp
@[simp] theorem State.lengthLatched_cfg : s.lengthLatched.cfg = s.cfg :=
  (s.lengthLatched_frame).1
@[simp] theorem State.lengthLatched_ar : s.lengthLatched.ar = s.ar :=
  (s.lengthLatched_frame).2.1
@[simp] theorem State.lengthLatched_buf : s.lengthLatched.buf = s.buf :=
  (s.lengthLatched_frame).2.2.1
@[simp] theorem State.lengthLatched_len : s.lengthLatched.len = s.len :=
  (s.lengthLatched_frame).2.2.2.1
@[simp] theorem State.lengthLatched_mt : s.lengthLatched.mt = s.mt :=
  (s.lengthLatched_frame).2.2.2.2.1
@[simp] theorem State.lengthLatched_flash : s.lengthLatched.flash = s.flash :=
  (s.lengthLatched_frame).2.2.2.2.2.1
@[simp] theorem State.lengthLatched_pb : s.lengthLatched.pb = s.pb :=
  (s.lengthLatched_frame).2.2.2.2.2.2.1
@[simp] theorem State.lengthLatched_eeprom : s.lengthLatched.eeprom = s.eeprom :=
  (s.lengthLatched_frame).2.2.2.2.2.2.2.1
@[simp] theorem State.lengthLatched_rx : s.lengthLatched.rx = s.rx :=
  (s.lengthLatched_frame).2.2.2.2.2.2.2.2.1
@[simp] theorem State.lengthLatched_env : s.lengthLatched.env = s.env :=
  (s.lengthLatched_frame).2.2.2.2.2.2.2.2.2.1
@[simp] theorem State.lengthLatched_trace : s.lengthLatched.trace = s.trace :=
  (s.lengthLatched_frame).2.2.2.2.2.2.2.2.2.2.1
@[simp] theorem State.lengthLatched_draws : s.lengthLatched.draws = s.draws :=
  (s.lengthLatched_frame).2.2.2.2.2.2.2.2.2.2.2

/-- What `loadTypeLatched` leaves in each field. -/
theorem State.loadTypeLatched_frame :
    s.loadTypeLatched.cfg = s.cfg ∧
    s.loadTypeLatched.buf = s.buf ∧
    s.loadTypeLatched.len = s.len ∧
    s.loadTypeLatched.mt = s.mt ∧
    s.loadTypeLatched.flash = s.flash ∧
    s.loadTypeLatched.pb = s.pb ∧
    s.loadTypeLatched.eeprom = s.eeprom ∧
    s.loadTypeLatched.rx = s.rx ∧
    s.loadTypeLatched.env = s.env ∧
    s.loadTypeLatched.trace = s.trace ∧
    s.loadTypeLatched.draws = s.draws := by
  unfold State.loadTypeLatched; split <;> simp
@[simp] theorem State.loadTypeLatched_cfg : s.loadTypeLatched.cfg = s.cfg :=
  (s.loadTypeLatched_frame).1
@[simp] theorem State.loadTypeLatched_buf : s.loadTypeLatched.buf = s.buf :=
  (s.loadTypeLatched_frame).2.1
@[simp] theorem State.loadTypeLatched_len : s.loadTypeLatched.len = s.len :=
  (s.loadTypeLatched_frame).2.2.1
@[simp] theorem State.loadTypeLatched_mt : s.loadTypeLatched.mt = s.mt :=
  (s.loadTypeLatched_frame).2.2.2.1
@[simp] theorem State.loadTypeLatched_flash : s.loadTypeLatched.flash = s.flash :=
  (s.loadTypeLatched_frame).2.2.2.2.1
@[simp] theorem State.loadTypeLatched_pb : s.loadTypeLatched.pb = s.pb :=
  (s.loadTypeLatched_frame).2.2.2.2.2.1
@[simp] theorem State.loadTypeLatched_eeprom : s.loadTypeLatched.eeprom = s.eeprom :=
  (s.loadTypeLatched_frame).2.2.2.2.2.2.1
@[simp] theorem State.loadTypeLatched_rx : s.loadTypeLatched.rx = s.rx :=
  (s.loadTypeLatched_frame).2.2.2.2.2.2.2.1
@[simp] theorem State.loadTypeLatched_env : s.loadTypeLatched.env = s.env :=
  (s.loadTypeLatched_frame).2.2.2.2.2.2.2.2.1
@[simp] theorem State.loadTypeLatched_trace : s.loadTypeLatched.trace = s.trace :=
  (s.loadTypeLatched_frame).2.2.2.2.2.2.2.2.2.1
@[simp] theorem State.loadTypeLatched_draws : s.loadTypeLatched.draws = s.draws :=
  (s.loadTypeLatched_frame).2.2.2.2.2.2.2.2.2.2

/-- What `readTypeLatched` leaves in each field. -/
theorem State.readTypeLatched_frame :
    s.readTypeLatched.cfg = s.cfg ∧
    s.readTypeLatched.buf = s.buf ∧
    s.readTypeLatched.len = s.len ∧
    s.readTypeLatched.mt = s.mt ∧
    s.readTypeLatched.flash = s.flash ∧
    s.readTypeLatched.pb = s.pb ∧
    s.readTypeLatched.eeprom = s.eeprom ∧
    s.readTypeLatched.rx = s.rx ∧
    s.readTypeLatched.env = s.env ∧
    s.readTypeLatched.trace = s.trace ∧
    s.readTypeLatched.draws = s.draws := by
  unfold State.readTypeLatched; split <;> simp
@[simp] theorem State.readTypeLatched_cfg : s.readTypeLatched.cfg = s.cfg :=
  (s.readTypeLatched_frame).1
@[simp] theorem State.readTypeLatched_buf : s.readTypeLatched.buf = s.buf :=
  (s.readTypeLatched_frame).2.1
@[simp] theorem State.readTypeLatched_len : s.readTypeLatched.len = s.len :=
  (s.readTypeLatched_frame).2.2.1
@[simp] theorem State.readTypeLatched_mt : s.readTypeLatched.mt = s.mt :=
  (s.readTypeLatched_frame).2.2.2.1
@[simp] theorem State.readTypeLatched_flash : s.readTypeLatched.flash = s.flash :=
  (s.readTypeLatched_frame).2.2.2.2.1
@[simp] theorem State.readTypeLatched_pb : s.readTypeLatched.pb = s.pb :=
  (s.readTypeLatched_frame).2.2.2.2.2.1
@[simp] theorem State.readTypeLatched_eeprom : s.readTypeLatched.eeprom = s.eeprom :=
  (s.readTypeLatched_frame).2.2.2.2.2.2.1
@[simp] theorem State.readTypeLatched_rx : s.readTypeLatched.rx = s.rx :=
  (s.readTypeLatched_frame).2.2.2.2.2.2.2.1
@[simp] theorem State.readTypeLatched_env : s.readTypeLatched.env = s.env :=
  (s.readTypeLatched_frame).2.2.2.2.2.2.2.2.1
@[simp] theorem State.readTypeLatched_trace : s.readTypeLatched.trace = s.trace :=
  (s.readTypeLatched_frame).2.2.2.2.2.2.2.2.2.1
@[simp] theorem State.readTypeLatched_draws : s.readTypeLatched.draws = s.draws :=
  (s.readTypeLatched_frame).2.2.2.2.2.2.2.2.2.2

/-- What a completed `Recv` can do: it records the byte, and changes neither the stream it came from, the
configuration, the environment's moves nor the memories. -/
theorem State.accept_frame (b : Byte) :
    (s.accept b).cfg = s.cfg ∧ (s.accept b).env = s.env ∧ (s.accept b).rx = s.rx ∧
    (s.accept b).flash = s.flash ∧ (s.accept b).eeprom = s.eeprom ∧ (s.accept b).pb = s.pb ∧
    (s.accept b).draws = s.draws ∧
    (s.accept b).trace = s.trace ++ (if s.phase.waits = true then [.recv b] else []) := by
  unfold State.accept
  cases hp : s.phase <;> simp [Phase.waits]

/-- What a `Recv` can do, pending or completed: the bytes it records are those it takes from the stream. -/
theorem State.receive_frame :
    s.receive.cfg = s.cfg ∧ s.receive.env = s.env ∧ s.receive.flash = s.flash ∧
    s.receive.eeprom = s.eeprom ∧ s.receive.pb = s.pb ∧ s.receive.draws = s.draws ∧
    (s.phase.waits = true → ∃ new, s.receive.trace = s.trace ++ new ∧ new.length ≤ 1 ∧
      sentBytes new = [] ∧ nvmTxns new = [] ∧ s.rx = receivedBytes new ++ s.receive.rx) := by
  unfold State.receive
  cases hr : s.rx with
  | nil => exact ⟨rfl, rfl, rfl, rfl, rfl, rfl, fun _ => ⟨[], by simp [hr]⟩⟩
  | cons b rest =>
    obtain ⟨h1, h2, h3, h4, h5, h6, h7, h8⟩ := State.accept_frame ({ s with rx := rest } : State) b
    refine ⟨h1, h2, h4, h5, h6, h7, fun hw => ⟨[.recv b], ?_, by simp, rfl, rfl, ?_⟩⟩
    · rw [h8]; simp [hw]
    · rw [h3]; rfl

/-- What a step of one transaction can do: at most one is recorded, the bytes recorded as received are those
taken from the stream, and neither the configuration nor the environment's moves change. -/
theorem State.transact_frame :
    s.transact.cfg = s.cfg ∧ s.transact.env = s.env ∧
    ∃ new, s.transact.trace = s.trace ++ new ∧ new.length ≤ 1 ∧
      s.rx = receivedBytes new ++ s.transact.rx := by
  have hr := s.receive_frame
  unfold State.transact
  cases hp : s.phase <;> simp only [hp, Phase.waits] at hr ⊢
  case sending b bs => exact ⟨by simp, by simp, [.send b], by simp⟩
  case erasing a => exact ⟨by simp, by simp, [.pageErase a], by simp⟩
  case handingOff => exact ⟨rfl, rfl, [.handoff], by simp⟩
  case loadWait => exact ⟨by simp, by simp, [.nvmWait], by simp⟩
  case loadFill i => exact ⟨by simp, by simp, [.pageFill (advanceAddress s.ar (2 * i)) (s.bufCell i)], by simp⟩
  case loadWrite => exact ⟨by simp, by simp, [.pageWrite s.ar], by simp⟩
  case loadByteWrite i b => exact ⟨by simp, by simp, [.writeEeprom s.ar b], by simp⟩
  case readWord n => exact ⟨by simp, by simp, [.readFlash s.ar (s.flashWord s.ar)], by simp⟩
  case readWordHi w n => exact ⟨by simp, by simp, [.send (highByte w)], by simp⟩
  case readWordLo w n => exact ⟨by simp, by simp, [.send (lowByte w)], by simp⟩
  case readByte n => exact ⟨by simp, by simp, [.readEeprom s.ar (s.eepromByte s.ar)], by simp⟩
  case readByteOut b n => exact ⟨by simp, by simp, [.send b], by simp⟩
  case handedOff => exact ⟨trivial, trivial, [], by simp⟩
  all_goals
    obtain ⟨h1, h2, -, -, -, -, h3⟩ := hr
    obtain ⟨new, h4, h5, -, -, h6⟩ := h3 trivial
    exact ⟨h1, h2, new, h4, h5, h6⟩

/-! ### Reset -/

/-- What abandoning the pending transaction can do: it changes the memory that one was changing. -/
theorem State.abandon_frame :
    s.abandon.cfg = s.cfg ∧ s.abandon.ar = s.ar ∧ s.abandon.buf = s.buf ∧ s.abandon.len = s.len ∧
    s.abandon.mt = s.mt ∧ s.abandon.phase = s.phase ∧ s.abandon.pb = s.pb ∧ s.abandon.rx = s.rx ∧
    s.abandon.env = s.env ∧ s.abandon.trace = s.trace := by
  unfold State.abandon State.tearPage State.tearByte
  cases hp : s.phase <;> dsimp only <;> (try split) <;> simp_all

/-- Surviving a reset keeps the order of the bytes. -/
theorem survivors_sublist (f : Nat → Bool) (bs : List Byte) : (survivors f bs).Sublist bs := by
  have h := (List.filter_sublist (p := fun p : Byte × Nat => f p.2) (l := bs.zipIdx)).map Prod.fst
  simpa [survivors] using h

end Sys2Proof.Machine
end

