-- ==== Sys2Proof/Laws/Memory.lean ====
section
/-! SUPPORT. The laws of the memories: what a read gives after each operation, and that every operation
keeps the canonical form and the bound. -/

namespace Sys2Proof.Machine

variable {w : Nat}

/-! ### What a read gives -/

theorem Memory.read_insert (m : Memory w) (a b : Nat) (v : BitVec w) :
    (Memory.insert a v m).read b = if b = a then v else m.read b := by
  induction m with
  | nil =>
    by_cases h : b = a
    · simp [Memory.insert, Memory.read, h]
    · have h1 : ¬ a = b := fun e => h e.symm
      simp [Memory.insert, Memory.read, h, h1]
  | cons x m ih =>
    unfold Memory.insert
    split
    · rename_i hlt
      by_cases hx : x.1 = b
      · have : b ≠ a := by omega
        simp [Memory.read, hx, this]
      · simp [Memory.read, hx, ih]
    · split
      · rename_i he
        by_cases h : b = a
        · simp [Memory.read, h]
        · have h1 : ¬ a = b := fun e => h e.symm
          have h2 : ¬ x.1 = b := by omega
          simp [Memory.read, h, h1, h2]
      · by_cases h : b = a
        · simp [Memory.read, h]
        · have h1 : ¬ a = b := fun e => h e.symm
          simp [Memory.read, h, h1]

theorem Memory.read_filter (m : Memory w) (p : Nat → Bool) (b : Nat) :
    Memory.read (m.filter (fun c => p c.1)) b = if p b then m.read b else blank w := by
  induction m with
  | nil => simp [Memory.read]
  | cons x m ih =>
    by_cases hp : p x.1 <;> by_cases hx : x.1 = b
    · subst hx; simp [Memory.read, hp]
    · simp [Memory.read, hp, hx, ih]
    · subst hx; simp [hp, ih]
    · simp [Memory.read, hp, hx, ih]

/-- A read after a write: the value written at its place, every other place as before. -/
theorem Memory.read_write (m : Memory w) (a b : Nat) (v : BitVec w) :
    (m.write a v).read b = if b = a then v else m.read b := by
  unfold Memory.write
  split
  · rename_i hv
    have := Memory.read_filter m (fun k => k != a) b
    by_cases h : b = a <;> simp_all
  · exact Memory.read_insert m a b v

@[simp] theorem Memory.read_write_same (m : Memory w) (a : Nat) (v : BitVec w) :
    (m.write a v).read a = v := by simp [Memory.read_write]

theorem Memory.read_write_other (m : Memory w) (a b : Nat) (v : BitVec w) (h : b ≠ a) :
    (m.write a v).read b = m.read b := by simp [Memory.read_write, h]

/-- A read after a run of writes. -/
theorem Memory.read_writeRun (m : Memory w) (base : Nat) (vs : List (BitVec w)) (b : Nat) :
    (m.writeRun base vs).read b =
      if base ≤ b ∧ b < base + vs.length then vs.getD (b - base) (blank w) else m.read b := by
  induction vs generalizing m base with
  | nil =>
    have : ¬ (base ≤ b ∧ b < base) := by omega
    simp [Memory.writeRun, this]
  | cons v vs ih =>
    rw [Memory.writeRun, ih, Memory.read_write]
    simp only [List.length_cons]
    by_cases h0 : b = base
    · subst h0; simp
    · by_cases h1 : base + 1 ≤ b ∧ b < base + 1 + vs.length
      · have h2 : base ≤ b ∧ b < base + (vs.length + 1) := by omega
        have h3 : b - base = (b - (base + 1)) + 1 := by omega
        rw [if_pos h1, if_pos h2, h3]; simp
      · have h2 : ¬ (base ≤ b ∧ b < base + (vs.length + 1)) := by omega
        rw [if_neg h1, if_neg h2, if_neg h0]

/-- A read after an erase: blank inside, unchanged outside. -/
theorem Memory.read_eraseRun (m : Memory w) (base n b : Nat) :
    (m.eraseRun base n).read b = if base ≤ b ∧ b < base + n then blank w else m.read b := by
  unfold Memory.eraseRun
  rw [Memory.read_filter m (fun k => decide (k < base) || decide (base + n ≤ k)) b]
  by_cases h : base ≤ b ∧ b < base + n
  · have : ¬ (b < base ∨ base + n ≤ b) := by omega
    simp [h, this]
  · have : b < base ∨ base + n ≤ b := by omega
    simp [h, this]

theorem Memory.read_absent (m : Memory w) (b : Nat) (h : ∀ c ∈ m, c.1 ≠ b) : m.read b = blank w := by
  induction m with
  | nil => rfl
  | cons x m ih =>
    have h1 : x.1 ≠ b := h x (by simp)
    simp [Memory.read, h1, ih (fun c hc => h c (by simp [hc]))]

theorem Memory.read_dropBlank (m : Memory w) (b : Nat)
    (h : m.Pairwise (fun x y => x.1 < y.1)) :
    Memory.read (m.filter (fun c => c.2 != blank w)) b = m.read b := by
  induction m with
  | nil => rfl
  | cons x m ih =>
    rw [List.pairwise_cons] at h
    by_cases hv : x.2 = blank w
    · by_cases hx : x.1 = b
      · have : ∀ c ∈ m, c.1 ≠ b := fun c hc => by have := h.1 c hc; omega
        simp [hv, hx, Memory.read, ih h.2, Memory.read_absent m b this]
      · simp [hv, hx, Memory.read, ih h.2]
    · by_cases hx : x.1 = b <;> simp [hv, hx, Memory.read, ih h.2]

theorem Memory.pairwise_range (n : Nat) (f : Nat → BitVec w) :
    ((List.range n).map (fun k => (k, f k))).Pairwise (fun x y => x.1 < y.1) := by
  rw [List.pairwise_map]
  exact List.pairwise_lt_range

theorem Memory.read_table (n : Nat) (f : Nat → BitVec w) (b : Nat) :
    Memory.read ((List.range n).map (fun k => (k, f k))) b = if b < n then f b else blank w := by
  induction n with
  | zero => simp [Memory.read]
  | succ n ih =>
    have app : ∀ (m m' : Memory w), (∀ c ∈ m, c.1 ≠ b) → Memory.read (m ++ m') b = m'.read b := by
      intro m m' h
      induction m with
      | nil => rfl
      | cons x m ihm =>
        have h1 : x.1 ≠ b := h x (by simp)
        simp [Memory.read, h1, ihm (fun c hc => h c (by simp [hc]))]
    have app' : ∀ (m m' : Memory w), (∃ c ∈ m, c.1 = b) → Memory.read (m ++ m') b = m.read b := by
      intro m m' h
      induction m with
      | nil => simp at h
      | cons x m ihm =>
        by_cases h1 : x.1 = b
        · simp [Memory.read, h1]
        · simp only [List.cons_append, Memory.read, h1, if_false]
          apply ihm
          obtain ⟨c, hc, he⟩ := h
          rcases List.mem_cons.mp hc with rfl | hc
          · exact absurd he h1
          · exact ⟨c, hc, he⟩
    rw [List.range_succ, List.map_append]
    by_cases h : b < n
    · rw [app' _ _ ⟨(b, f b), by simp [h], rfl⟩, ih, if_pos h, if_pos (by omega)]
    · rw [app]
      · by_cases he : n = b
        · subst he; simp [Memory.read]
        · have : ¬ b < n + 1 := by omega
          simp [Memory.read, he, this]
      · intro c hc
        simp at hc
        obtain ⟨k, hk, rfl⟩ := hc
        simp; omega

/-- A read of a drawn memory gives the drawn content. -/
theorem Memory.read_drawn (n : Nat) (f : Nat → BitVec w) (b : Nat) :
    (Memory.drawn n f).read b = if b < n then f b else blank w := by
  unfold Memory.drawn
  rw [Memory.read_dropBlank _ _ (Memory.pairwise_range n f), Memory.read_table]

/-! ### The canonical form -/

theorem Memory.rising_iff (m : Memory w) :
    m.rising = true ↔ m.Pairwise (fun x y => x.1 < y.1) := by
  induction m with
  | nil => simp [Memory.rising]
  | cons x m ih =>
    cases m with
    | nil => simp [Memory.rising]
    | cons y m =>
      simp only [Memory.rising, Bool.and_eq_true, decide_eq_true_eq, ih, List.pairwise_cons]
      constructor
      · rintro ⟨hxy, hy, hm⟩
        refine ⟨?_, hy, hm⟩
        intro c hc
        rcases List.mem_cons.mp hc with rfl | hc
        · exact hxy
        · exact hxy.trans (hy c hc)
      · rintro ⟨hx, hy, hm⟩
        exact ⟨hx y (by simp), hy, hm⟩

theorem Memory.wf_iff (m : Memory w) :
    m.wf = true ↔ m.Pairwise (fun x y => x.1 < y.1) ∧ ∀ c ∈ m, c.2 ≠ blank w := by
  simp [Memory.wf, Memory.rising_iff]

theorem Memory.within_iff (n : Nat) (m : Memory w) :
    m.within n = true ↔ ∀ c ∈ m, c.1 < n := by
  simp [Memory.within]

theorem Memory.filter_wf (m : Memory w) (p : Nat × BitVec w → Bool) (h : m.wf = true) :
    Memory.wf (m.filter p) = true := by
  rw [Memory.wf_iff] at h ⊢
  exact ⟨h.1.filter _, fun c hc => h.2 c (List.mem_filter.mp hc).1⟩

theorem Memory.filter_within (n : Nat) (m : Memory w) (p : Nat × BitVec w → Bool)
    (h : m.within n = true) : Memory.within n (m.filter p) = true := by
  rw [Memory.within_iff] at h ⊢
  exact fun c hc => h c (List.mem_filter.mp hc).1

theorem Memory.mem_insert (m : Memory w) (a : Nat) (v : BitVec w) (c : Nat × BitVec w)
    (h : c ∈ Memory.insert a v m) : c = (a, v) ∨ c ∈ m := by
  induction m with
  | nil => simpa [Memory.insert] using h
  | cons x m ih =>
    unfold Memory.insert at h
    split at h
    · rcases List.mem_cons.mp h with rfl | h
      · simp
      · rcases ih h with h | h <;> simp [h]
    · split at h
      · rcases List.mem_cons.mp h with h | h <;> simp [h]
      · rcases List.mem_cons.mp h with h | h
        · simp [h]
        · exact Or.inr h

theorem Memory.insert_wf (m : Memory w) (a : Nat) (v : BitVec w) (hv : v ≠ blank w)
    (h : m.wf = true) : Memory.wf (Memory.insert a v m) = true := by
  rw [Memory.wf_iff] at h ⊢
  refine ⟨?_, fun c hc => ?_⟩
  · have hp := h.1
    clear h
    induction m with
    | nil => simp [Memory.insert]
    | cons x m ih =>
      rw [List.pairwise_cons] at hp
      unfold Memory.insert
      split
      · rename_i hlt
        rw [List.pairwise_cons]
        refine ⟨fun c hc => ?_, ih hp.2⟩
        rcases Memory.mem_insert _ _ _ _ hc with rfl | hc
        · exact hlt
        · exact hp.1 c hc
      · split
        · rename_i he
          rw [List.pairwise_cons]
          exact ⟨fun c hc => he ▸ hp.1 c hc, hp.2⟩
        · rename_i hge hne
          have hax : a < x.1 := by omega
          rw [List.pairwise_cons, List.pairwise_cons]
          refine ⟨fun c hc => ?_, hp⟩
          rcases List.mem_cons.mp hc with rfl | hc
          · exact hax
          · exact hax.trans (hp.1 c hc)
  · rcases Memory.mem_insert _ _ _ _ hc with rfl | hc
    · exact hv
    · exact h.2 c hc

/-- A write keeps the canonical form. -/
theorem Memory.write_wf (m : Memory w) (a : Nat) (v : BitVec w) (h : m.wf = true) :
    (m.write a v).wf = true := by
  unfold Memory.write
  split
  · exact Memory.filter_wf _ _ h
  · rename_i hv
    exact Memory.insert_wf _ _ _ hv h

/-- A write inside the memory keeps it inside. -/
theorem Memory.write_within (n : Nat) (m : Memory w) (a : Nat) (v : BitVec w) (ha : a < n)
    (h : m.within n = true) : (m.write a v).within n = true := by
  unfold Memory.write
  split
  · exact Memory.filter_within _ _ _ h
  · rw [Memory.within_iff] at h ⊢
    intro c hc
    rcases Memory.mem_insert _ _ _ _ hc with rfl | hc
    · exact ha
    · exact h c hc

/-- A run of writes keeps the canonical form. -/
theorem Memory.writeRun_wf (m : Memory w) (base : Nat) (vs : List (BitVec w)) (h : m.wf = true) :
    (m.writeRun base vs).wf = true := by
  induction vs generalizing m base with
  | nil => exact h
  | cons v vs ih => exact ih _ _ (Memory.write_wf _ _ _ h)

theorem Memory.writeRun_within (n : Nat) (m : Memory w) (base : Nat) (vs : List (BitVec w))
    (hn : base + vs.length ≤ n) (h : m.within n = true) : (m.writeRun base vs).within n = true := by
  induction vs generalizing m base with
  | nil => exact h
  | cons v vs ih =>
    simp only [List.length_cons] at hn
    exact ih _ _ (by omega) (Memory.write_within n m base v (by omega) h)

/-- An erase keeps the canonical form. -/
theorem Memory.eraseRun_wf (m : Memory w) (base n : Nat) (h : m.wf = true) :
    (m.eraseRun base n).wf = true := Memory.filter_wf _ _ h

theorem Memory.eraseRun_within (k : Nat) (m : Memory w) (base n : Nat) (h : m.within k = true) :
    (m.eraseRun base n).within k = true := Memory.filter_within _ _ _ h

/-- A drawn memory is in canonical form. -/
theorem Memory.drawn_wf (n : Nat) (f : Nat → BitVec w) : (Memory.drawn n f).wf = true := by
  rw [Memory.wf_iff]
  exact ⟨(Memory.pairwise_range n f).filter _, fun c hc => by simpa using (List.mem_filter.mp hc).2⟩

theorem Memory.drawn_within (n : Nat) (f : Nat → BitVec w) : (Memory.drawn n f).within n = true := by
  rw [Memory.within_iff]
  intro c hc
  have := (List.mem_filter.mp hc).1
  simp at this
  obtain ⟨k, hk, rfl⟩ := this
  exact hk

theorem Memory.read_head_lt (m : Memory w) (b : Nat) (h : ∀ c ∈ m, b < c.1) : m.read b = blank w :=
  Memory.read_absent m b (fun c hc => by have := h c hc; omega)

/-- Two memories in canonical form that read alike are equal data. -/
theorem Memory.ext (m m' : Memory w) (h : m.wf = true) (h' : m'.wf = true)
    (hr : ∀ a, m.read a = m'.read a) : m = m' := by
  rw [Memory.wf_iff] at h h'
  induction m generalizing m' with
  | nil =>
    cases m' with
    | nil => rfl
    | cons y m' =>
      have := hr y.1
      simp [Memory.read] at this
      exact absurd this.symm (h'.2 y (by simp))
  | cons x m ih =>
    cases m' with
    | nil =>
      have := hr x.1
      simp [Memory.read] at this
      exact absurd this (h.2 x (by simp))
    | cons y m' =>
      have hp := List.pairwise_cons.mp h.1
      have hp' := List.pairwise_cons.mp h'.1
      have hxb := h.2 x (by simp)
      have hyb := h'.2 y (by simp)
      have hxy : x.1 = y.1 := by
        rcases Nat.lt_trichotomy x.1 y.1 with hlt | he | hgt
        · have h1 := hr x.1
          rw [Memory.read_head_lt (y :: m') x.1 (by
            intro c hc
            rcases List.mem_cons.mp hc with rfl | hc
            · exact hlt
            · exact hlt.trans (hp'.1 c hc))] at h1
          simp [Memory.read] at h1
          exact absurd h1 hxb
        · exact he
        · have h1 := hr y.1
          rw [Memory.read_head_lt (x :: m) y.1 (by
            intro c hc
            rcases List.mem_cons.mp hc with rfl | hc
            · exact hgt
            · exact hgt.trans (hp.1 c hc))] at h1
          simp [Memory.read] at h1
          exact absurd h1.symm hyb
      have hv : x.2 = y.2 := by
        have h1 := hr x.1
        simpa [Memory.read, hxy] using h1
      have hm : m = m' := by
        refine ih m' ⟨hp.2, fun c hc => h.2 c (by simp [hc])⟩
          ⟨hp'.2, fun c hc => h'.2 c (by simp [hc])⟩ (fun a => ?_)
        by_cases ha : x.1 = a
        · rw [Memory.read_head_lt m a (fun c hc => ha ▸ hp.1 c hc),
            Memory.read_head_lt m' a (fun c hc => by have := hp'.1 c hc; omega)]
        · have h1 := hr a
          have ha' : ¬ y.1 = a := by omega
          simpa [Memory.read, ha, ha'] using h1
      rw [hm, Prod.ext hxy hv]

/-- Both memories have the canonical form right after reset, whatever the configuration. -/
theorem State.launch_memories_wf (c : Config) :
    (State.launch c).flash.wf = true ∧ (State.launch c).eeprom.wf = true := ⟨rfl, rfl⟩

end Sys2Proof.Machine
end

