-- ==== Sys2Proof/Laws/Loops.lean ====
section
/-! SUPPORT. Closed forms of the loops: the transactions each makes and the values each leaves. Callers cite
these and do no induction of their own. -/

namespace Sys2Proof.Machine

/-! ### Addresses -/

theorem shiftAddress_eq (ar : Word) : shiftAddress ar = addr (2 * ar.toNat) := by
  apply BitVec.eq_of_toNat_eq
  simp [shiftAddress, addr, BitVec.toNat_shiftLeft, Nat.shiftLeft_eq, Nat.mul_comm]

theorem advanceAddress_eq (ar : Word) (n : Nat) : advanceAddress ar n = addr (ar.toNat + n) := by
  apply BitVec.eq_of_toNat_eq
  simp [advanceAddress, addr]

@[simp] theorem addr_toNat (n : Nat) : (addr n).toNat = n % 65536 := by simp [addr]

theorem addr_eq_self (w : Word) : addr w.toNat = w := by simp [addr]

theorem addr_mod (n : Nat) : addr (n % 65536) = addr n := by
  apply BitVec.eq_of_toNat_eq; simp

theorem addr_add_mod (m n : Nat) : addr (m % 65536 + n) = addr (m + n) := by
  apply BitVec.eq_of_toNat_eq; simp [Nat.add_mod]

theorem addr_double_mod (m : Nat) : addr (2 * (m % 65536)) = addr (2 * m) := by
  apply BitVec.eq_of_toNat_eq; simp [Nat.mul_mod]

theorem advanceAddress_advance (ar : Word) (m n : Nat) :
    advanceAddress (advanceAddress ar m) n = advanceAddress ar (m + n) := by
  simp only [advanceAddress_eq, addr_toNat, addr_add_mod]
  congr 1; omega

theorem advanceAddress_zero (ar : Word) : advanceAddress ar 0 = ar := by
  simp [advanceAddress]

/-! ### Words and bytes -/

theorem joinBytes_high_low (w : Word) : joinBytes (highByte w) (lowByte w) = w := by
  unfold joinBytes highByte lowByte
  ext i hi
  rw [BitVec.getElem_append]
  by_cases h : i < 8
  · simp [h]
    exact BitVec.getLsbD_eq_getElem (by omega)
  · simp [h]
    rw [BitVec.getLsbD_eq_getElem (by omega)]
    congr 1; omega

theorem highByte_joinBytes (h l : Byte) : highByte (joinBytes h l) = h := by
  unfold joinBytes highByte
  ext i hi
  rw [BitVec.getElem_extractLsb', BitVec.getLsbD_append, if_neg (by omega)]
  simp [BitVec.getLsbD_eq_getElem hi]

theorem lowByte_joinBytes (h l : Byte) : lowByte (joinBytes h l) = l := by
  unfold joinBytes lowByte
  ext i hi
  rw [BitVec.getElem_extractLsb', Nat.zero_add, BitVec.getLsbD_append]
  simp [hi]

theorem joinBytes_toNat (h l : Byte) : (joinBytes h l).toNat = h.toNat * 256 + l.toNat := by
  unfold joinBytes
  rw [BitVec.toNat_append, Nat.shiftLeft_eq, ← Nat.shiftLeft_eq, ← Nat.shiftLeft_add_eq_or_of_lt l.isLt,
    Nat.shiftLeft_eq]

@[simp] theorem wordsOf_length (bs : List Byte) : (wordsOf bs).length = bs.length / 2 := by
  induction bs using List.twoStepInduction with
  | nil => rfl
  | singleton => simp [wordsOf]
  | cons_cons h l bs ih _ =>
    simp only [wordsOf, List.length_cons, ih]
    omega

/-! ### The flash arm of block-load -/

/-- The words loop writes consecutive cells. -/
theorem State.loadWords_buf (s : State) (i : Nat) (bs : List Byte)
    (h : i + bs.length / 2 ≤ s.buf.length) :
    (s.loadWords i bs).buf = s.buf.take i ++ wordsOf bs ++ s.buf.drop (i + bs.length / 2) := by
  induction bs using List.twoStepInduction generalizing s i with
  | nil => simp [State.loadWords, wordsOf]
  | singleton => simp [State.loadWords, wordsOf]
  | cons_cons x l bs ih _ =>
    have hl : (x :: l :: bs).length / 2 = bs.length / 2 + 1 := by
      simp only [List.length_cons]; omega
    rw [hl] at h ⊢
    rw [State.loadWords, ih _ _ (by simp; omega)]
    have hi : i < s.buf.length := by omega
    simp only [State.setBuf_buf, State.recv_buf, wordsOf, joinBytes]
    rw [List.take_set, List.drop_set_of_lt (by omega), List.take_add_one]
    have e1 : i + 1 + bs.length / 2 = i + (bs.length / 2 + 1) := by omega
    rw [e1]
    have e2 : (s.buf.take i ++ [s.buf[i]]).set i (x ++ l) = s.buf.take i ++ [x ++ l] := by
      rw [List.set_append_right _ _ (by simp)]
      simp [Nat.min_eq_left (Nat.le_of_lt hi)]
    simp only [List.getElem?_eq_getElem hi, Option.toList_some, e2, List.append_assoc,
      List.cons_append, List.nil_append]

@[simp] theorem State.loadWords_buf_length (s : State) (i : Nat) (bs : List Byte) :
    (s.loadWords i bs).buf.length = s.buf.length := by
  induction bs using List.twoStepInduction generalizing s i with
  | nil => rfl
  | singleton => rfl
  | cons_cons h l bs ih _ => simp [State.loadWords, ih]

/-- The words loop receives the payload and makes no other transaction. -/
theorem State.loadWords_trace (s : State) (i : Nat) (bs : List Byte) (h : bs.length % 2 = 0) :
    (s.loadWords i bs).trace = s.trace ++ bs.map .recv := by
  induction bs using List.twoStepInduction generalizing s i with
  | nil => simp [State.loadWords]
  | singleton => simp at h
  | cons_cons x l bs ih _ =>
    rw [State.loadWords, ih _ _ (by simp at h; omega)]
    simp

/-- The fill loop stages consecutive cells at consecutive even addresses. -/
theorem State.fillLoop_trace (s : State) (i n : Nat) :
    (s.fillLoop i n).trace = s.trace ++
      (List.range n).map (fun k => .pageFill (advanceAddress s.ar (2 * (i + k))) (s.bufCell (i + k))) := by
  induction n generalizing s i with
  | zero => simp [State.fillLoop]
  | succ n ih =>
    rw [State.fillLoop, ih, List.range_succ_eq_map]
    simp [State.bufCell, Function.comp_def, Nat.add_assoc, Nat.add_comm 1]

@[simp] theorem State.fillLoop_pb_length (s : State) (i n : Nat) :
    (s.fillLoop i n).pb.length = s.pb.length := by
  induction n generalizing s i with
  | zero => rfl
  | succ n ih => simp [State.fillLoop, ih]

/-- A page-buffer index that none of the `n` fills hits keeps its word. -/
theorem State.fillLoop_pb_other (s : State) (i n j : Nat)
    (h : ∀ k < n, wordIndex (advanceAddress s.ar (2 * (i + k))) % s.cfg.pageWords ≠ j) :
    (s.fillLoop i n).pb[j]? = s.pb[j]? := by
  induction n generalizing s i with
  | zero => rfl
  | succ n ih =>
    rw [State.fillLoop, ih]
    · have := h 0 (by omega)
      simp only [Nat.add_zero] at this
      simp [this]
    · intro k hk
      have := h (k + 1) (by omega)
      have e : i + 1 + k = i + (k + 1) := by omega
      simpa [e] using this

/-- When the fills hit pairwise distinct indexes, each holds its word at the end. -/
theorem State.fillLoop_pb_hit (s : State) (i n k : Nat) (hk : k < n)
    (hb : wordIndex (advanceAddress s.ar (2 * (i + k))) % s.cfg.pageWords < s.pb.length)
    (h : ∀ k' < n, k' ≠ k → wordIndex (advanceAddress s.ar (2 * (i + k'))) % s.cfg.pageWords ≠
      wordIndex (advanceAddress s.ar (2 * (i + k))) % s.cfg.pageWords) :
    (s.fillLoop i n).pb[wordIndex (advanceAddress s.ar (2 * (i + k))) % s.cfg.pageWords]? =
      some (s.bufCell (i + k)) := by
  induction n generalizing s i k with
  | zero => omega
  | succ n ih =>
    rw [State.fillLoop]
    cases k with
    | zero =>
      rw [State.fillLoop_pb_other]
      · simp only [Nat.add_zero] at hb ⊢
        simp [List.getElem?_set_self hb]
      · intro k' hk'
        have := h (k' + 1) (by omega) (by omega)
        have e : i + 1 + k' = i + (k' + 1) := by omega
        simpa [e] using this
    | succ k =>
      have e : ∀ j, i + 1 + j = i + (j + 1) := by intro j; omega
      have := ih (s.pageFill (advanceAddress s.ar (2 * i)) (s.bufCell i)) (i + 1) k (by omega)
        (by simpa [e] using hb)
        (by
          intro k' hk' hne
          have := h (k' + 1) (by omega) (by omega)
          simpa [e] using this)
      simpa [e, State.bufCell] using this

/-- All transactions of the end of a flash block-load (spec/43_block_load.md R168). -/
theorem State.commitBuffer_trace (s : State) :
    s.commitBuffer.trace = s.trace ++ (.nvmWait ::
      (List.range s.cfg.pageWords).map
        (fun i => .pageFill (addr (2 * s.ar.toNat + 2 * i)) (s.buf.getD i 0)) ++
      [.pageWrite (addr (2 * s.ar.toNat)), .send s.cfg.cr]) := by
  have e : ∀ i, advanceAddress (addr (2 * s.ar.toNat)) (2 * i) = addr (2 * s.ar.toNat + 2 * i) := by
    intro i
    rw [advanceAddress_eq, addr_toNat, addr_add_mod]
  simp [State.commitBuffer, State.fillLoop_trace, replyCr, State.bufCell, e, shiftAddress_eq]

/-! ### chip-erase -/

/-- The erase loop erases pages at ascending addresses. -/
theorem State.eraseLoop_trace (s : State) (a n : Nat) :
    (s.eraseLoop a n).trace = s.trace ++
      (List.range n).map (fun k => .pageErase (addr (a + k * s.cfg.pageBytes))) := by
  induction n generalizing s a with
  | zero => simp [State.eraseLoop]
  | succ n ih =>
    rw [State.eraseLoop, ih, List.range_succ_eq_map]
    simp only [State.pageErase_trace, State.pageErase_cfg, List.map_cons, List.map_map,
      Function.comp_def, addr, List.append_assoc, List.singleton_append, Nat.zero_mul, Nat.add_zero]
    congr 3
    funext k
    have e : a + s.cfg.pageBytes + k * s.cfg.pageBytes = a + (k + 1) * s.cfg.pageBytes := by
      rw [Nat.add_mul]; omega
    rw [e]

/-- One after another, `n` erases from page `p` on, all in the application region, blank exactly their
words and draw nothing. -/
theorem State.eraseLoop_flash (s : State) (p n k : Nat) (hp : 0 < s.cfg.pageWords)
    (hb : s.cfg.bootStartBytes ≤ 65536) (h : (p + n) * s.cfg.pageBytes ≤ s.cfg.bootStartBytes) :
    (s.eraseLoop (p * s.cfg.pageBytes) n).draws = s.draws ∧
    (s.eraseLoop (p * s.cfg.pageBytes) n).flash.read k =
      if p * s.cfg.pageWords ≤ k ∧ k < (p + n) * s.cfg.pageWords then blank 16 else s.flash.read k := by
  induction n generalizing s p with
  | zero =>
    have : ¬ (p * s.cfg.pageWords ≤ k ∧ k < p * s.cfg.pageWords) := by omega
    simp [State.eraseLoop, this]
  | succ n ih =>
    have hpb : 0 < s.cfg.pageBytes := by simp [Config.pageBytes]; omega
    have hlt : p * s.cfg.pageBytes < s.cfg.bootStartBytes := by
      have : (p + (n + 1)) * s.cfg.pageBytes = p * s.cfg.pageBytes + (n + 1) * s.cfg.pageBytes :=
        Nat.add_mul _ _ _
      have h2 : (n + 1) * s.cfg.pageBytes = n * s.cfg.pageBytes + s.cfg.pageBytes := Nat.succ_mul _ _
      omega
    have ha : (BitVec.ofNat 16 (p * s.cfg.pageBytes)).toNat = p * s.cfg.pageBytes := by
      simp; omega
    have hin : (BitVec.ofNat 16 (p * s.cfg.pageBytes)).toNat < s.cfg.bootStartBytes := by omega
    have hbase : pageBase s.cfg (BitVec.ofNat 16 (p * s.cfg.pageBytes)) = p * s.cfg.pageWords := by
      rw [pageBase, ha, Nat.mul_div_cancel _ hpb]
    have e : p * s.cfg.pageBytes + s.cfg.pageBytes = (p + 1) * s.cfg.pageBytes := by
      rw [Nat.succ_mul]
    have e2 : p + 1 + n = p + (n + 1) := by omega
    have := ih (s.pageErase (BitVec.ofNat 16 (p * s.cfg.pageBytes))) (p + 1) (by simpa using hp)
      (by simpa using hb) (by simpa [e2] using h)
    rw [State.eraseLoop, e]
    simp only [State.pageErase_cfg] at this
    refine ⟨this.1.trans (State.pageErase_draws_app _ _ hin), ?_⟩
    rw [this.2, State.pageErase_flash_app _ _ hin, Memory.read_eraseRun, hbase, e2]
    have m1 : (p + 1) * s.cfg.pageWords = p * s.cfg.pageWords + s.cfg.pageWords := Nat.succ_mul _ _
    have m2 : (p + (n + 1)) * s.cfg.pageWords =
        p * s.cfg.pageWords + s.cfg.pageWords + n * s.cfg.pageWords := by
      rw [Nat.add_mul, Nat.succ_mul]; omega
    rw [m1, m2]
    by_cases h1 : p * s.cfg.pageWords + s.cfg.pageWords ≤ k ∧
        k < p * s.cfg.pageWords + s.cfg.pageWords + n * s.cfg.pageWords
    · have h2 : p * s.cfg.pageWords ≤ k ∧
          k < p * s.cfg.pageWords + s.cfg.pageWords + n * s.cfg.pageWords := by omega
      rw [if_pos h1, if_pos h2]
    · rw [if_neg h1]
      by_cases h3 : p * s.cfg.pageWords ≤ k ∧ k < p * s.cfg.pageWords + s.cfg.pageWords
      · have h2 : p * s.cfg.pageWords ≤ k ∧
          k < p * s.cfg.pageWords + s.cfg.pageWords + n * s.cfg.pageWords := by omega
        rw [if_pos h3, if_pos h2]
      · have h2 : ¬ (p * s.cfg.pageWords ≤ k ∧
          k < p * s.cfg.pageWords + s.cfg.pageWords + n * s.cfg.pageWords) := by omega
        rw [if_neg h3, if_neg h2]

/-! ### The EEPROM arm of block-load -/

/-- The bytes loop advances `AR` by one a byte. -/
theorem State.loadBytes_ar (s : State) (bs : List Byte) :
    (s.loadBytes bs).ar = advanceAddress s.ar bs.length := by
  induction bs generalizing s with
  | nil => simp [State.loadBytes, advanceAddress_zero]
  | cons b bs ih =>
    rw [State.loadBytes, ih, State.loadByteAt_ar, advanceAddress_advance]
    simp [Nat.add_comm]

/-- The bytes loop receives and writes byte by byte. -/
theorem State.loadBytes_trace (s : State) (bs : List Byte) :
    (s.loadBytes bs).trace = s.trace ++
      (List.range bs.length).flatMap (fun i =>
        [.recv (bs.getD i 0), .writeEeprom (advanceAddress s.ar i) (bs.getD i 0)]) := by
  induction bs generalizing s with
  | nil => simp [State.loadBytes]
  | cons b bs ih =>
    rw [State.loadBytes, ih, List.length_cons, List.range_succ_eq_map]
    simp [State.loadByteAt_trace, advanceAddress_advance, advanceAddress_zero, List.flatMap_map,
      Nat.add_comm 1]

/-- While the addresses lie inside the EEPROM and do not repeat, each byte ends at its address, and every
other byte keeps its value. -/
theorem State.loadBytes_eeprom (s : State) (bs : List Byte) (hlen : bs.length ≤ 65536)
    (hin : ∀ i < bs.length, (s.ar.toNat + i) % 65536 < s.cfg.eepromBytes) :
    (∀ i < bs.length, (s.loadBytes bs).eeprom.read ((s.ar.toNat + i) % 65536) = bs.getD i 0) ∧
    (∀ a, (∀ i < bs.length, a ≠ (s.ar.toNat + i) % 65536) →
      (s.loadBytes bs).eeprom.read a = s.eeprom.read a) := by
  induction bs generalizing s with
  | nil => simp [State.loadBytes]
  | cons b bs ih =>
    have h0 : s.ar.toNat < s.cfg.eepromBytes := by
      have := hin 0 (by simp)
      have hl := s.ar.isLt
      omega
    have hw : (s.loadByteAt b).eeprom = s.eeprom.write s.ar.toNat b := by
      simp [State.loadByteAt]
      exact State.writeEeprom_eeprom_inside (s.recv b) s.ar b h0
    have har : (s.loadByteAt b).ar.toNat = (s.ar.toNat + 1) % 65536 := by
      rw [State.loadByteAt_ar, advanceAddress_eq, addr_toNat]
    have hsh : ∀ i, ((s.ar.toNat + 1) % 65536 + i) % 65536 = (s.ar.toNat + (i + 1)) % 65536 := by
      intro i; omega
    simp only [List.length_cons] at hlen hin
    have := ih (s.loadByteAt b) (by omega) (by
      intro i hi
      rw [har, hsh, State.loadByteAt_cfg]
      exact hin (i + 1) (by omega))
    rw [har] at this
    simp only [hsh] at this
    refine ⟨fun i hi => ?_, fun a ha => ?_⟩
    · rw [State.loadBytes]
      cases i with
      | zero =>
        rw [this.2, hw]
        · have hm : (s.ar.toNat + 0) % 65536 = s.ar.toNat := by have := s.ar.isLt; omega
          rw [hm]; simp
        · intro j hj
          have := s.ar.isLt
          simp only [List.length_cons] at hi
          omega
      | succ i =>
        rw [this.1 i (by simpa using hi)]
        simp
    · rw [State.loadBytes, this.2 a (fun i hi => ha (i + 1) (by simp; omega)), hw,
        Memory.read_write_other]
      have := ha 0 (by simp)
      have hl := s.ar.isLt
      omega

/-! ### block-read -/

/-- The EEPROM read loop advances `AR` by one a turn. -/
theorem State.readBytes_ar (s : State) (n : Nat) :
    (s.readBytes n).ar = advanceAddress s.ar n := by
  induction n generalizing s with
  | zero => simp [State.readBytes, advanceAddress_zero]
  | succ n ih =>
    rw [State.readBytes, ih, State.readByteOut_ar, advanceAddress_advance, Nat.add_comm]

/-- The EEPROM read loop: `n` bytes, each read at the next address and sent; those inside the memory are
the memory's. -/
theorem State.readBytes_trace (s : State) (n : Nat) :
    ∃ bs : List Byte, bs.length = n ∧
      (s.readBytes n).trace = s.trace ++ (List.range n).flatMap (fun k =>
        [.readEeprom (advanceAddress s.ar k) (bs.getD k 0), .send (bs.getD k 0)]) ∧
      ∀ k < n, (advanceAddress s.ar k).toNat < s.cfg.eepromBytes →
        bs.getD k 0 = s.eeprom.read (advanceAddress s.ar k).toNat := by
  induction n generalizing s with
  | zero => exact ⟨[], by simp [State.readBytes]⟩
  | succ n ih =>
    obtain ⟨bs, hl, ht, hm⟩ := ih s.readByteOut
    refine ⟨s.eepromByte s.ar :: bs, by simp [hl], ?_, ?_⟩
    · rw [State.readBytes, ht, List.range_succ_eq_map]
      simp [advanceAddress_advance, advanceAddress_zero, List.flatMap_map, Nat.add_comm 1]
    · intro k hk hin
      cases k with
      | zero =>
        rw [advanceAddress_zero] at hin ⊢
        simpa using s.eepromByte_inside s.ar hin
      | succ k =>
        have := hm k (by omega)
        simp only [State.readByteOut_ar, advanceAddress_advance, State.readByteOut_cfg,
          State.readByteOut_eeprom, Nat.add_comm 1] at this
        simpa using this hin

/-- The flash read loop advances `AR` by two a turn. -/
theorem State.readWords_ar (s : State) (n : Nat) :
    (s.readWords n).ar = advanceAddress s.ar (2 * n) := by
  induction n generalizing s with
  | zero => simp [State.readWords, advanceAddress_zero]
  | succ n ih =>
    rw [State.readWords, ih, State.readWordOut_ar, advanceAddress_advance]
    congr 1; omega

/-- The flash read loop: `n` words, each read at the next even address; what is sent is the word read or,
under `buffer_cell0`, `BUF[0]`; the words inside the memory are the memory's. -/
theorem State.readWords_trace (s : State) (n : Nat) :
    ∃ ws : List Word, ws.length = n ∧
      (s.readWords n).trace = s.trace ++ (List.range n).flatMap (fun k =>
        .readFlash (advanceAddress s.ar (2 * k)) (ws.getD k 0) ::
          (wireBytes (if s.cfg.flashReadTx = .programWord then ws.getD k 0
            else s.buf.getD 0 0)).map .send) ∧
      ∀ k < n, (advanceAddress s.ar (2 * k)).toNat < s.cfg.flashBytes →
        ws.getD k 0 = s.flash.read (wordIndex (advanceAddress s.ar (2 * k))) := by
  induction n generalizing s with
  | zero => exact ⟨[], by simp [State.readWords]⟩
  | succ n ih =>
    obtain ⟨ws, hl, ht, hm⟩ := ih s.readWordOut
    have hsend : s.wordToSend =
        if s.cfg.flashReadTx = .programWord then s.flashWord s.ar else s.buf.getD 0 0 := by
      unfold State.wordToSend State.bufCell
      cases s.cfg.flashReadTx <;> simp
    have e : ∀ k, 2 + 2 * k = 2 * (k + 1) := by intro k; omega
    refine ⟨s.flashWord s.ar :: ws, by simp [hl], ?_, ?_⟩
    · rw [State.readWords, ht, List.range_succ_eq_map]
      simp [advanceAddress_advance, advanceAddress_zero, List.flatMap_map, e, hsend]
    · intro k hk hin
      cases k with
      | zero =>
        simp only [Nat.mul_zero, advanceAddress_zero] at hin ⊢
        simpa using s.flashWord_inside s.ar hin
      | succ k =>
        have := hm k (by omega)
        simp only [State.readWordOut_ar, advanceAddress_advance, State.readWordOut_cfg,
          State.readWordOut_flash, e] at this
        simpa using this hin

end Sys2Proof.Machine
end

