-- ==== Sys2Proof/Laws/Step.lean ====
section
/-! SUPPORT. What a step can do, said once; and that no operation depends on the position or on the environment's
moves, so that a run of single transactions can be compared with a whole command. -/

namespace Sys2Proof.Machine

/-- Every way a step can answer a next state. -/
theorem step_cases {s t : State} (h : step s = .next t) : s.cfg.wf ∧
    ((∃ moves, s.env = .reset :: moves ∧ t = (s.dropMove moves).takeReset) ∨
     (∃ moves, s.env = .stall :: moves ∧ t = s.stalled moves) ∨
     (∃ moves, s.env = .complete :: moves ∧ t = (s.dropMove moves).transact) ∨
     (s.env = [] ∧ s.phase = .awaitCommand ∧
       ∃ i rest, decode s.cfg s.rx = .ok (i, rest) ∧ exec i (s.takeCommand rest) = .next t) ∨
     (s.env = [] ∧ t = s.transact)) := by
  unfold step at h
  split at h
  · refine ⟨‹_›, ?_⟩
    split at h
    · injection h with h; exact .inl ⟨_, ‹_›, h.symm⟩
    · injection h with h; exact .inr (.inl ⟨_, ‹_›, h.symm⟩)
    · injection h with h; exact .inr (.inr (.inl ⟨_, ‹_›, h.symm⟩))
    · right; right; right
      split at h
      · split at h
        · exact .inl ⟨‹_›, ‹_›, _, _, ‹_›, h⟩
        · injection h with h; exact .inr ⟨‹_›, h.symm⟩
      · injection h with h; exact .inr ⟨‹_›, h.symm⟩
  · cases h

/-- What a stalled transaction can do: nothing, but for the moves of the environment that pass. -/
theorem State.stalled_cases (s : State) (moves : List EnvMove) :
    (.reset ∉ moves ∧ s.stalled moves = s) ∨
    ∃ pre post, moves = pre ++ .reset :: post ∧ .reset ∉ pre ∧ s.stalled moves = s.dropMove (.reset :: post) := by
  unfold State.stalled
  induction moves with
  | nil => exact .inl ⟨nofun, rfl⟩
  | cons m ms ih =>
    by_cases h : m = .reset
    · subst h
      exact .inr ⟨[], ms, rfl, nofun, rfl⟩
    · rw [List.dropWhile_cons_of_pos (by simpa using h)]
      rcases ih with ⟨h1, h2⟩ | ⟨pre, post, h1, h2, h3⟩
      · exact .inl ⟨by simp [h1, Ne.symm h], h2⟩
      · exact .inr ⟨m :: pre, post, by simp [h1], by simp [h2, Ne.symm h], h3⟩

/-- With no move of the environment left, a step inside a handler is one transaction. -/
theorem step_in_handler {s : State} (hw : s.cfg.wf) (he : s.env = []) (hp : s.phase ≠ .awaitCommand) :
    step s = .next s.transact := by
  unfold step
  rw [if_pos hw, he]
  dsimp only
  split
  · contradiction
  · rfl

/-! ### The position has no influence -/

variable (s : State)

@[simp] theorem State.setPhase_setPhase (p q : Phase) : (s.setPhase p).setPhase q = s.setPhase q := rfl

@[simp] theorem State.setPhase_toSend (p : Phase) (bs : List Byte) : (s.setPhase p).toSend bs = s.toSend bs := by
  cases bs <;> rfl

@[simp] theorem State.setPhase_toErase (p : Phase) (a : Nat) : (s.setPhase p).toErase a = s.toErase a := by
  unfold State.toErase; rw [State.setPhase_toSend]; rfl

@[simp] theorem State.setPhase_toFill (p : Phase) (i : Nat) : (s.setPhase p).toFill i = s.toFill i := by
  unfold State.toFill; rfl

@[simp] theorem State.setPhase_toLoadWord (p : Phase) (i : Nat) :
    (s.setPhase p).toLoadWord i = s.toLoadWord i := by
  unfold State.toLoadWord; rfl

@[simp] theorem State.setPhase_toLoadByte (p : Phase) (i : Nat) :
    (s.setPhase p).toLoadByte i = s.toLoadByte i := by
  unfold State.toLoadByte; rw [State.setPhase_toSend]; rfl

@[simp] theorem State.setPhase_toReadWord (p : Phase) (n : Nat) :
    (s.setPhase p).toReadWord n = s.toReadWord n := by
  cases n <;> rfl

@[simp] theorem State.setPhase_toReadByte (p : Phase) (n : Nat) :
    (s.setPhase p).toReadByte n = s.toReadByte n := by
  cases n <;> rfl

@[simp] theorem State.setPhase_answer (p : Phase) (bs : List Byte) : (s.setPhase p).answer bs = s.answer bs := by
  simp [State.answer_eq, State.setPhase]

theorem State.setPhase_pageErase (p : Phase) (a : Word) :
    (s.setPhase p).pageErase a = (s.pageErase a).setPhase p := by
  by_cases h : a.toNat < s.cfg.bootStartBytes <;> simp [State.pageErase, h] <;> rfl

theorem State.setPhase_pageWrite (p : Phase) (a : Word) :
    (s.setPhase p).pageWrite a = (s.pageWrite a).setPhase p := by
  by_cases h : a.toNat < s.cfg.bootStartBytes <;> simp [State.pageWrite, h] <;> rfl

theorem State.setPhase_writeEeprom (p : Phase) (a : Word) (b : Byte) :
    (s.setPhase p).writeEeprom a b = (s.writeEeprom a b).setPhase p := by
  by_cases h : a.toNat < s.cfg.eepromBytes <;> simp [State.writeEeprom, h] <;> rfl

theorem State.setPhase_readFlash (p : Phase) (a : Word) :
    (s.setPhase p).readFlash a = (s.readFlash a).setPhase p := by
  unfold State.readFlash; dsimp only; split <;> split <;> first | rfl | simp_all

theorem State.setPhase_readEeprom (p : Phase) (a : Word) :
    (s.setPhase p).readEeprom a = (s.readEeprom a).setPhase p := by
  unfold State.readEeprom; dsimp only; split <;> split <;> first | rfl | simp_all

/-! ### The environment's moves have no influence on a transaction -/

variable (m : List EnvMove)

theorem State.dropMove_toSend (bs : List Byte) : (s.dropMove m).toSend bs = (s.toSend bs).dropMove m := by
  cases bs <;> rfl

theorem State.dropMove_pageErase (a : Word) : (s.dropMove m).pageErase a = (s.pageErase a).dropMove m := by
  by_cases h : a.toNat < s.cfg.bootStartBytes <;> simp [State.pageErase, h] <;> rfl

theorem State.dropMove_pageWrite (a : Word) : (s.dropMove m).pageWrite a = (s.pageWrite a).dropMove m := by
  by_cases h : a.toNat < s.cfg.bootStartBytes <;> simp [State.pageWrite, h] <;> rfl

theorem State.dropMove_writeEeprom (a : Word) (b : Byte) :
    (s.dropMove m).writeEeprom a b = (s.writeEeprom a b).dropMove m := by
  by_cases h : a.toNat < s.cfg.eepromBytes <;> simp [State.writeEeprom, h] <;> rfl

theorem State.dropMove_readFlash (a : Word) : (s.dropMove m).readFlash a = (s.readFlash a).dropMove m := by
  unfold State.readFlash; dsimp only; split <;> split <;> first | rfl | simp_all

theorem State.dropMove_readEeprom (a : Word) : (s.dropMove m).readEeprom a = (s.readEeprom a).dropMove m := by
  unfold State.readEeprom; dsimp only; split <;> split <;> first | rfl | simp_all

theorem State.dropMove_toErase (a : Nat) : (s.dropMove m).toErase a = (s.toErase a).dropMove m := by
  unfold State.toErase
  rw [State.dropMove_cfg, State.dropMove_toSend]
  split <;> rfl

theorem State.dropMove_toFill (i : Nat) : (s.dropMove m).toFill i = (s.toFill i).dropMove m := by
  unfold State.toFill
  rw [State.dropMove_cfg]
  split <;> rfl

theorem State.dropMove_toLoadWord (i : Nat) : (s.dropMove m).toLoadWord i = (s.toLoadWord i).dropMove m := by
  unfold State.toLoadWord
  rw [State.dropMove_len]
  split <;> rfl

theorem State.dropMove_toLoadByte (i : Nat) : (s.dropMove m).toLoadByte i = (s.toLoadByte i).dropMove m := by
  unfold State.toLoadByte
  rw [State.dropMove_cfg, State.dropMove_len, State.dropMove_toSend]
  split <;> rfl

theorem State.dropMove_toReadWord (n : Nat) : (s.dropMove m).toReadWord n = (s.toReadWord n).dropMove m := by
  cases n <;> rfl

theorem State.dropMove_toReadByte (n : Nat) : (s.dropMove m).toReadByte n = (s.toReadByte n).dropMove m := by
  cases n <;> rfl

theorem State.dropMove_dispatch (c : Byte) : (s.dropMove m).dispatch c = (s.dispatch c).dropMove m := by
  unfold State.dispatch State.toReject
  rw [State.dropMove_cfg]
  split <;> first | rfl | exact State.dropMove_toSend _ _ _ | exact State.dropMove_toErase _ _ _

theorem State.dropMove_lengthLatched : (s.dropMove m).lengthLatched = s.lengthLatched.dropMove m := by
  unfold State.lengthLatched State.toReject
  rw [State.dropMove_cfg, State.dropMove_len, State.dropMove_toSend]
  split <;> rfl

theorem State.dropMove_loadTypeLatched : (s.dropMove m).loadTypeLatched = s.loadTypeLatched.dropMove m := by
  unfold State.loadTypeLatched State.toReject
  rw [State.dropMove_cfg, State.dropMove_mt]
  split
  · exact State.dropMove_toLoadWord _ _ _
  · exact State.dropMove_toLoadByte _ _ _
  · exact State.dropMove_toSend _ _ _

theorem State.dropMove_readTypeLatched : (s.dropMove m).readTypeLatched = s.readTypeLatched.dropMove m := by
  unfold State.readTypeLatched State.toReject
  rw [State.dropMove_cfg, State.dropMove_mt]
  split
  · exact State.dropMove_toReadWord s.shiftAr _ _
  · exact State.dropMove_toReadByte _ _ _
  · exact State.dropMove_toSend _ _ _

theorem State.dropMove_accept (b : Byte) : (s.dropMove m).accept b = (s.accept b).dropMove m := by
  unfold State.accept
  rw [State.dropMove_phase]
  cases s.phase <;> first
    | rfl
    | exact State.dropMove_toSend (s.recv b) _ _
    | exact State.dropMove_dispatch (s.recv b) _ _
    | exact State.dropMove_toSend ((s.recv b).setAr _) _ _
    | exact State.dropMove_lengthLatched ((s.recv b).setLen _) _
    | exact State.dropMove_loadTypeLatched ((s.recv b).setMt _) _
    | exact State.dropMove_readTypeLatched ((s.recv b).setMt _) _
    | exact State.dropMove_toLoadWord ((s.recv b).setBuf _ _) _ _

theorem State.dropMove_receive : (s.dropMove m).receive = s.receive.dropMove m := by
  unfold State.receive
  rw [State.dropMove_rx]
  cases s.rx with
  | nil => rfl
  | cons b rest => exact State.dropMove_accept ({ s with rx := rest } : State) m b

/-- A completed transaction is the same whatever the environment does next. -/
theorem State.dropMove_transact : (s.dropMove m).transact = s.transact.dropMove m := by
  unfold State.transact
  rw [State.dropMove_phase]
  cases s.phase <;> first
    | exact State.dropMove_receive s m
    | rfl
    | exact State.dropMove_toSend (s.send _) _ _
    | exact State.dropMove_toFill s.nvmWait _ _
    | exact State.dropMove_toFill (s.pageFill _ _) _ _
    | exact State.dropMove_toReadWord ((s.send _).advanceAr 2) _ _
    | exact State.dropMove_toReadByte ((s.send _).advanceAr 1) _ _
    | (dsimp only; rw [State.dropMove_pageErase, State.dropMove_toErase]; rfl)
    | (dsimp only; rw [State.dropMove_ar, State.dropMove_pageWrite, State.dropMove_toSend]; rfl)
    | (dsimp only; rw [State.dropMove_ar, State.dropMove_writeEeprom]
       exact State.dropMove_toLoadByte ((s.writeEeprom s.ar _).advanceAr 1) _ _)
    | (dsimp only; rw [State.dropMove_ar, State.dropMove_readFlash]; rfl)
    | (dsimp only; rw [State.dropMove_ar, State.dropMove_readEeprom]; rfl)

end Sys2Proof.Machine
end

