-- ==== Sys2Proof/Tests/Slice0.lean ====
section
/-! SUPPORT. The model's own tests. Expected values are those of spec/95_test_vectors.md (its start state S0 and
configuration T) and words written out from spec/30_encoding.md R91 and R95; at the end, a witness of the
premises of each statement for the provers. -/

namespace Sys2Proof.Tests

open Sys2Proof.Machine

/-! ### Start state S0 of spec/95 -/

/-- Cells `base .. base + n - 1` holding `v`, `v + 1`, ... -/
def ramp (w base v : Nat) : Nat → Memory w
  | 0 => []
  | n + 1 => (base, BitVec.ofNat w v) :: ramp w (base + 1) (v + 1) n

/-- S0: `FLASH` word `k` holds 0xF000 + `k`, `EEPROM[a]` holds 0xE0 + `a`; `EEPROM[0x1F]` = 0xFF is the value
an unlisted cell reads as, so it is not listed. -/
def s0 : State :=
  { State.launch Config.launch with flash := ramp 16 0 0xF000 0x30, eeprom := ramp 8 0 0xE0 0x1F }

/-- S0 with another `AR`. -/
def s0At (ar : Word) : State := { s0 with ar := ar }

/-- S0 with another configuration. -/
def s0With (c : Config) : State := { s0 with cfg := c }

/-- One step with these bytes from the host. -/
def after (s : State) (bytes : List Byte) : State :=
  match step { s with rx := bytes } with
  | .next t => t
  | .fault _ => s
  | .refused _ => s

/-- The bytes sent to the host in one step. -/
def reply (s : State) (bytes : List Byte) : List Byte := sentBytes (after s bytes).trace

/-- The NVM transactions of one step. -/
def nvm (s : State) (bytes : List Byte) : List Txn := nvmTxns (after s bytes).trace

/-! ### WellFormed refuses -/

abbrev T : Config := Config.launch

theorem test_wf_unknown_known_byte : (Instr.unknown 0x42).wf T = false := by decide
theorem test_wf_oversize_with_body : (Instr.blkload 5 (some ⟨0x46, []⟩)).wf T = false := by decide
theorem test_wf_in_range_without_body : (Instr.blkload 4 none).wf T = false := by decide
theorem test_wf_flash_payload_short : (Instr.blkload 1 (some ⟨0x46, [0xAA]⟩)).wf T = false := by decide
theorem test_wf_eeprom_payload_long : (Instr.blkload 1 (some ⟨0x45, [1, 2]⟩)).wf T = false := by decide
theorem test_wf_unknown_type_payload : (Instr.blkload 1 (some ⟨0x58, [1]⟩)).wf T = false := by decide
theorem test_wf_accepts : (Instr.blkload 1 (some ⟨0x46, [0xAA, 0xBB]⟩)).wf T = true := by decide

theorem test_cfg_page_words_zero : ¬ ({ T with pageWords := 0 } : Config).PageWordsFit := by decide
theorem test_cfg_page_not_dividing : ¬ ({ T with pageWords := 3 } : Config).PageDividesSpace := by decide
theorem test_cfg_boot_not_whole : ¬ ({ T with bootStartBytes := 0x41 } : Config).BootFits := by decide
theorem test_cfg_boot_beyond_flash : ¬ ({ T with bootStartBytes := 0x68 } : Config).BootFits := by decide
theorem test_cfg_flash_beyond_space : ¬ ({ T with flashBytes := 65544 } : Config).BootFits := by decide
theorem test_cfg_flash_not_whole : ¬ ({ T with flashBytes := 0x61 } : Config).FlashWholePages := by decide
theorem test_cfg_eeprom_beyond_space : ¬ ({ T with eepromBytes := 65537 } : Config).EepromFits := by decide
theorem test_cfg_ops_collide :
    ¬ ({ T with op := { OpBytes.default with exit := 0x50 } } : Config).OpsDistinct := by decide
theorem test_cfg_tags_equal : ¬ ({ T with mtEeprom := 0x46 } : Config).TagsDistinct := by decide
theorem test_cfg_arrays_short : ¬ ({ T with bufInit := [0] } : Config).LaunchArraysFit := by decide
theorem test_cfg_launch_wf : T.wf := by decide
theorem test_ill_configured_faults :
    step (s0With { T with pageWords := 0 }) = .fault .illConfigured := by rfl

/-! ### Decoding: bytes written out from R91 and R95 -/

theorem test_decode_enterprog : decode T [0x50] = .ok (.enterprog, []) := by rfl
theorem test_decode_leaveprog : decode T [0x4C] = .ok (.leaveprog, []) := by rfl
theorem test_decode_autoinc : decode T [0x61] = .ok (.autoinc, []) := by rfl
/-- High byte first (R92): not 0x3412. -/
theorem test_decode_setaddr : decode T [0x41, 0x12, 0x34] = .ok (.setaddr 0x1234, []) := by rfl
theorem test_decode_chiperase : decode T [0x65] = .ok (.chiperase, []) := by rfl
/-- The argument equals `OP_EXIT` and is not dispatched (R99). -/
theorem test_decode_devtype : decode T [0x54, 0x45, 0x61] = .ok (.devtype 0x45, [0x61]) := by rfl
theorem test_decode_ledset : decode T [0x78, 0x00] = .ok (.ledset 0x00, []) := by rfl
theorem test_decode_ledclr : decode T [0x79, 0xFF] = .ok (.ledclr 0xFF, []) := by rfl
theorem test_decode_readsig : decode T [0x73] = .ok (.readsig, []) := by rfl
theorem test_decode_devcodes : decode T [0x74] = .ok (.devcodes, []) := by rfl
theorem test_decode_swid : decode T [0x53] = .ok (.swid, []) := by rfl
theorem test_decode_swver : decode T [0x56] = .ok (.swver, []) := by rfl
theorem test_decode_progtype : decode T [0x70] = .ok (.progtype, []) := by rfl
theorem test_decode_exit : decode T [0x45, 0x61] = .ok (.exit, [0x61]) := by rfl
theorem test_decode_blksup : decode T [0x62] = .ok (.blksup, []) := by rfl
/-- LEN counts words for flash: two payload bytes (R94). -/
theorem test_decode_blkload_flash :
    decode T [0x42, 0x00, 0x01, 0x46, 0xDE, 0xAD, 0x61] =
      .ok (.blkload 1 (some ⟨0x46, [0xDE, 0xAD]⟩), [0x61]) := by rfl
/-- LEN counts bytes for EEPROM (R94). -/
theorem test_decode_blkload_eeprom :
    decode T [0x42, 0x00, 0x02, 0x45, 0xAA, 0xBB] = .ok (.blkload 2 (some ⟨0x45, [0xAA, 0xBB]⟩), []) := by
  rfl
/-- An oversize block-load ends after its length (R98). -/
theorem test_decode_blkload_oversize :
    decode T [0x42, 0x00, 0x05, 0x58] = .ok (.blkload 5 none, [0x58]) := by rfl
theorem test_decode_blkread :
    decode T [0x67, 0x01, 0x03, 0x45, 0x00] = .ok (.blkread 0x0103 0x45, [0x00]) := by rfl
/-- `CR` is not a command (DV6.5). -/
theorem test_decode_unknown : decode T [0x0D, 0x61] = .ok (.unknown 0x0D, [0x61]) := by rfl
theorem test_decode_waits_for_payload :
    decode T [0x42, 0x00, 0x01, 0x46, 0xDE] = .error .payloadByte := by rfl

/-! ### One step each: the vectors of spec/95 -/

/-- DV1.1 -/
theorem test_enterprog : reply s0 [0x50] = [0x0D] := by decide
/-- DV1.2 -/
theorem test_leaveprog : reply s0 [0x4C] = [0x0D] := by decide
/-- DV1.3 -/
theorem test_autoinc : reply s0 [0x61] = [0x59] ∧ (after s0 [0x61]).ar = 0x7777 := by decide
/-- DV1.5 -/
theorem test_devtype : reply s0 [0x54, 0x45] = [0x0D] ∧ (after s0 [0x54, 0x45]).phase = .awaitCommand := by
  decide
/-- DV1.6 -/
theorem test_ledset : reply s0 [0x78, 0x00] = [0x0D] := by decide
/-- DV1.7 -/
theorem test_ledclr : reply s0 [0x79, 0xFF] = [0x0D] := by decide
/-- DV1.8 -/
theorem test_readsig : reply s0 [0x73] = [0xA1, 0xA2, 0xA3] := by decide
/-- DV1.9 -/
theorem test_devcodes : reply s0 [0x74] = [0x7B, 0x00] := by decide
/-- DV1.10 -/
theorem test_swid : reply s0 [0x53] = [0x54, 0x45, 0x53, 0x54, 0x4C, 0x44, 0x52] := by decide
/-- DV1.11 -/
theorem test_swver : reply s0 [0x56] = [0x30, 0x37] := by decide
/-- DV1.12 -/
theorem test_progtype : reply s0 [0x70] = [0x53] := by decide
/-- DV1.13 -/
theorem test_blksup : reply s0 [0x62] = [0x59, 0x00, 0x04] := by decide
/-- DV1.14: high byte first. -/
theorem test_blksup_high_first :
    reply (s0With { T with blockSizeReport := 0x0120 }) [0x62] = [0x59, 0x01, 0x20] := by decide

/-- DV2.3 -/
theorem test_setaddr :
    (after s0 [0x41, 0x12, 0x34]).ar = 0x1234 ∧ reply s0 [0x41, 0x12, 0x34] = [0x0D] := by decide

/-- DV2.6 -/
theorem test_chiperase :
    nvm s0 [0x65] = [.pageErase 0x00, .pageErase 0x08, .pageErase 0x10, .pageErase 0x18, .pageErase 0x20,
      .pageErase 0x28, .pageErase 0x30, .pageErase 0x38] ∧
    (after s0 [0x65]).flash = ramp 16 0x20 0xF020 0x10 := by decide
/-- DV2.7 -/
theorem test_chiperase_no_page :
    nvm (s0With { T with bootStartBytes := 0 }) [0x65] = [] ∧
    reply (s0With { T with bootStartBytes := 0 }) [0x65] = [0x0D] := by decide

/-- DV3.1 -/
theorem test_exit :
    (after s0 [0x45]).phase = .handedOff ∧ reply s0 [0x45] = [] ∧ (after s0 [0x45]).ar = 0x7777 := by decide
/-- DV3.2: the byte after is never taken. -/
theorem test_exit_terminal :
    step (after s0 [0x45, 0x61]) = .next (after s0 [0x45, 0x61]) ∧ (after s0 [0x45, 0x61]).rx = [0x61] := by
  exact ⟨rfl, by decide⟩

/-- DV4.7, the unaligned block-load, and DV4.6: bit 15 lost by the shift, stale cells written. -/
theorem test_blkload_flash :
    let b := [0x42, 0x00, 0x04, 0x46, 0x00, 0xA0, 0x00, 0xA1, 0x00, 0xA2, 0x00, 0xA3]
    let t := after (s0At 0x0005) b
    let u := after (s0At 0x8004) [0x42, 0x00, 0x01, 0x46, 0xAA, 0xAA]
    nvmTxns t.trace = [.nvmWait, .pageFill 0x0A 0xA0, .pageFill 0x0C 0xA1, .pageFill 0x0E 0xA2,
      .pageFill 0x10 0xA3, .pageWrite 0x0A] ∧
    t.flash = ramp 16 0 0xF000 4 ++ [(4, 0xA3), (5, 0xA0), (6, 0xA1), (7, 0xA2)] ++ ramp 16 8 0xF008 0x28 ∧
    u.ar = 0x0008 ∧ u.buf = [0xAAAA, 0x2222, 0x3333, 0x4444] ∧ u.flash.read 7 = 0x4444 := by decide
/-- DV4.8 -/
theorem test_blkload_eeprom :
    let t := after (s0At 0x0005) [0x42, 0x00, 0x03, 0x45, 0xAA, 0xBB, 0xCC]
    t.ar = 0x0008 ∧
    t.eeprom = ramp 8 0 0xE0 5 ++ [(5, 0xAA), (6, 0xBB), (7, 0xCC)] ++ ramp 8 8 0xE8 0x17 := by decide

/-- DV5.4: an odd length sends one byte more; DV5.12: the other value of `FLASH_READ_TX`. -/
theorem test_blkread_flash :
    reply (s0At 0x0004) [0x67, 0x00, 0x03, 0x46] = [0xF0, 0x04, 0xF0, 0x05] ∧
    (after (s0At 0x0004) [0x67, 0x00, 0x03, 0x46]).ar = 0x000C ∧
    reply { s0With { T with flashReadTx := .bufferCell0 } with ar := 0x0004 } [0x67, 0x00, 0x04, 0x46] =
      [0x11, 0x11, 0x11, 0x11] := by decide
/-- DV5.8 -/
theorem test_blkread_eeprom :
    reply (s0At 0x0005) [0x67, 0x00, 0x03, 0x45] = [0xE5, 0xE6, 0xE7] ∧
    (after (s0At 0x0005) [0x67, 0x00, 0x03, 0x45]).ar = 0x0008 := by decide

/-- DV6.2: the byte after an unknown command is a fresh command. -/
theorem test_unknown : reply s0 [0x5A, 0x61] = [0x3F] ∧ (after s0 [0x5A, 0x61]).rx = [0x61] := by decide
/-- DV4.1 and DV5.11: the other errors; `AR` survives and the NVM is not touched. -/
theorem test_errors :
    reply s0 [0x42, 0x00, 0x05] = [0x3F] ∧ nvm s0 [0x42, 0x00, 0x05] = [] ∧
    reply s0 [0x67, 0xFF, 0xFF, 0x58] = [0x3F] ∧ (after s0 [0x67, 0xFF, 0xFF, 0x58]).ar = 0x7777 := by decide

/-- `s` with these bytes from the host, after `n` transactions. -/
def partway (s : State) (bytes : List Byte) (n : Nat) : State :=
  (List.range n).foldl (fun t _ => t.transact) { s with rx := bytes }

/-- DV1.15, DV2.5, DV4.14, DV4.15: handlers whose bytes do not all come. -/
theorem test_waiting :
    let t := partway (s0At 0x0002) [0x42, 0x00, 0x03, 0x45, 0xAA] 7
    let u := partway (s0At 0x0002) [0x42, 0x00, 0x02, 0x46, 0xAB, 0xCD, 0xEF] 8
    reply s0 [0x54] = [] ∧ (after s0 [0x54]).phase = .devtypeArg ∧
    (partway s0 [0x41, 0x00] 3).ar = 0x7777 ∧
    t.ar = 0x0003 ∧ t.eeprom.read 2 = 0xAA ∧ t.phase = .loadByte 1 ∧
    u.ar = 0x0002 ∧ u.buf = [0xABCD, 0x2222, 0x3333, 0x4444] ∧ nvmTxns u.trace = [] := by decide

/-- `s` with the environment's moves given. -/
def under (s : State) (moves : List EnvMove) : State := { s with env := moves }

/-- R240: a `Send` that is never taken holds the handler; its work up to there stays done; a reset ends the
wait. -/
theorem test_stalled_send :
    let s := partway s0 [0x41, 0x12, 0x34] 3
    step (under s [.stall]) = .next (under s [.stall]) ∧
    step (under s [.stall, .reset]) = .next (under s [.reset]) ∧ s.ar = 0x1234 ∧ sentBytes s.trace = [] := by
  exact ⟨rfl, rfl, by decide, by decide⟩

/-- R230, R231: a reset inside the burst of chip-erase. Two page erases have been made, the third was pending,
and no CR is sent. -/
theorem test_reset_in_chiperase :
    let s := partway s0 [0x65] 3
    s.phase = .erasing 0x10 ∧
    step (under s [.reset]) = .next s.takeReset ∧ s.takeReset.phase = .awaitCommand ∧
    nvmTxns s.takeReset.trace = [.pageErase 0x00, .pageErase 0x08] ∧ sentBytes s.takeReset.trace = [] := by
  exact ⟨by decide, rfl, rfl, by decide, by decide⟩

/-! ### Premises met: a witness for each statement -/

theorem s0_inv : s0.Inv :=
  ⟨by decide, by decide, by decide, by decide, by decide, by decide, by decide, trivial⟩

/-- S0 with bytes from the host. -/
def s0Rx (bytes : List Byte) : State := { s0 with rx := bytes }

/-- A full-length flash block-load (boundary `LEN = PAGE_WORDS`). -/
def fullLoad : Instr := .blkload 4 (some ⟨0x46, [0xDE, 0xAD, 0xBE, 0xEF, 0x00, 0x01, 0xFF, 0xFE]⟩)

theorem witness_DecodeOfEncode : T.wf ∧ fullLoad.wf T = true ∧ (Instr.blkload 5 none).wf T = true ∧
    (Instr.unknown 0x3F).wf T = true := by decide
theorem witness_EncodeOfDecode : decode T [0x41, 0xFF, 0xFF, 0x00] = .ok (.setaddr 0xFFFF, [0x00]) := by rfl
theorem witness_DispatchByEquality : T.wf ∧ opcodeOf T.op 0x67 = .blkread ∧
    (0x67, Opcode.blkread) ∈ T.op.toList.zip
      [Opcode.enterprog, .leaveprog, .autoinc, .setaddr, .chiperase, .devtype, .ledset, .ledclr,
       .readsig, .devcodes, .swid, .swver, .progtype, .exit, .blksup, .blkload, .blkread] ∧
    opcodeOf T.op 0x47 = .unknown ∧ 0x47 ∉ T.op.toList := by decide
/-- One witness for each length. -/
theorem witness_CommandLength :
    decode T [0x61] = .ok (.autoinc, []) ∧ decode T [0x54, 0x00] = .ok (.devtype 0, []) ∧
    decode T [0x41, 0x00, 0x10] = .ok (.setaddr 0x10, []) ∧
    decode T [0x67, 0xFF, 0xFF, 0x46] = .ok (.blkread 0xFFFF 0x46, []) ∧
    decode T [0x42, 0x00, 0x05] = .ok (.blkload 5 none, []) ∧
    decode T [0x42, 0x00, 0x01, 0x46, 1, 2] = .ok (.blkload 1 (some ⟨0x46, [1, 2]⟩), []) ∧
    decode T [0x42, 0x00, 0x01, 0x45, 1] = .ok (.blkload 1 (some ⟨0x45, [1]⟩), []) ∧
    decode T [0x42, 0x00, 0x04, 0x58] = .ok (.blkload 4 (some ⟨0x58, []⟩), []) :=
  ⟨rfl, rfl, rfl, rfl, rfl, rfl, rfl, rfl⟩
theorem witness_CommandLength_step :
    s0.cfg.wf ∧ s0.env = [] ∧ (s0Rx [0x54, 0x45, 0x61]).phase = .awaitCommand ∧
    decode T (s0Rx [0x54, 0x45, 0x61]).rx = .ok (.devtype 0x45, [0x61]) := ⟨by decide, rfl, rfl, rfl⟩
theorem witness_IncompleteExtends :
    decode T [] = .error .commandByte ∧ decode T [0x42, 0, 1, 0x46, 0xAA] = .error .payloadByte := ⟨rfl, rfl⟩
theorem witness_StepRunsDecoded :
    s0.cfg.wf ∧ (s0Rx [0x45, 0x61]).env = [] ∧ (s0Rx [0x45, 0x61]).phase = .awaitCommand ∧
    decode s0.cfg (s0Rx [0x45, 0x61]).rx = .ok (.exit, [0x61]) := ⟨by decide, rfl, rfl, rfl⟩
/-- Also of WireResponses. -/
theorem witness_StepRunsEncoded :
    s0.cfg.wf ∧ fullLoad.wf s0.cfg = true ∧
    (s0Rx [0x42, 0, 4, 0x46, 0xDE, 0xAD, 0xBE, 0xEF, 0x00, 0x01, 0xFF, 0xFE, 0x61]).rx =
      encode s0.cfg fullLoad ++ [0x61] ∧ (s0Rx []).env = [] ∧ (s0Rx []).phase = .awaitCommand := by
  decide
/-- Bytes of a complete command and one byte more. -/
def setaddrRx : State := s0Rx [0x41, 0xFF, 0xFE, 0x61]

/-- Also of StallAnywhere and ResetAnywhere, whose schedules are below. -/
theorem witness_TransactionwiseAgrees :
    setaddrRx.cfg.wf ∧ setaddrRx.phase = .awaitCommand ∧ (Instr.setaddr 0xFFFE).wf setaddrRx.cfg = true ∧
    setaddrRx.rx = encode setaddrRx.cfg (.setaddr 0xFFFE) ++ [0x61] := by decide
/-- Both ends of the range: none and all four transactions of the command complete. `.reset ∉ []` holds. -/
theorem witness_StallAnywhere :
    (under setaddrRx [.stall]).env = List.replicate 0 .complete ++ .stall :: [] ∧
    (under setaddrRx [.complete, .complete, .complete, .complete, .stall]).env =
      List.replicate 4 .complete ++ .stall :: [] ∧
    ∃ t new, exec (.setaddr 0xFFFE)
        { setaddrRx with rx := [0x61], trace := setaddrRx.trace ++ [.recv 0x41] } = .next t ∧
      t.trace = setaddrRx.trace ++ new ∧ 4 ≤ new.length :=
  ⟨rfl, rfl, _, [.recv 0x41, .recv 0xFF, .recv 0xFE, .send 0x0D], rfl, rfl, by decide⟩
/-- The reset comes when the last transaction, `Send(CR)`, is pending, and with a move after it. -/
theorem witness_ResetAnywhere :
    (under setaddrRx [.complete, .complete, .complete, .reset, .stall]).env =
      List.replicate 3 .complete ++ .reset :: [.stall] := rfl
/-- One witness for each clause: no complete command in `AwaitCommand`; inside a handler; one transaction at a
time. -/
theorem witness_StepTakesOneByte :
    s0.cfg.wf ∧ (s0Rx [0x41]).phase.waits = true ∧ (s0Rx [0x41]).rx = 0x41 :: [] ∧ (s0Rx [0x41]).env = [] ∧
    decode s0.cfg [0x41] = .error .addressByte ∧
    ((s0Rx [0x45]).setPhase (.loadWordLo 3 0xDE)).phase.waits = true ∧
    (under (s0Rx [0x45]) [.complete]).env = .complete :: [] := ⟨by decide, rfl, rfl, rfl, rfl, rfl, rfl⟩
/-- Also of StepNeverStops, ChipEraseTransactions, ChipEraseMemory, ReadFlash, ReadEeprom, InvariantAtReset:
their one premise is `wf`. -/
theorem witness_TransactionPositions :
    s0.cfg.wf ∧ (s0.setPhase (.loadFill 3)).env = [] ∧ (s0.setPhase (.erasing 0x38)).env = [] := by decide
theorem witness_EnvironmentDecides :
    s0.cfg.wf ∧ (under s0 [.stall]).env = .stall :: [] ∧ EnvMove.reset ∉ ([] : List EnvMove) ∧
    (under s0 [.stall, .complete, .reset]).env = .stall :: [.complete] ++ .reset :: [] ∧
    EnvMove.reset ∉ [EnvMove.complete] ∧
    (under (s0Rx [0x41]) [.complete, .reset]).env = .complete :: [.reset] ∧
    decode s0.cfg [0x41] = .error .addressByte := ⟨by decide, rfl, by decide, rfl, by decide, rfl, rfl⟩
theorem witness_WaitsForTheHost :
    s0.cfg.wf ∧ s0.env = [] ∧ s0.rx = [] ∧ s0.phase.waits = true ∧
    (s0.setPhase .loadType).phase.waits = true := by decide
theorem witness_ReceivesInOrder :
    step (s0Rx [0x5A, 0x61]) = .next (after s0 [0x5A, 0x61]) ∧
    (∀ moves, (s0Rx [0x5A, 0x61]).env ≠ .reset :: moves) :=
  ⟨rfl, nofun⟩
/-- An even and an odd number of payload bytes, the odd one a byte short of the whole payload. -/
theorem witness_CutFlashLoad :
    s0.Inv ∧ s0.phase = .awaitCommand ∧ s0.env = [] ∧ (4 : Word).toNat ≤ s0.cfg.pageWords ∧
    ([0xAB, 0xCD] : List Byte).length < 2 * (4 : Word).toNat ∧
    (s0Rx [0x42, 0, 4, 0x46, 0xAB, 0xCD]).rx =
      s0.cfg.op.blkload :: wireBytes 4 ++ s0.cfg.mtFlash :: [0xAB, 0xCD] ∧
    ([1, 2, 3, 4, 5, 6, 7] : List Byte).length < 2 * (4 : Word).toNat ∧
    (s0Rx [0x42, 0, 4, 0x46, 1, 2, 3, 4, 5, 6, 7]).rx =
      s0.cfg.op.blkload :: wireBytes 4 ++ s0.cfg.mtFlash :: [1, 2, 3, 4, 5, 6, 7] :=
  ⟨s0_inv, by decide, by decide, by decide, by decide, by decide, by decide, by decide⟩
/-- Up to the last EEPROM byte. -/
theorem witness_CutEepromLoad :
    let s : State := { s0At 0x1D with rx := [0x42, 0, 4, 0x45, 1, 2, 3] }
    s.cfg.wf ∧ s.phase = .awaitCommand ∧ s.env = [] ∧ (4 : Word).toNat ≤ s.cfg.pageWords ∧
    ([1, 2, 3] : List Byte).length < (4 : Word).toNat ∧
    s.ar.toNat + ([1, 2, 3] : List Byte).length ≤ s.cfg.eepromBytes ∧
    s.rx = s.cfg.op.blkload :: wireBytes 4 ++ s.cfg.mtEeprom :: [1, 2, 3] := by decide
/-- Without and with a reset. -/
theorem witness_HandedOffForEver :
    (after s0 [0x45]).cfg.wf ∧ (after s0 [0x45]).phase = .handedOff ∧
    EnvMove.reset ∉ (under (after s0 [0x45]) [.complete, .stall]).env ∧
    (under (after s0 [0x45]) [.reset]).env = .reset :: [] := by
  decide
/-- Of DiscardCommands and SetAddress. -/
theorem witness_command_byte_alone : s0.cfg.wf ∧ s0.phase = .awaitCommand := by decide
theorem witness_IllConfiguredFaults : ¬ (s0With { T with pageWords := 0 }).cfg.wf := by decide
theorem witness_IllFormedRefused : (Instr.blkload 4 none).wf s0.cfg = false := by decide
theorem witness_LoadOversize : s0.cfg.pageWords < (0x00 : Byte).toNat * 256 + (0x05 : Byte).toNat := by decide
theorem witness_LoadUnknownType :
    (0x00 : Byte).toNat * 256 + (0x04 : Byte).toNat ≤ s0.cfg.pageWords ∧ (0x58 : Byte) ≠ s0.cfg.mtFlash ∧
    (0x58 : Byte) ≠ s0.cfg.mtEeprom := by decide
/-- `LEN = PAGE_WORDS`, and `LEN = 0` (R165). -/
theorem witness_LoadFlashBlockSide :
    s0.Inv ∧ (4 : Word).toNat ≤ s0.cfg.pageWords ∧
    ([1, 2, 3, 4, 5, 6, 7, 8] : List Byte).length = 2 * (4 : Word).toNat ∧
    (0 : Word).toNat ≤ s0.cfg.pageWords ∧ ([] : List Byte).length = 2 * (0 : Word).toNat :=
  ⟨s0_inv, by decide, by decide, by decide, by decide⟩
/-- The last word of the application region, `A = 0x3E`, which is not page-aligned. -/
theorem witness_LoadFlashMemory :
    (s0At 0x1F).Inv ∧ (1 : Word).toNat ≤ (s0At 0x1F).cfg.pageWords ∧
    ([0xAA, 0xAA] : List Byte).length = 2 * (1 : Word).toNat ∧
    0x3E = 2 * (s0At 0x1F).ar.toNat % 65536 ∧ 0x3E < (s0At 0x1F).cfg.bootStartBytes ∧
    (s0At 0x1F).cfg.pageWriteEffect = .commit :=
  ⟨⟨by decide, by decide, by decide, by decide, by decide, by decide, by decide, trivial⟩,
    by decide, by decide, by decide, by decide, by decide⟩
/-- The target page of the aligned case. -/
theorem witness_LoadFlashMemory_aligned :
    (s0At 0x1C).Inv ∧ 0x38 = 2 * (s0At 0x1C).ar.toNat % 65536 ∧ 0x38 % (s0At 0x1C).cfg.pageBytes = 0 ∧
    0x38 < (s0At 0x1C).cfg.bootStartBytes :=
  ⟨⟨by decide, by decide, by decide, by decide, by decide, by decide, by decide, trivial⟩,
    by decide, by decide, by decide⟩
/-- A target at `BOOT_START_BYTES` for the flash arm, and one at `EEPROM_BYTES` for the EEPROM arm. -/
theorem witness_LoadLeavesOtherMemories :
    (s0At 0x20).Inv ∧ 2 * (s0At 0x20).ar.toNat = (s0At 0x20).cfg.bootStartBytes ∧
    (s0At 0x20).ar.toNat = (s0At 0x20).cfg.eepromBytes ∧ (1 : Word).toNat ≤ (s0At 0x20).cfg.pageWords ∧
    ([1, 2] : List Byte).length = 2 * (1 : Word).toNat ∧ ([1] : List Byte).length = (1 : Word).toNat :=
  ⟨⟨by decide, by decide, by decide, by decide, by decide, by decide, by decide, trivial⟩,
    by decide, by decide, by decide, by decide, by decide⟩
/-- A state with the second page erased, another page-write parameter, and `AR` at a word of that page. -/
def unerased (e : PageWriteEffect) (ar : Word) : State :=
  { s0With { T with pageWriteEffect := e } with
    ar := ar, flash := ramp 16 0 0xF000 4 ++ ramp 16 8 0xF008 0x28 }
theorem witness_LoadFlashUnerased_clearOnly :
    (unerased .clearOnly 4).Inv ∧ (unerased .clearOnly 4).cfg.pageWriteEffect = .clearOnly ∧
    8 = 2 * (unerased .clearOnly 4).ar.toNat % 65536 ∧ 8 < (unerased .clearOnly 4).cfg.bootStartBytes :=
  ⟨⟨by decide, by decide, by decide, by decide, by decide, by decide, by decide, trivial⟩,
    by decide, by decide, by decide⟩
/-- A target that is not page-aligned, and a word of its page that was erased. -/
theorem witness_LoadFlashUnerased_anyIfNotErased :
    (unerased .anyIfNotErased 5).Inv ∧ (unerased .anyIfNotErased 5).cfg.pageWriteEffect = .anyIfNotErased ∧
    10 = 2 * (unerased .anyIfNotErased 5).ar.toNat % 65536 ∧
    10 < (unerased .anyIfNotErased 5).cfg.bootStartBytes ∧ (unerased .anyIfNotErased 5).flash.read 4 = 0xFFFF :=
  ⟨⟨by decide, by decide, by decide, by decide, by decide, by decide, by decide, trivial⟩,
    by decide, by decide, by decide, by decide⟩
theorem witness_LoadEepromBlockSide :
    s0.cfg.wf ∧ (4 : Word).toNat ≤ s0.cfg.pageWords ∧ ([1, 2, 3, 4] : List Byte).length = (4 : Word).toNat := by
  decide
/-- DV4.10: the address wraps from 0xFFFF to 0. -/
theorem witness_LoadEepromMemory :
    ({ T with eepromBytes := 65536 } : Config).wf ∧ (2 : Word).toNat ≤ T.pageWords ∧
    ([1, 2] : List Byte).length = (2 : Word).toNat ∧
    ∀ i < (2 : Word).toNat, ((0xFFFF : Word).toNat + i) % 65536 < 65536 := by decide
/-- The last address inside the flash, and the first beyond it. -/
theorem witness_ReadFlash :
    (s0At 0x2F).cfg.wf ∧ 2 * (s0At 0x2F).ar.toNat % 65536 < (s0At 0x2F).cfg.flashBytes ∧
    ¬ (2 * (s0At 0x2F).ar.toNat + 2) % 65536 < (s0At 0x2F).cfg.flashBytes := by decide
/-- The last address inside the EEPROM, and the first beyond it. -/
theorem witness_ReadEeprom :
    (s0At 0x1F).cfg.wf ∧ (s0At 0x1F).ar.toNat < (s0At 0x1F).cfg.eepromBytes ∧
    ¬ (s0At 0x1F).ar.toNat + 1 < (s0At 0x1F).cfg.eepromBytes := by decide
theorem witness_ReadUnknownType :
    (0x58 : Byte) ≠ s0.cfg.mtFlash ∧ (0x58 : Byte) ≠ s0.cfg.mtEeprom := by decide
/-- One witness for each of the four clauses. -/
theorem witness_ErrorsOnTheWire :
    s0.cfg.wf ∧ (0x5A : Byte) ∉ s0.cfg.op.toList ∧ (s0Rx [0x5A]).rx = [0x5A] ∧
    s0.cfg.pageWords < (0xFF : Byte).toNat * 256 + (0xFF : Byte).toNat ∧
    (s0Rx [0x42, 0xFF, 0xFF]).rx = [s0.cfg.op.blkload, 0xFF, 0xFF] ∧
    (0x58 : Byte) ≠ s0.cfg.mtFlash ∧ (0x58 : Byte) ≠ s0.cfg.mtEeprom ∧
    (0x00 : Byte).toNat * 256 + (0x04 : Byte).toNat ≤ s0.cfg.pageWords ∧
    (s0Rx [0x42, 0x00, 0x04, 0x58]).rx = [s0.cfg.op.blkload, 0x00, 0x04, 0x58] ∧
    (s0Rx [0x67, 0xFF, 0xFF, 0x58]).rx = [s0.cfg.op.blkread, 0xFF, 0xFF, 0x58] ∧
    s0.env = [] ∧ s0.phase = .awaitCommand := by decide
/-- One witness for each row of the table that changes `AR`, and one for a rejected block-load. -/
theorem witness_AddressRegisterTable :
    s0.cfg.wf ∧ isNext (exec (.setaddr 0xFFFF) s0) = true ∧ (Instr.setaddr 0xFFFF).wf s0.cfg = true ∧
    isNext (exec fullLoad s0) = true ∧ fullLoad.wf s0.cfg = true ∧
    isNext (exec (.blkload 1 (some ⟨0x45, [1]⟩)) (s0At 1)) = true ∧
    (Instr.blkload 1 (some ⟨0x45, [1]⟩)).wf s0.cfg = true ∧
    isNext (exec (.blkload 5 none) s0) = true ∧ (Instr.blkload 5 none).wf s0.cfg = true ∧
    isNext (exec (.blkread 3 0x46) s0) = true ∧ isNext (exec (.blkread 3 0x45) s0) = true ∧
    isNext (exec (.blkread 3 0x58) s0) = true := by decide
/-- One witness for each clause. Also of TransactionIssuers and RecordHasNoInfluence. -/
theorem witness_BufferWriter :
    s0.Inv ∧ isNext (exec fullLoad s0) = true ∧
    fullLoad = .blkload 4 (some ⟨s0.cfg.mtFlash, [0xDE, 0xAD, 0xBE, 0xEF, 0x00, 0x01, 0xFF, 0xFE]⟩) ∧
    isNext (exec (.blkload 1 (some ⟨0x45, [1]⟩)) s0) = true ∧
    (∀ len p, Instr.blkload 1 (some ⟨0x45, [1]⟩) ≠ .blkload len (some ⟨s0.cfg.mtFlash, p⟩)) :=
  ⟨s0_inv, by decide, rfl, by decide, fun len p h => by
    simp only [Instr.blkload.injEq, Option.some.injEq, LoadBody.mk.injEq] at h
    exact absurd h.2.1 (by decide)⟩
/-- Also of ConfigurationConstant. -/
theorem witness_FlashAddressesEven :
    (s0Rx [0x65]).Inv ∧ step (s0Rx [0x65]) = .next (after s0 [0x65]) ∧ (s0Rx [0x65]).EvenFlash :=
  ⟨⟨by decide, by decide, by decide, by decide, by decide, by decide, by decide, trivial⟩, rfl,
    fun _ h => absurd h List.not_mem_nil⟩
theorem witness_InvariantKept :
    (s0Rx [0x65]).Inv ∧ step (s0Rx [0x65]) = .next (after s0 [0x65]) :=
  ⟨⟨by decide, by decide, by decide, by decide, by decide, by decide, by decide, trivial⟩, rfl⟩
/-- With a page erase, a page write and an EEPROM write pending: a cell on each side of the page's first. -/
theorem witness_ResetTaken :
    s0.cfg.wf ∧ (under s0 [.reset]).env = .reset :: [] ∧
    (0x10 : Word).toNat < s0.cfg.bootStartBytes ∧
    7 < (0x10 : Word).toNat / s0.cfg.pageBytes * s0.cfg.pageWords ∧
    ¬ 8 < (0x10 : Word).toNat / s0.cfg.pageBytes * s0.cfg.pageWords ∧
    (s0At 0x10).ar.toNat < s0.cfg.bootStartBytes ∧
    (s0At 0x1F).ar.toNat < s0.cfg.eepromBytes ∧ 0x1E ≠ (s0At 0x1F).ar.toNat := by decide
/-- The last page of the application region. -/
theorem witness_FlashRoundTrip :
    s0.Inv ∧ s0.cfg.flashReadTx = .programWord ∧ s0.cfg.pageWriteEffect = .commit ∧
    2 * (0x1C : Word).toNat % s0.cfg.pageBytes = 0 ∧
    2 * (0x1C : Word).toNat + s0.cfg.pageBytes ≤ s0.cfg.bootStartBytes ∧
    ([1, 2, 3, 4, 5, 6, 7, 8] : List Byte).length = s0.cfg.pageBytes :=
  ⟨s0_inv, by decide, by decide, by decide, by decide, by decide⟩
/-- The last bytes of the EEPROM. -/
theorem witness_EepromRoundTrip :
    s0.cfg.wf ∧ ([1, 2, 3, 4] : List Byte).length ≤ s0.cfg.pageWords ∧
    (0x1C : Word).toNat + ([1, 2, 3, 4] : List Byte).length ≤ s0.cfg.eepromBytes := by decide
/-- The last words of the application region, with an odd length. -/
theorem witness_EraseThenRead :
    s0.cfg.wf ∧ s0.cfg.flashReadTx = .programWord ∧
    2 * (0x1E : Word).toNat + 2 * (((3 : Word).toNat + 1) / 2) ≤ s0.cfg.bootStartBytes ∧
    exec .chiperase s0 = .next s0.chipErase := ⟨by decide, rfl, by decide, rfl⟩
theorem witness_DoubleShift :
    (s0At 4).Inv ∧ (0 : Word).toNat ≤ s0.cfg.pageWords ∧
    ∃ t u, exec (.blkload 0 (some ⟨s0.cfg.mtFlash, []⟩)) (s0At 4) = .next t ∧
      exec (.blkload 0 (some ⟨s0.cfg.mtFlash, []⟩)) t = .next u :=
  ⟨⟨by decide, by decide, by decide, by decide, by decide, by decide, by decide, trivial⟩, by decide,
    _, _, rfl, rfl⟩
/-- One witness for each clause. -/
theorem witness_ReadsInARow :
    s0.cfg.wf ∧
    (∃ t u, exec (.blkread 3 s0.cfg.mtFlash) (s0At 4) = .next t ∧
      exec (.blkread 0 s0.cfg.mtFlash) t = .next u) ∧
    (∃ t u, exec (.blkread 3 s0.cfg.mtEeprom) (s0At 5) = .next t ∧
      exec (.blkread 1 s0.cfg.mtEeprom) t = .next u) :=
  ⟨by decide, ⟨_, _, rfl, rfl⟩, ⟨_, _, rfl, rfl⟩⟩

end Sys2Proof.Tests
end

section
/-! SUPPORT. A whole command and the same command one transaction at a time (O9): `State.RunsTo` says that a
state comes from another by completing pending transactions, each of which is recorded; every loop and every
handler runs, in this sense, to what the whole command computes. -/

namespace Sys2Proof.Machine

/-- The host's stream replaced: what stays the same while a handler takes its bytes is said of the rest of the
state. -/
def State.setRx (s : State) (bs : List Byte) : State := { s with rx := bs }

/-- `t` is what `s` becomes by completing pending transactions, one after another, each one recorded. -/
def State.RunsTo (s t : State) : Prop :=
  ∃ n, State.transact^[n] s = t ∧ t.trace.length = s.trace.length + n

variable {s t u : State} {b : Byte} {rest : List Byte} {p : Phase}

@[simp] theorem State.setRx_cfg : (s.setRx rest).cfg = s.cfg := rfl
@[simp] theorem State.setRx_ar : (s.setRx rest).ar = s.ar := rfl
@[simp] theorem State.setRx_len : (s.setRx rest).len = s.len := rfl
@[simp] theorem State.setRx_mt : (s.setRx rest).mt = s.mt := rfl
@[simp] theorem State.setRx_phase : (s.setRx rest).phase = s.phase := rfl
@[simp] theorem State.setRx_trace : (s.setRx rest).trace = s.trace := rfl

theorem State.setRx_writeEeprom (a : Word) :
    (s.setRx rest).writeEeprom a b = (s.writeEeprom a b).setRx rest := by
  by_cases h : a.toNat < s.cfg.eepromBytes <;> simp [State.writeEeprom, h] <;> rfl

theorem State.setRx_loadByteAt : (s.setRx rest).loadByteAt b = (s.loadByteAt b).setRx rest := by
  show (((s.recv b).setRx rest).writeEeprom s.ar b).advanceAr 1 = _
  rw [State.setRx_writeEeprom]
  rfl

/-! ### Runs of transactions -/

theorem State.RunsTo.refl (s : State) : s.RunsTo s := ⟨0, rfl, rfl⟩

/-- One recorded transaction before a run. -/
theorem State.RunsTo.step (hstep : s.transact = u) (hlen : u.trace.length = s.trace.length + 1)
    (h : u.RunsTo t) : s.RunsTo t := by
  obtain ⟨n, hn, ht⟩ := h
  exact ⟨n + 1, by rwa [Function.iterate_succ_apply, hstep], by omega⟩

theorem State.RunsTo.trans (h : s.RunsTo t) (h' : t.RunsTo u) : s.RunsTo u := by
  obtain ⟨m, hm, hs⟩ := h
  obtain ⟨n, hn, ht⟩ := h'
  exact ⟨n + m, by rw [Function.iterate_add_apply, hm, hn], by omega⟩

theorem State.transact_of_waits (h : s.phase.waits = true) : s.transact = s.receive := by
  unfold State.transact
  cases hp : s.phase <;> simp_all [Phase.waits]

/-- A `Recv` before a run, at any position that waits for a byte. -/
theorem State.RunsTo.recv (hp : p.waits = true) (h : (((s.setRx rest).setPhase p).accept b).RunsTo t) :
    ((s.setRx (b :: rest)).setPhase p).RunsTo t := by
  obtain ⟨-, -, -, -, -, -, -, htrace⟩ := State.accept_frame ((s.setRx rest).setPhase p) b
  have hstep : ((s.setRx (b :: rest)).setPhase p).transact = ((s.setRx rest).setPhase p).accept b :=
    State.transact_of_waits hp
  exact .step hstep (by simp [htrace, hp]) h

/-- Sending the rest of a response one byte at a time is answering it. -/
theorem State.toSend_runsTo (s : State) (bs : List Byte) : (s.toSend bs).RunsTo (s.answer bs) := by
  induction bs generalizing s with
  | nil => exact .refl _
  | cons b bs ih =>
    exact .step (State.setPhase_toSend (s.send b) (.sending b bs) bs) (by simp) (ih (s.send b))

/-- The same from a position inside a handler. -/
theorem State.setPhase_toSend_runsTo (s : State) (p : Phase) (bs : List Byte) :
    ((s.setPhase p).toSend bs).RunsTo (s.answer bs) := by
  rw [State.setPhase_toSend]
  exact s.toSend_runsTo bs

/-! ### chip-erase -/

/-- The erase loop, from a page of the application region to its end (spec/41 R141). -/
theorem State.toErase_runsTo (s : State) (a n : Nat) (hpos : 0 < s.cfg.pageBytes)
    (hboot : s.cfg.bootStartBytes ≤ 65536) (ha : a + n * s.cfg.pageBytes = s.cfg.bootStartBytes) :
    (s.toErase a).RunsTo ((s.eraseLoop a n).answer (replyCr s.cfg)) := by
  induction n generalizing s a with
  | zero =>
    rw [State.toErase, if_neg (by omega)]
    exact s.toSend_runsTo _
  | succ n ih =>
    rw [Nat.succ_mul] at ha
    have haddr : (BitVec.ofNat 16 a).toNat = a := by simp; omega
    have hstep : (s.toErase a).transact =
        (s.pageErase (BitVec.ofNat 16 a)).toErase (a + s.cfg.pageBytes) := by
      rw [State.toErase, if_pos (by omega)]
      show ((s.setPhase _).pageErase _).toErase ((BitVec.ofNat 16 a).toNat + s.cfg.pageBytes) = _
      rw [haddr, State.setPhase_pageErase, State.setPhase_toErase]
    refine .step hstep (by simp) ?_
    have hrest := ih (s.pageErase (BitVec.ofNat 16 a)) (a + s.cfg.pageBytes) (by simpa) (by simpa)
      (by simp; omega)
    rwa [State.pageErase_cfg] at hrest

/-- A well-formed application region is a whole number of pages (R9 (c)). -/
theorem erasePages_mul_pageBytes (c : Config) (h : c.wf) :
    erasePages c * c.pageBytes = c.bootStartBytes := by
  obtain ⟨⟨hpages, -⟩, -, ⟨hdvd, -⟩, -⟩ := h
  have hpos : 0 < c.pageBytes := by unfold Config.pageBytes; omega
  obtain ⟨q, hq⟩ := Nat.dvd_of_mod_eq_zero hdvd
  have hceil : erasePages c = q := by
    rw [erasePages, hq, Nat.mul_add_div hpos, Nat.div_eq_of_lt (by omega), Nat.add_zero]
  rw [hceil, hq, Nat.mul_comm]

theorem State.chipErase_runsTo (hwf : s.cfg.wf) : (s.toErase 0).RunsTo s.chipErase := by
  obtain ⟨⟨hpages, -⟩, -, ⟨-, hboot, hflash⟩, -⟩ := id hwf
  refine s.toErase_runsTo 0 _ (by unfold Config.pageBytes; omega) (by omega) ?_
  rw [Nat.zero_add, erasePages_mul_pageBytes _ hwf]

/-! ### block-load -/

/-- The fill loop, up to the page write (spec/43 R162 step 4). -/
theorem State.toFill_runsTo (s : State) (i n : Nat) (hn : i + n = s.cfg.pageWords) :
    (s.toFill i).RunsTo ((s.fillLoop i n).setPhase .loadWrite) := by
  induction n generalizing s i with
  | zero =>
    rw [State.toFill, if_neg (by omega)]
    exact .refl _
  | succ n ih =>
    have hfill : (s.setPhase (.loadFill i)).transact =
        (s.pageFill (advanceAddress s.ar (2 * i)) (s.bufCell i)).toFill (i + 1) := rfl
    rw [State.toFill, if_pos (by omega)]
    exact .step hfill (by simp) (ih _ (i + 1) (by simp; omega))

/-- The page write and the response (R162 steps 5 and 6). -/
theorem State.loadWrite_runsTo (s : State) :
    (s.setPhase .loadWrite).RunsTo ((s.pageWrite s.ar).answer (replyCr s.cfg)) := by
  refine .step (u := (s.pageWrite s.ar).toSend (replyCr s.cfg)) ?_ (by simp) (State.toSend_runsTo _ _)
  show ((s.setPhase .loadWrite).pageWrite s.ar).toSend (replyCr s.cfg) = _
  rw [State.setPhase_pageWrite, State.setPhase_toSend]

/-- Steps 2 to 6 of R162, the payload being in `BUF`. -/
theorem State.commitBuffer_runsTo (s : State) : (s.shiftAr.setPhase .loadWait).RunsTo s.commitBuffer := by
  have hfill : (s.shiftAr.nvmWait.toFill 0).RunsTo
      ((s.shiftAr.nvmWait.fillLoop 0 s.cfg.pageWords).setPhase .loadWrite) :=
    State.toFill_runsTo _ 0 s.cfg.pageWords (by simp)
  refine .step (u := s.shiftAr.nvmWait.toFill 0) rfl (by simp) (hfill.trans ?_)
  simpa [State.commitBuffer] using State.loadWrite_runsTo (s.shiftAr.nvmWait.fillLoop 0 s.cfg.pageWords)

/-- The payload loop of the flash arm and all that follows it (R162). -/
theorem State.toLoadWord_runsTo (s : State) (i : Nat) (bs rest : List Byte)
    (hlen : 2 * i + bs.length = 2 * s.len.toNat) :
    ((s.setRx (bs ++ rest)).toLoadWord i).RunsTo ((s.setRx rest).loadWords i bs).commitBuffer := by
  induction bs using List.twoStepInduction generalizing s i with
  | nil =>
    rw [State.toLoadWord, if_neg (by simp at hlen ⊢; omega)]
    exact State.commitBuffer_runsTo _
  | singleton => simp at hlen; omega
  | cons_cons hi lo bs ih _ =>
    simp only [List.length_cons] at hlen
    rw [State.toLoadWord, if_pos (by simp; omega)]
    exact .recv rfl (.recv (s := s.recv hi) rfl
      (ih (((s.recv hi).recv lo).setBuf i (joinBytes hi lo)) (i + 1) (by simp; omega)))

/-- The payload loop of the EEPROM arm and the response (R163). -/
theorem State.toLoadByte_runsTo (s : State) (i : Nat) (bs rest : List Byte)
    (hlen : i + bs.length = s.len.toNat) :
    ((s.setRx (bs ++ rest)).toLoadByte i).RunsTo
      (((s.setRx rest).loadBytes bs).answer (replyCr s.cfg)) := by
  induction bs generalizing s i with
  | nil =>
    rw [State.toLoadByte, if_neg (by simp at hlen ⊢; omega)]
    exact State.toSend_runsTo _ _
  | cons b bs ih =>
    simp only [List.length_cons] at hlen
    rw [State.toLoadByte, if_pos (by simp; omega)]
    have hwrite : (((s.recv b).setRx (bs ++ rest)).setPhase (.loadByteWrite i b)).transact =
        ((s.loadByteAt b).setRx (bs ++ rest)).toLoadByte (i + 1) := by
      show (((((s.recv b).setRx (bs ++ rest)).setPhase _).writeEeprom s.ar b).advanceAr 1).toLoadByte _ = _
      rw [State.setPhase_writeEeprom, State.setRx_writeEeprom]
      exact State.setPhase_toLoadByte ((s.loadByteAt b).setRx (bs ++ rest)) _ _
    refine .recv rfl (.step (s := ((s.recv b).setRx (bs ++ rest)).setPhase _) hwrite (by simp) ?_)
    rw [State.loadBytes, State.setRx_loadByteAt]
    have hrest := ih (s.loadByteAt b) (i + 1) (by simp; omega)
    rwa [State.loadByteAt_cfg] at hrest

/-! ### block-read -/

/-- `n` turns of the flash read loop (spec/44 R181). -/
theorem State.toReadWord_runsTo (s : State) (n : Nat) : (s.toReadWord n).RunsTo (s.readWords n).finish := by
  induction n generalizing s with
  | zero => exact .refl _
  | succ n ih =>
    have hread : (s.toReadWord (n + 1)).transact =
        (s.readFlash s.ar).setPhase (.readWordHi s.wordToSend n) := by
      show ((s.setPhase _).readFlash s.ar).setPhase (.readWordHi s.wordToSend n) = _
      rw [State.setPhase_readFlash]; rfl
    have hhigh : ((s.readFlash s.ar).setPhase (.readWordHi s.wordToSend n)).transact =
        ((s.readFlash s.ar).send (highByte s.wordToSend)).setPhase (.readWordLo s.wordToSend n) := rfl
    have hlow : (((s.readFlash s.ar).send (highByte s.wordToSend)).setPhase
        (.readWordLo s.wordToSend n)).transact = s.readWordOut.toReadWord n :=
      State.setPhase_toReadWord s.readWordOut _ _
    exact .step hread (by simp) (.step hhigh (by simp) (.step hlow (by simp [wireBytes]) (ih _)))

/-- `n` turns of the EEPROM read loop (R182). -/
theorem State.toReadByte_runsTo (s : State) (n : Nat) : (s.toReadByte n).RunsTo (s.readBytes n).finish := by
  induction n generalizing s with
  | zero => exact .refl _
  | succ n ih =>
    have hread : (s.toReadByte (n + 1)).transact =
        (s.readEeprom s.ar).setPhase (.readByteOut (s.eepromByte s.ar) n) := by
      show ((s.setPhase _).readEeprom s.ar).setPhase (.readByteOut (s.eepromByte s.ar) n) = _
      rw [State.setPhase_readEeprom]; rfl
    have hsend : ((s.readEeprom s.ar).setPhase (.readByteOut (s.eepromByte s.ar) n)).transact =
        s.readByteOut.toReadByte n := State.setPhase_toReadByte s.readByteOut _ _
    exact .step hread (by simp) (.step hsend (by simp) (ih _))

/-! ### Whole commands -/

/-- The command byte of a well-formed command selects its own row (spec/30 R96). -/
theorem opcodeOf_commandByte (c : Config) (i : Instr) (hwf : c.wf) (hi : i.wf c = true) :
    opcodeOf c.op (commandByte c i) = i.opcode := by
  cases i with
  | enterprog => exact Laws.CommandByte.enterprog c hwf hi
  | leaveprog => exact Laws.CommandByte.leaveprog c hwf hi
  | autoinc => exact Laws.CommandByte.autoinc c hwf hi
  | setaddr a => exact Laws.CommandByte.setaddr a c hwf hi
  | chiperase => exact Laws.CommandByte.chiperase c hwf hi
  | devtype a => exact Laws.CommandByte.devtype a c hwf hi
  | ledset a => exact Laws.CommandByte.ledset a c hwf hi
  | ledclr a => exact Laws.CommandByte.ledclr a c hwf hi
  | readsig => exact Laws.CommandByte.readsig c hwf hi
  | devcodes => exact Laws.CommandByte.devcodes c hwf hi
  | swid => exact Laws.CommandByte.swid c hwf hi
  | swver => exact Laws.CommandByte.swver c hwf hi
  | progtype => exact Laws.CommandByte.progtype c hwf hi
  | exit => exact Laws.CommandByte.exit c hwf hi
  | blksup => exact Laws.CommandByte.blksup c hwf hi
  | blkload l b => exact Laws.CommandByte.blkload l b c hwf hi
  | blkread l m => exact Laws.CommandByte.blkread l m c hwf hi
  | unknown b => exact Laws.CommandByte.unknown b c hwf hi

/-- The three handlers that discard one byte (R124 to R126). -/
theorem State.ignoredArgument_runsTo (s : State) (p : Phase) (b : Byte) (rest : List Byte)
    (hp : p.waits = true)
    (hacc : ((s.setRx rest).setPhase p).accept b =
      (((s.setRx rest).setPhase p).recv b).toSend (replyCr s.cfg)) :
    ((s.setRx (b :: rest)).setPhase p).RunsTo (((s.setRx rest).recv b).answer (replyCr s.cfg)) := by
  refine .recv hp ?_
  rw [hacc]
  exact State.setPhase_toSend_runsTo ((s.setRx rest).recv b) p _

theorem State.setaddr_runsTo (s : State) (a : Word) (rest : List Byte) :
    ((s.setRx (wireBytes a ++ rest)).setPhase .setaddrHi).RunsTo
      (((s.setRx rest).recvWord a).loadAr a) := by
  refine .recv (b := highByte a) (rest := lowByte a :: rest) rfl
    (.recv (s := s.recv (highByte a)) rfl ?_)
  show (((((s.setRx rest).recvWord a).setAr (joinBytes (highByte a) (lowByte a))).setPhase _).toSend
    (replyCr s.cfg)).RunsTo _
  rw [joinBytes_high_low]
  exact State.setPhase_toSend_runsTo _ _ _

@[simp] theorem State.setPhase_lengthLatched : (s.setPhase p).lengthLatched = s.lengthLatched := by
  simp [State.lengthLatched, State.toReject]

@[simp] theorem State.setPhase_loadTypeLatched : (s.setPhase p).loadTypeLatched = s.loadTypeLatched := by
  simp [State.loadTypeLatched, State.toReject]

@[simp] theorem State.setPhase_readTypeLatched : (s.setPhase p).readTypeLatched = s.readTypeLatched := by
  have hshift (n : Nat) : (s.setPhase p).shiftAr.toReadWord n = s.shiftAr.toReadWord n :=
    State.setPhase_toReadWord s.shiftAr p n
  simp [State.readTypeLatched, State.toReject, hshift]

/-- The two length bytes of block-load (spec/43 R160). -/
theorem State.loadLength_runsTo (len : Word)
    (h : (((s.recvWord len).setLen len).setRx rest).lengthLatched.RunsTo t) :
    ((s.setRx (wireBytes len ++ rest)).setPhase .loadLenHi).RunsTo t := by
  refine .recv (b := highByte len) (rest := lowByte len :: rest) rfl
    (.recv (s := s.recv (highByte len)) rfl ?_)
  show (((((s.recvWord len).setLen (joinBytes (highByte len) (lowByte len))).setRx rest).setPhase
    _).lengthLatched).RunsTo t
  rwa [State.setPhase_lengthLatched, joinBytes_high_low]

/-- The arm of block-load that the latched memory type selects (R160). -/
theorem State.loadTypeLatched_runsTo (s : State) (bs rest : List Byte)
    (hlen : bs.length = payloadBytes s.cfg s.len s.mt) :
    (s.setRx (bs ++ rest)).loadTypeLatched.RunsTo ((s.setRx rest).loadBody ⟨s.mt, bs⟩) := by
  unfold State.loadTypeLatched State.loadBody
  unfold payloadBytes at hlen
  simp only [State.setRx_cfg, State.setRx_mt]
  cases hmt : memTarget s.cfg s.mt with
  | none =>
    rw [hmt] at hlen
    rw [List.length_eq_zero_iff.mp hlen]
    exact State.toSend_runsTo _ _
  | some target =>
    rw [hmt] at hlen
    cases target with
    | flash => exact s.toLoadWord_runsTo 0 bs rest (by simpa using hlen)
    | eeprom => exact s.toLoadByte_runsTo 0 bs rest (by simpa using hlen)

/-- block-load (R160, R161). -/
theorem State.blkload_runsTo (s : State) (len : Word) (body : Option LoadBody) (rest : List Byte)
    (hfits : LoadBody.fits s.cfg len body = true) :
    ∃ t, execBlkload len body (s.setRx rest) = .next t ∧
      ((s.setRx (argumentBytes (.blkload len body) ++ rest)).setPhase .loadLenHi).RunsTo t := by
  cases body with
  | none =>
    have hover : oversize s.cfg len = true := hfits
    refine ⟨(((s.setRx rest).recvWord len).setLen len).reject .oversizeBlock, ?_,
      State.loadLength_runsTo len ?_⟩
    · simp [execBlkload, hfits, hover]
    · rw [State.lengthLatched, if_pos (by simpa using hover)]
      exact State.toSend_runsTo _ _
  | some body =>
    have hbody := hfits
    simp only [LoadBody.fits, Bool.and_eq_true, Bool.not_eq_true', beq_iff_eq] at hbody
    obtain ⟨hover, hlen⟩ := hbody
    refine ⟨(((((s.setRx rest).recvWord len).setLen len).recv body.memType).setMt body.memType).loadBody
      body, ?_, ?_⟩
    · simp [execBlkload, hfits, hover]
    · rw [argumentBytes, List.append_assoc]
      refine State.loadLength_runsTo len ?_
      rw [State.lengthLatched, if_neg (by simp [hover])]
      refine .recv (b := body.memType) (rest := body.payload ++ rest) rfl ?_
      have harm := State.loadTypeLatched_runsTo
        ((((s.recvWord len).setLen len).recv body.memType).setMt body.memType) body.payload rest
        (by simpa using hlen)
      rwa [← State.setPhase_loadTypeLatched (p := .loadType)] at harm

/-- The arm of block-read that the latched memory type selects (spec/44 R180). -/
theorem State.readTypeLatched_runsTo (s : State) : s.readTypeLatched.RunsTo (s.readBody s.len s.mt) := by
  unfold State.readTypeLatched State.readBody
  cases memTarget s.cfg s.mt with
  | none => exact s.toSend_runsTo _
  | some target =>
    cases target with
    | flash => exact s.shiftAr.toReadWord_runsTo _
    | eeprom => exact s.toReadByte_runsTo _

/-- block-read (R180). -/
theorem State.blkread_runsTo (s : State) (len : Word) (mt : Byte) (rest : List Byte) :
    ∃ t, execBlkread len mt (s.setRx rest) = .next t ∧
      ((s.setRx (argumentBytes (.blkread len mt) ++ rest)).setPhase .readLenHi).RunsTo t := by
  refine ⟨_, rfl, .recv (b := highByte len) (rest := lowByte len :: mt :: rest) rfl
    (.recv (s := s.recv (highByte len)) rfl ?_)⟩
  show ((((s.recvWord len).setLen (joinBytes (highByte len) (lowByte len))).setRx (mt :: rest)).setPhase
    .readType).RunsTo _
  rw [joinBytes_high_low]
  have harm := State.readTypeLatched_runsTo
    (((((s.setRx rest).recvWord len).setLen len).recv mt).setMt mt)
  rw [← State.setPhase_readTypeLatched (p := .readType)] at harm
  exact .recv rfl harm

/-- A well-formed command, its command byte taken: the handler it selects runs, one transaction at a time, to
what the whole command computes. -/
theorem State.dispatch_runsTo (s : State) (i : Instr) (rest : List Byte) (hwf : s.cfg.wf)
    (hi : i.wf s.cfg = true) :
    ∃ t, exec i (s.setRx rest) = .next t ∧
      ((s.setRx (argumentBytes i ++ rest)).dispatch (commandByte s.cfg i)).RunsTo t := by
  unfold State.dispatch
  rw [State.setRx_cfg, opcodeOf_commandByte s.cfg i hwf hi]
  cases i with
  | enterprog | leaveprog | autoinc | readsig | devcodes | swid | swver | progtype | blksup | unknown =>
    exact ⟨_, rfl, State.toSend_runsTo (s.setRx rest) _⟩
  | setaddr a => exact ⟨_, rfl, s.setaddr_runsTo a rest⟩
  | chiperase => exact ⟨_, rfl, State.chipErase_runsTo (s := s.setRx rest) hwf⟩
  | devtype b | ledset b | ledclr b => exact ⟨_, rfl, s.ignoredArgument_runsTo _ b rest rfl rfl⟩
  | exit =>
    exact ⟨_, rfl, .step (s := (s.setRx rest).setPhase .handingOff) (u := (s.setRx rest).handOff) rfl
      (by simp) (.refl _)⟩
  | blkload len body => exact s.blkload_runsTo len body rest hi
  | blkread len mt => exact s.blkread_runsTo len mt rest

/-- A well-formed command at the head of the stream, in `AwaitCommand`: single transactions run to what `exec`
computes, once the command byte has been received. -/
theorem State.command_runsTo (s : State) (i : Instr) (rest : List Byte) (hwf : s.cfg.wf)
    (hphase : s.phase = .awaitCommand) (hi : i.wf s.cfg = true) (hrx : s.rx = encode s.cfg i ++ rest) :
    ∃ t, exec i ((s.setRx rest).recv (commandByte s.cfg i)) = .next t ∧ s.RunsTo t := by
  obtain ⟨t, hexec, hruns⟩ := (s.recv (commandByte s.cfg i)).dispatch_runsTo i rest hwf hi
  refine ⟨t, hexec, ?_⟩
  have hs : s = (s.setRx (commandByte s.cfg i :: (argumentBytes i ++ rest))).setPhase .awaitCommand := by
    rw [← hphase]
    show s = { s with rx := encode s.cfg i ++ rest }
    rw [← hrx]
  rw [hs]
  exact .recv rfl hruns

/-- With the environment completing `n` transactions, `n` steps complete `n` transactions, whatever it does
after them. -/
theorem run_complete (s : State) (n : Nat) (moves : List EnvMove) (hwf : s.cfg.wf) :
    Sys2Proof.core.run n (s.dropMove (List.replicate n .complete ++ moves)) =
      .next (State.transact^[n] (s.dropMove moves)) := by
  induction n generalizing s with
  | zero => rfl
  | succ n ih =>
    have hstep : Sys2Proof.core.step (s.dropMove (List.replicate (n + 1) .complete ++ moves)) =
        .next (s.transact.dropMove (List.replicate n .complete ++ moves)) := by
      rw [← State.dropMove_transact]
      exact if_pos hwf
    rw [Function.iterate_succ_apply, State.dropMove_transact, ← ih s.transact (by rwa [s.transact_frame.1])]
    simp only [Host.Core.run, hstep]

/-- Settles O9: the handlers' runs of single transactions, taken as steps. -/
theorem transactionwiseAgrees : Obligations.TransactionwiseAgrees := by
  intro s i rest moves hwf hphase hi hrx
  obtain ⟨t, hexec, n, hn, hlen⟩ := (s.dropMove moves).command_runsTo i rest hwf hphase hi hrx
  exact ⟨t, n, hexec, hlen, hn ▸ run_complete s n moves hwf⟩

end Sys2Proof.Machine
end

section
/-! SUPPORT. What the decoder reads, and what a step is made of: a reset, a move of the environment that passes,
or completed transactions. What each of these keeps, every step keeps. -/

namespace Sys2Proof

open Machine

variable {c : Config} {bs rest : List Byte} {i : Instr}

/-- A word read from two bytes has these bytes on the wire (R63). -/
@[simp] theorem wireBytes_joinBytes (hi lo : Byte) : wireBytes (joinBytes hi lo) = [hi, lo] := by
  rw [wireBytes, highByte_joinBytes, lowByte_joinBytes]

theorem decodeF1_ok {mk : Byte → Instr} (h : decodeF1 mk bs = .ok (i, rest)) :
    ∃ arg, i = mk arg ∧ bs = arg :: rest := by
  match bs, h with
  | arg :: _, h => cases h; exact ⟨arg, rfl, rfl⟩

theorem decodeFA_ok (h : decodeFA bs = .ok (i, rest)) :
    ∃ a, i = .setaddr a ∧ bs = wireBytes a ++ rest := by
  match bs, h with
  | hi :: lo :: _, h => cases h; exact ⟨_, rfl, by simp⟩

theorem decodeFBR_ok (h : decodeFBR bs = .ok (i, rest)) :
    ∃ len mt, i = .blkread len mt ∧ bs = wireBytes len ++ mt :: rest := by
  match bs, h with
  | hi :: lo :: mt :: _, h => cases h; exact ⟨_, mt, rfl, by simp⟩

theorem decodeFBL_ok (h : decodeFBL c bs = .ok (i, rest)) :
    ∃ len body, i = .blkload len body ∧ LoadBody.fits c len body = true ∧
      bs = argumentBytes (.blkload len body) ++ rest := by
  match bs, h with
  | hi :: lo :: bs, h =>
    unfold decodeFBL at h
    dsimp only at h
    by_cases hover : oversize c (joinBytes hi lo) = true
    · rw [if_pos hover] at h
      cases h
      exact ⟨_, none, rfl, hover, by simp [argumentBytes]⟩
    · rw [if_neg hover] at h
      match bs, h with
      | mt :: bs, h =>
        dsimp only at h
        by_cases hshort : bs.length < payloadBytes c (joinBytes hi lo) mt
        · rw [if_pos hshort] at h; cases h
        · rw [if_neg hshort] at h
          cases h
          refine ⟨_, some ⟨mt, _⟩, rfl, ?_, by simp [argumentBytes]⟩
          simpa [LoadBody.fits, hover] using hshort

/-- The arguments of the selected row: what is decoded belongs to the row, and its arguments are the bytes
taken. -/
theorem decodeArgs_ok {cmd : Byte} {o : Opcode} (h : decodeArgs c cmd o bs = .ok (i, rest)) :
    i.opcode = o ∧ bs = argumentBytes i ++ rest ∧
      (if o = .unknown then i = .unknown cmd else i.wf c = true) := by
  cases o <;> simp only [decodeArgs] at h
  case setaddr => obtain ⟨a, rfl, rfl⟩ := decodeFA_ok h; exact ⟨rfl, rfl, rfl⟩
  case devtype | ledset | ledclr => obtain ⟨arg, rfl, rfl⟩ := decodeF1_ok h; exact ⟨rfl, rfl, rfl⟩
  case blkload => obtain ⟨len, body, rfl, hfits, rfl⟩ := decodeFBL_ok h; exact ⟨rfl, rfl, hfits⟩
  case blkread => obtain ⟨len, mt, rfl, rfl⟩ := decodeFBR_ok h; exact ⟨rfl, by simp [argumentBytes], rfl⟩
  all_goals cases h; exact ⟨rfl, rfl, rfl⟩

/-- What the decoder reads is a well-formed command, and its encoding is the bytes taken (spec/30 R96, R98). -/
theorem decode_ok (h : decode c bs = .ok (i, rest)) : i.wf c = true ∧ bs = encode c i ++ rest := by
  cases bs with
  | nil => cases h
  | cons cmd bs =>
    obtain ⟨hrow, rfl, hi⟩ := decodeArgs_ok h
    by_cases hunknown : opcodeOf c.op cmd = .unknown
    · rw [if_pos hunknown] at hi
      subst hi
      have hnone : c.op.Matches cmd .unknown := hunknown ▸ opcodeOf_matches c.op cmd
      exact ⟨by simpa [Instr.wf, OpBytes.Matches] using hnone, rfl⟩
    · rw [if_neg hunknown] at hi
      rw [encode, commandByte_of_opcode c cmd i hrow.symm (hrow ▸ hunknown)]
      exact ⟨hi, rfl⟩

namespace Machine

variable {s t : State}

/-- A step with the completion premise that runs a whole command completes the command's transactions. -/
theorem exec_eq_transact_iterate (hwf : s.cfg.wf) (hphase : s.phase = .awaitCommand)
    (hdec : decode s.cfg s.rx = .ok (i, rest)) (hexec : exec i (s.takeCommand rest) = .next t) :
    ∃ n, t = State.transact^[n] s := by
  obtain ⟨hi, hrx⟩ := decode_ok hdec
  obtain ⟨u, hu, n, hn, -⟩ := s.command_runsTo i rest hwf hphase hi hrx
  have htake : s.takeCommand rest = (s.setRx rest).recv (commandByte s.cfg i) := by
    rw [State.takeCommand, hrx]; rfl
  rw [htake, hu] at hexec
  injection hexec with hut
  exact ⟨n, by rw [hn, hut]⟩

/-- What a passing move of the environment, a completed transaction and a reset keep, every step keeps. -/
theorem step_keeps {P : State → Prop} (hmove : ∀ u moves, P u → P (u.dropMove moves))
    (htransact : ∀ u, P u → P u.transact) (hreset : ∀ u, P u → P u.takeReset)
    (h : step s = .next t) (hs : P s) : P t := by
  obtain ⟨hwf, ⟨moves, -, rfl⟩ | ⟨moves, -, rfl⟩ | ⟨moves, -, rfl⟩ |
    ⟨-, hphase, i, rest, hdec, hexec⟩ | ⟨-, rfl⟩⟩ := step_cases h
  · exact hreset _ (hmove _ _ hs)
  · obtain ⟨-, hsame⟩ | ⟨-, post, -, -, hmoved⟩ := s.stalled_cases moves
    · rwa [hsame]
    · rw [hmoved]; exact hmove _ _ hs
  · exact htransact _ (hmove _ _ hs)
  · obtain ⟨n, rfl⟩ := exec_eq_transact_iterate hwf hphase hdec hexec
    exact Function.Iterate.rec P hs htransact n
  · exact htransact _ hs

/-- Settles O43: neither a reset nor a completed transaction writes the configuration. -/
theorem configurationConstant : Obligations.ConfigurationConstant := by
  intro s t h
  refine step_keeps (P := fun u => u.cfg = s.cfg) (fun _ _ hu => hu) (fun u hu => ?_) (fun u hu => ?_) h rfl
  · exact u.transact_frame.1.trans hu
  · exact u.abandon_frame.1.trans hu

/-- Settles O11: a step tests the configuration before anything else. -/
theorem illConfiguredFaults : Obligations.IllConfiguredFaults :=
  fun _ hwf => if_neg hwf

end Machine
end Sys2Proof
end

section
/-! SUPPORT. The invariant (O44, O45): the part that speaks of the configuration, the buffers and the memories is
kept by every operation of the model; the position is fitted by each test that chooses it. -/

namespace Sys2Proof.Machine

/-- The invariant without the position: what no change of `AR`, the latches, the position, the stream, the moves
or the record can break. -/
def State.DataInv (s : State) : Prop :=
  s.cfg.wf ∧ s.buf.length = s.cfg.pageWords ∧ s.pb.length = s.cfg.pageWords ∧
  (s.flash.wf = true ∧ s.flash.within (Config.flashWords s.cfg) = true) ∧
  (s.eeprom.wf = true ∧ s.eeprom.within s.cfg.eepromBytes = true)

theorem State.inv_iff {s : State} : s.Inv ↔ s.DataInv ∧ s.PhaseFits :=
  ⟨fun ⟨hwf, hbuf, hpb, hflash, hfin, heeprom, hein, hfits⟩ =>
      ⟨⟨hwf, hbuf, hpb, ⟨hflash, hfin⟩, heeprom, hein⟩, hfits⟩,
    fun ⟨⟨hwf, hbuf, hpb, ⟨hflash, hfin⟩, heeprom, hein⟩, hfits⟩ =>
      ⟨hwf, hbuf, hpb, hflash, hfin, heeprom, hein, hfits⟩⟩

variable {s : State} {a w : Word} {b : Byte} {i n : Nat}

/-! ### The memories -/

/-- The flash, and the counter of draws, replaced. -/
theorem State.DataInv.setFlash {m : Memory 16} (h : s.DataInv) (d : Nat) (hm : m.wf = true)
    (hin : m.within (Config.flashWords s.cfg) = true) : State.DataInv { s with flash := m, draws := d } := by
  obtain ⟨hwf, hbuf, hpb, -, heeprom⟩ := h
  exact ⟨hwf, hbuf, hpb, ⟨hm, hin⟩, heeprom⟩

/-- The EEPROM, and the counter of draws, replaced. -/
theorem State.DataInv.setEeprom {m : Memory 8} (h : s.DataInv) (d : Nat) (hm : m.wf = true)
    (hin : m.within s.cfg.eepromBytes = true) : State.DataInv { s with eeprom := m, draws := d } := by
  obtain ⟨hwf, hbuf, hpb, hflash, -⟩ := h
  exact ⟨hwf, hbuf, hpb, hflash, hm, hin⟩

/-- An application page lies inside the flash (spec/00 R9 (c)). -/
theorem pageBase_add_pageWords_le (c : Config) (a : Word) (hwf : c.wf)
    (ha : a.toNat < c.bootStartBytes) : pageBase c a + c.pageWords ≤ Config.flashWords c := by
  obtain ⟨⟨hpages, -⟩, -, ⟨hdvd, hboot, -⟩, -⟩ := hwf
  obtain ⟨q, hq⟩ := Nat.dvd_of_mod_eq_zero hdvd
  have hlt : a.toNat / c.pageBytes < q := Nat.div_lt_of_lt_mul (hq ▸ ha)
  have hpage : (a.toNat / c.pageBytes + 1) * c.pageWords ≤ q * c.pageWords := Nat.mul_le_mul_right _ hlt
  have hbytes : c.bootStartBytes = 2 * (q * c.pageWords) := by rw [hq, Config.pageBytes]; ring
  rw [Nat.succ_mul] at hpage
  unfold pageBase Config.flashWords
  omega

/-- A page of words written at an address of the application region. -/
theorem State.DataInv.writePage {ws : List Word} (h : s.DataInv) (d : Nat)
    (ha : a.toNat < s.cfg.bootStartBytes) (hws : ws.length = s.cfg.pageWords) :
    State.DataInv { s with flash := s.flash.writeRun (pageBase s.cfg a) ws, draws := d } := by
  obtain ⟨hwf, -, -, ⟨hflash, hin⟩, -⟩ := id h
  refine h.setFlash d (Memory.writeRun_wf _ _ _ hflash) (Memory.writeRun_within _ _ _ _ ?_ hin)
  rw [hws]
  exact pageBase_add_pageWords_le _ _ hwf ha

theorem State.DataInv.drawFlash (h : s.DataInv) : s.drawFlash.DataInv :=
  h.setFlash _ (Memory.drawn_wf _ _) (Memory.drawn_within _ _)

theorem State.DataInv.drawEeprom (h : s.DataInv) : s.drawEeprom.DataInv :=
  h.setEeprom _ (Memory.drawn_wf _ _) (Memory.drawn_within _ _)

theorem State.DataInv.pageErase (h : s.DataInv) (a : Word) : (s.pageErase a).DataInv := by
  obtain ⟨-, -, -, ⟨hflash, hin⟩, -⟩ := id h
  unfold State.pageErase
  dsimp only
  split
  · exact State.DataInv.setFlash (s := s.log _) h _ (Memory.eraseRun_wf _ _ _ hflash)
      (Memory.eraseRun_within _ _ _ _ hin)
  · exact State.DataInv.drawFlash (s := s.log _) h

theorem State.DataInv.pageWrite (h : s.DataInv) (a : Word) : (s.pageWrite a).DataInv := by
  unfold State.pageWrite
  dsimp only
  split
  · exact State.DataInv.writePage (s := s.log _) h _ ‹_› (by simp [State.writtenPage])
  · exact State.DataInv.drawFlash (s := s.log _) h

theorem State.DataInv.tearPage (h : s.DataInv) (a : Word) : (s.tearPage a).DataInv := by
  unfold State.tearPage
  split
  · exact h.writePage _ ‹_› (by simp)
  · exact h.drawFlash

theorem State.DataInv.writeByte (h : s.DataInv) (d : Nat) (ha : a.toNat < s.cfg.eepromBytes) (b : Byte) :
    State.DataInv { s with eeprom := s.eeprom.write a.toNat b, draws := d } := by
  obtain ⟨-, -, -, -, heeprom, hin⟩ := id h
  exact h.setEeprom d (Memory.write_wf _ _ _ heeprom) (Memory.write_within _ _ _ _ ha hin)

theorem State.DataInv.writeEeprom (h : s.DataInv) (a : Word) (b : Byte) : (s.writeEeprom a b).DataInv := by
  unfold State.writeEeprom
  dsimp only
  split
  · exact State.DataInv.writeByte (s := s.log _) h _ ‹_› b
  · exact State.DataInv.drawEeprom (s := s.log _) h

theorem State.DataInv.tearByte (h : s.DataInv) (a : Word) : (s.tearByte a).DataInv := by
  unfold State.tearByte
  split
  · exact h.writeByte _ ‹_› _
  · exact h.drawEeprom

theorem State.DataInv.pageFill (h : s.DataInv) (a w : Word) : (s.pageFill a w).DataInv := by
  simpa [State.DataInv] using h

theorem State.DataInv.readFlash (h : s.DataInv) (a : Word) : (s.readFlash a).DataInv := by
  simpa [State.DataInv] using h

theorem State.DataInv.readEeprom (h : s.DataInv) (a : Word) : (s.readEeprom a).DataInv := by
  simpa [State.DataInv] using h

/-- A completed `Recv` writes at most one cell of `BUF`. -/
theorem State.accept_buf_length (s : State) (b : Byte) : (s.accept b).buf.length = s.buf.length := by
  unfold State.accept
  cases s.phase <;> simp

theorem State.DataInv.accept (h : s.DataInv) (b : Byte) : (s.accept b).DataInv := by
  obtain ⟨hcfg, -, -, hflash, heeprom, hpb, -⟩ := s.accept_frame b
  simpa [State.DataInv, State.accept_buf_length, hcfg, hflash, heeprom, hpb] using h

/-! ### The position -/

@[simp] theorem State.dataInv_toSend (bs : List Byte) : (s.toSend bs).DataInv ↔ s.DataInv := by
  simp [State.DataInv]
@[simp] theorem State.dataInv_toErase : (s.toErase n).DataInv ↔ s.DataInv := by simp [State.DataInv]
@[simp] theorem State.dataInv_toFill : (s.toFill i).DataInv ↔ s.DataInv := by simp [State.DataInv]
@[simp] theorem State.dataInv_toLoadByte : (s.toLoadByte i).DataInv ↔ s.DataInv := by simp [State.DataInv]
@[simp] theorem State.dataInv_toReadWord : (s.toReadWord n).DataInv ↔ s.DataInv := by simp [State.DataInv]
@[simp] theorem State.dataInv_toReadByte : (s.toReadByte n).DataInv ↔ s.DataInv := by simp [State.DataInv]

/-- The shifted address is even (spec/20 R65). -/
theorem State.shiftAr_evenAr (s : State) : s.shiftAr.EvenAr := by
  unfold State.EvenAr
  rw [State.shiftAr_ar, shiftAddress_eq, addr_toNat]
  omega

theorem State.EvenAr.advanceAr (h : s.EvenAr) : (s.advanceAr 2).EvenAr := by
  unfold State.EvenAr at h ⊢
  rw [State.advanceAr_ar, advanceAddress_eq, addr_toNat]
  omega

theorem State.toSend_fits (s : State) (bs : List Byte) : (s.toSend bs).PhaseFits := by
  cases bs <;> trivial

theorem State.toErase_fits (hwf : s.cfg.wf) (hn : n % s.cfg.pageBytes = 0) : (s.toErase n).PhaseFits := by
  obtain ⟨-, -, ⟨-, hboot, hflash⟩, -⟩ := hwf
  unfold State.toErase
  split
  · have haddr : (BitVec.ofNat 16 n).toNat = n := by simp; omega
    show (BitVec.ofNat 16 n).toNat < s.cfg.bootStartBytes ∧ (BitVec.ofNat 16 n).toNat % s.cfg.pageBytes = 0
    rw [haddr]
    exact ⟨‹_›, hn⟩
  · exact s.toSend_fits _

theorem State.toFill_fits (h : s.EvenAr) : (s.toFill i).PhaseFits := by
  unfold State.toFill
  split
  · exact ⟨‹_›, h⟩
  · exact h

theorem State.toLoadWord_fits (hlen : s.len.toNat ≤ s.cfg.pageWords)
    (hmt : memTarget s.cfg s.mt = some .flash) : (s.toLoadWord i).PhaseFits := by
  unfold State.toLoadWord
  split
  · exact ⟨‹_›, hlen, hmt⟩
  · exact s.shiftAr_evenAr

theorem State.toLoadByte_fits (hlen : s.len.toNat ≤ s.cfg.pageWords)
    (hmt : memTarget s.cfg s.mt = some .eeprom) : (s.toLoadByte i).PhaseFits := by
  unfold State.toLoadByte
  split
  · exact ⟨‹_›, hlen, hmt⟩
  · exact s.toSend_fits _

theorem State.toReadWord_fits (h : s.EvenAr) : (s.toReadWord n).PhaseFits := by
  cases n with
  | zero => trivial
  | succ n => exact h

theorem State.toReadByte_fits (s : State) (n : Nat) : (s.toReadByte n).PhaseFits := by
  cases n <;> trivial

theorem State.dispatch_fits (hwf : s.cfg.wf) (b : Byte) : (s.dispatch b).PhaseFits := by
  unfold State.dispatch
  cases opcodeOf s.cfg.op b
  case chiperase => exact State.toErase_fits hwf (Nat.zero_mod _)
  case setaddr | devtype | ledset | ledclr | exit | blkload | blkread => trivial
  all_goals exact s.toSend_fits _

theorem State.lengthLatched_fits (s : State) : s.lengthLatched.PhaseFits := by
  unfold State.lengthLatched
  split
  · exact s.toSend_fits _
  · show s.len.toNat ≤ s.cfg.pageWords
    simp_all [oversize]

theorem State.loadTypeLatched_fits (hlen : s.len.toNat ≤ s.cfg.pageWords) : s.loadTypeLatched.PhaseFits := by
  unfold State.loadTypeLatched
  split
  · exact State.toLoadWord_fits hlen ‹_›
  · exact State.toLoadByte_fits hlen ‹_›
  · exact s.toSend_fits _

theorem State.readTypeLatched_fits (s : State) : s.readTypeLatched.PhaseFits := by
  unfold State.readTypeLatched
  split
  · exact State.toReadWord_fits s.shiftAr_evenAr
  · exact s.toReadByte_fits _
  · exact s.toSend_fits _

/-- A completed `Recv` goes on to a position that fits. -/
theorem State.accept_fits (hwf : s.cfg.wf) (hfits : s.PhaseFits) (b : Byte) : (s.accept b).PhaseFits := by
  have hstay := hfits
  unfold State.PhaseFits at hfits
  unfold State.accept
  cases hp : s.phase <;> simp only [hp] at hfits ⊢
  case awaitCommand => exact State.dispatch_fits (s := s.recv b) hwf b
  case devtypeArg | ledsetArg | ledclrArg | setaddrLo => exact State.toSend_fits _ _
  case setaddrHi | loadLenHi | readLenHi | readLenLo => trivial
  case loadLenLo => exact State.lengthLatched_fits _
  case loadType => exact State.loadTypeLatched_fits (s := (s.recv b).setMt b) hfits
  case loadWordHi | loadByte => exact hfits
  case loadWordLo i hi =>
    obtain ⟨-, hlen, hmt⟩ := hfits
    exact State.toLoadWord_fits (s := (s.recv b).setBuf i _) hlen hmt
  case readType => exact State.readTypeLatched_fits _
  all_goals exact hstay

theorem State.Inv.receive (h : s.Inv) : s.receive.Inv := by
  unfold State.receive
  split
  next => exact h
  next b rest _ =>
    obtain ⟨hdata, hfits⟩ := State.inv_iff.mp h
    exact State.inv_iff.mpr ⟨State.DataInv.accept (s := s.setRx rest) hdata b,
      State.accept_fits (s := s.setRx rest) hdata.1 hfits b⟩

/-- A completed transaction keeps the invariant. -/
theorem State.Inv.transact (h : s.Inv) : s.transact.Inv := by
  have hreceive := h.receive
  obtain ⟨hdata, hfits⟩ := State.inv_iff.mp h
  unfold State.PhaseFits at hfits
  unfold State.transact
  cases hp : s.phase <;> simp only [hp] at hfits ⊢
  case sending b bs => exact State.inv_iff.mpr ⟨State.dataInv_toSend bs |>.mpr hdata, State.toSend_fits _ _⟩
  case erasing a =>
    obtain ⟨-, hpage⟩ := hfits
    refine State.inv_iff.mpr ⟨State.dataInv_toErase.mpr (hdata.pageErase a), State.toErase_fits ?_ ?_⟩
    · simpa using hdata.1
    · simpa using hpage
  case handingOff => exact State.inv_iff.mpr ⟨hdata, trivial⟩
  case loadWait =>
    exact State.inv_iff.mpr ⟨State.dataInv_toFill.mpr hdata, State.toFill_fits (s := s.nvmWait) hfits⟩
  case loadFill i =>
    exact State.inv_iff.mpr ⟨State.dataInv_toFill.mpr (hdata.pageFill _ _),
      State.toFill_fits (s := s.pageFill _ _) hfits.2⟩
  case loadWrite =>
    exact State.inv_iff.mpr ⟨State.dataInv_toSend _ |>.mpr (hdata.pageWrite _), State.toSend_fits _ _⟩
  case loadByteWrite i b =>
    obtain ⟨-, hlen, hmt⟩ := hfits
    refine State.inv_iff.mpr ⟨State.dataInv_toLoadByte.mpr (hdata.writeEeprom s.ar b),
      State.toLoadByte_fits ?_ ?_⟩
    · simpa using hlen
    · simpa using hmt
  case readWord n =>
    refine State.inv_iff.mpr ⟨hdata.readFlash s.ar, ?_⟩
    simpa [State.PhaseFits, State.EvenAr] using hfits
  case readWordHi w n => exact State.inv_iff.mpr ⟨hdata, hfits⟩
  case readWordLo w n =>
    exact State.inv_iff.mpr ⟨State.dataInv_toReadWord.mpr hdata,
      State.toReadWord_fits (State.EvenAr.advanceAr (s := s.send _) hfits)⟩
  case readByte n => exact State.inv_iff.mpr ⟨hdata.readEeprom s.ar, trivial⟩
  case readByteOut b n =>
    exact State.inv_iff.mpr ⟨State.dataInv_toReadByte.mpr hdata, State.toReadByte_fits _ _⟩
  case handedOff => exact h
  all_goals exact hreceive

/-- A pending transaction abandoned keeps the data: the torn page or byte stays inside its memory (R231). -/
theorem State.DataInv.abandon (h : s.DataInv) : s.abandon.DataInv := by
  unfold State.abandon
  cases s.phase
  case erasing | loadWrite => exact h.tearPage _
  case loadByteWrite => exact h.tearByte _
  all_goals exact h

theorem State.Inv.dropMove (h : s.Inv) (moves : List EnvMove) : (s.dropMove moves).Inv := by
  obtain ⟨hdata, hfits⟩ := State.inv_iff.mp h
  exact State.inv_iff.mpr ⟨hdata, hfits⟩

/-- A reset keeps the invariant: both buffers are drawn with `PAGE_WORDS` cells, the memories stay. -/
theorem State.Inv.takeReset (h : s.Inv) : s.takeReset.Inv := by
  obtain ⟨hdata, -⟩ := State.inv_iff.mp h
  obtain ⟨hwf, -, -, hflash, heeprom⟩ := hdata.abandon
  have hbuf : s.takeReset.buf.length = s.takeReset.cfg.pageWords := by simp [State.takeReset]
  have hpb : s.takeReset.pb.length = s.takeReset.cfg.pageWords := by simp [State.takeReset]
  exact State.inv_iff.mpr ⟨⟨hwf, hbuf, hpb, hflash, heeprom⟩, trivial⟩

/-- Settles O44: a passing move, a completed transaction and a reset each keep the invariant. -/
theorem invariantKept : Obligations.InvariantKept := fun _ _ hs h =>
  step_keeps (fun _ moves hu => hu.dropMove moves) (fun _ => State.Inv.transact)
    (fun _ => State.Inv.takeReset) h hs

/-! ### At reset -/

theorem State.launch_inv (c : Config) (hwf : c.wf) : (State.launch c).Inv := by
  obtain ⟨-, -, -, -, -, -, -, hbuf, hpb⟩ := id hwf
  exact State.inv_iff.mpr ⟨⟨hwf, hbuf, hpb, ⟨rfl, rfl⟩, rfl, rfl⟩, trivial⟩

/-- Nothing is recorded at launch. -/
theorem State.launch_evenFlash (c : Config) : (State.launch c).EvenFlash := nofun

/-- Settles O45: `State.reset` is the launch under a well-formed configuration. -/
theorem invariantAtReset : Obligations.InvariantAtReset :=
  ⟨fun c hwf => ⟨State.launch_inv c hwf, State.launch_evenFlash c⟩,
    State.launch_inv _ (by decide), State.launch_evenFlash _⟩

end Sys2Proof.Machine
end

section
/-! SUPPORT. The record has no influence (O42): two states that differ only in the record before a command, the
position and the environment's moves (`State.Twins`) stay so under every operation of the model, and so under every
command. -/

namespace Sys2Proof.Machine

/-- `u` is `s` but for its position, its moves and what its record began with: the transactions that `s` has recorded
since `old` are those that `u` has recorded since `old'`. -/
def State.Twins (old old' : List Txn) (moves : List EnvMove) (s u : State) : Prop :=
  ∃ new p, s.trace = old ++ new ∧ u = { s with trace := old' ++ new, phase := p, env := moves }

variable {old old' : List Txn} {moves : List EnvMove} {s t u : State} {a w len : Word} {i n : Nat}
  {bs : List Byte} {body : LoadBody}

/-! ### What a block-load computes -/

/-- A block-load without a body is a command exactly when its length is oversize, and is rejected (spec/43 R161). -/
theorem execBlkload_none_iff : execBlkload len none s = .next t ↔
    oversize s.cfg len = true ∧ ((s.recvWord len).setLen len).reject .oversizeBlock = t := by
  by_cases hover : oversize s.cfg len = true <;> simp [execBlkload, LoadBody.fits, hover]

/-- A block-load with a body is a command exactly when the body has the shape of its length and type; the arm of the
memory type then runs (R160). -/
theorem execBlkload_some_iff : execBlkload len (some body) s = .next t ↔
    LoadBody.fits s.cfg len (some body) = true ∧
      ((((s.recvWord len).setLen len).recv body.memType).setMt body.memType).loadBody body = t := by
  by_cases hfits : LoadBody.fits s.cfg len (some body) = true
  · have hover : oversize s.cfg len = false := by
      simp only [LoadBody.fits, Bool.and_eq_true, Bool.not_eq_true'] at hfits
      exact hfits.1
    simp [execBlkload, hfits, hover]
  · simp [execBlkload, hfits]

namespace State.Twins

/-! ### Single operations -/

theorem cfg (h : s.Twins old old' moves u) : u.cfg = s.cfg := by
  obtain ⟨-, -, -, rfl⟩ := h; rfl

theorem ar (h : s.Twins old old' moves u) : u.ar = s.ar := by
  obtain ⟨-, -, -, rfl⟩ := h; rfl

theorem bufCell (h : s.Twins old old' moves u) (i : Nat) : u.bufCell i = s.bufCell i := by
  obtain ⟨-, -, -, rfl⟩ := h; rfl

theorem wordToSend (h : s.Twins old old' moves u) : u.wordToSend = s.wordToSend := by
  obtain ⟨-, -, -, rfl⟩ := h; rfl

theorem eepromByte (h : s.Twins old old' moves u) (a : Word) : u.eepromByte a = s.eepromByte a := by
  obtain ⟨-, -, -, rfl⟩ := h; rfl

theorem setAr (h : s.Twins old old' moves u) (w : Word) : (s.setAr w).Twins old old' moves (u.setAr w) := by
  obtain ⟨new, p, hs, rfl⟩ := h; exact ⟨new, p, hs, rfl⟩

theorem setBuf (h : s.Twins old old' moves u) (i : Nat) (w : Word) :
    (s.setBuf i w).Twins old old' moves (u.setBuf i w) := by
  obtain ⟨new, p, hs, rfl⟩ := h; exact ⟨new, p, hs, rfl⟩

theorem setLen (h : s.Twins old old' moves u) (w : Word) : (s.setLen w).Twins old old' moves (u.setLen w) := by
  obtain ⟨new, p, hs, rfl⟩ := h; exact ⟨new, p, hs, rfl⟩

theorem setMt (h : s.Twins old old' moves u) (b : Byte) : (s.setMt b).Twins old old' moves (u.setMt b) := by
  obtain ⟨new, p, hs, rfl⟩ := h; exact ⟨new, p, hs, rfl⟩

theorem setPhase (h : s.Twins old old' moves u) (p : Phase) :
    (s.setPhase p).Twins old old' moves (u.setPhase p) := by
  obtain ⟨new, -, hs, rfl⟩ := h; exact ⟨new, p, hs, rfl⟩

theorem advanceAr (h : s.Twins old old' moves u) (n : Nat) :
    (s.advanceAr n).Twins old old' moves (u.advanceAr n) := by
  unfold State.advanceAr; rw [h.ar]; exact h.setAr _

theorem shiftAr (h : s.Twins old old' moves u) : s.shiftAr.Twins old old' moves u.shiftAr := by
  unfold State.shiftAr; rw [h.ar]; exact h.setAr _

theorem log (h : s.Twins old old' moves u) (x : Txn) : (s.log x).Twins old old' moves (u.log x) := by
  obtain ⟨new, p, hs, rfl⟩ := h
  exact ⟨new ++ [x], p, by simp [hs], by simp [State.log]⟩

theorem pageFill (h : s.Twins old old' moves u) (a w : Word) :
    (s.pageFill a w).Twins old old' moves (u.pageFill a w) := by
  obtain ⟨new, p, hs, rfl⟩ := h
  exact ⟨new ++ [.pageFill a w], p, by simp [hs], by simp [State.pageFill, State.log]⟩

theorem pageErase (h : s.Twins old old' moves u) (a : Word) :
    (s.pageErase a).Twins old old' moves (u.pageErase a) := by
  obtain ⟨new, p, hs, rfl⟩ := h
  refine ⟨new ++ [.pageErase a], p, by simp [hs], ?_⟩
  by_cases ha : a.toNat < s.cfg.bootStartBytes <;> simp [State.pageErase, State.drawFlash, State.log, ha]

theorem pageWrite (h : s.Twins old old' moves u) (a : Word) :
    (s.pageWrite a).Twins old old' moves (u.pageWrite a) := by
  obtain ⟨new, p, hs, rfl⟩ := h
  refine ⟨new ++ [.pageWrite a], p, by simp [hs], ?_⟩
  by_cases ha : a.toNat < s.cfg.bootStartBytes <;>
    simp [State.pageWrite, State.writtenPage, State.drawFlash, State.log, ha]

theorem readFlash (h : s.Twins old old' moves u) (a : Word) :
    (s.readFlash a).Twins old old' moves (u.readFlash a) := by
  obtain ⟨new, p, hs, rfl⟩ := h
  refine ⟨new ++ [.readFlash a (s.flashWord a)], p, by simp [hs], ?_⟩
  by_cases ha : a.toNat < s.cfg.flashBytes <;> simp [State.readFlash, State.flashWord, State.log, ha]

theorem writeEeprom (h : s.Twins old old' moves u) (a : Word) (b : Byte) :
    (s.writeEeprom a b).Twins old old' moves (u.writeEeprom a b) := by
  obtain ⟨new, p, hs, rfl⟩ := h
  refine ⟨new ++ [.writeEeprom a b], p, by simp [hs], ?_⟩
  by_cases ha : a.toNat < s.cfg.eepromBytes <;> simp [State.writeEeprom, State.drawEeprom, State.log, ha]

theorem readEeprom (h : s.Twins old old' moves u) (a : Word) :
    (s.readEeprom a).Twins old old' moves (u.readEeprom a) := by
  obtain ⟨new, p, hs, rfl⟩ := h
  refine ⟨new ++ [.readEeprom a (s.eepromByte a)], p, by simp [hs], ?_⟩
  by_cases ha : a.toNat < s.cfg.eepromBytes <;> simp [State.readEeprom, State.eepromByte, State.log, ha]

/-! ### Sequences and loops -/

theorem recvWord (h : s.Twins old old' moves u) (w : Word) :
    (s.recvWord w).Twins old old' moves (u.recvWord w) :=
  (h.log (.recv (highByte w))).log (.recv (lowByte w))

theorem sendAll (h : s.Twins old old' moves u) (bs : List Byte) :
    (s.sendAll bs).Twins old old' moves (u.sendAll bs) := by
  induction bs generalizing s u with
  | nil => exact h
  | cons b bs ih => exact ih (h.log (.send b))

theorem answer (h : s.Twins old old' moves u) (bs : List Byte) :
    (s.answer bs).Twins old old' moves (u.answer bs) := (h.sendAll bs).setPhase _

/-- A response that the configuration determines. -/
theorem reply (h : s.Twins old old' moves u) (r : Config → List Byte) :
    (s.answer (r s.cfg)).Twins old old' moves (u.answer (r u.cfg)) := by
  rw [h.cfg]; exact h.answer _

theorem reject (h : s.Twins old old' moves u) (k : RejectKind) :
    (s.reject k).Twins old old' moves (u.reject k) := h.answer _

theorem eraseLoop (h : s.Twins old old' moves u) (a n : Nat) :
    (s.eraseLoop a n).Twins old old' moves (u.eraseLoop a n) := by
  induction n generalizing s u a with
  | zero => exact h
  | succ n ih => rw [State.eraseLoop, State.eraseLoop, h.cfg]; exact ih (h.pageErase _) _

theorem fillLoop (h : s.Twins old old' moves u) (i n : Nat) :
    (s.fillLoop i n).Twins old old' moves (u.fillLoop i n) := by
  induction n generalizing s u i with
  | zero => exact h
  | succ n ih => rw [State.fillLoop, State.fillLoop, h.ar, h.bufCell]; exact ih (h.pageFill _ _) _

theorem commitBuffer (h : s.Twins old old' moves u) : s.commitBuffer.Twins old old' moves u.commitBuffer := by
  have hfill := (h.shiftAr.log .nvmWait).fillLoop 0 s.cfg.pageWords
  simpa [State.commitBuffer, State.nvmWait, h.cfg, h.ar] using (hfill.pageWrite _).answer (replyCr s.cfg)

theorem loadWords (h : s.Twins old old' moves u) (i : Nat) (bs : List Byte) :
    (s.loadWords i bs).Twins old old' moves (u.loadWords i bs) := by
  induction bs using List.twoStepInduction generalizing s u i with
  | nil => exact h
  | singleton => exact h
  | cons_cons hi lo bs ih _ => exact ih (((h.log (.recv hi)).log (.recv lo)).setBuf i _) _

theorem loadByteAt (h : s.Twins old old' moves u) (b : Byte) :
    (s.loadByteAt b).Twins old old' moves (u.loadByteAt b) := by
  have hrecv := h.log (.recv b)
  unfold State.loadByteAt State.recv
  dsimp only
  rw [hrecv.ar]
  exact (hrecv.writeEeprom _ b).advanceAr 1

theorem loadBytes (h : s.Twins old old' moves u) (bs : List Byte) :
    (s.loadBytes bs).Twins old old' moves (u.loadBytes bs) := by
  induction bs generalizing s u with
  | nil => exact h
  | cons b bs ih => exact ih (h.loadByteAt b)

theorem loadBody (h : s.Twins old old' moves u) (body : LoadBody) :
    (s.loadBody body).Twins old old' moves (u.loadBody body) := by
  unfold State.loadBody
  rw [h.cfg]
  cases memTarget s.cfg body.memType with
  | none => exact h.reject _
  | some target =>
    cases target with
    | flash => exact (h.loadWords 0 _).commitBuffer
    | eeprom => exact (h.loadBytes _).answer _

theorem readWordOut (h : s.Twins old old' moves u) : s.readWordOut.Twins old old' moves u.readWordOut := by
  unfold State.readWordOut
  rw [h.ar, h.wordToSend]
  exact ((h.readFlash _).sendAll _).advanceAr 2

theorem readWords (h : s.Twins old old' moves u) (n : Nat) :
    (s.readWords n).Twins old old' moves (u.readWords n) := by
  induction n generalizing s u with
  | zero => exact h
  | succ n ih => exact ih h.readWordOut

theorem readByteOut (h : s.Twins old old' moves u) : s.readByteOut.Twins old old' moves u.readByteOut := by
  unfold State.readByteOut
  rw [h.ar, h.eepromByte]
  exact ((h.readEeprom _).log (.send _)).advanceAr 1

theorem readBytes (h : s.Twins old old' moves u) (n : Nat) :
    (s.readBytes n).Twins old old' moves (u.readBytes n) := by
  induction n generalizing s u with
  | zero => exact h
  | succ n ih => exact ih h.readByteOut

theorem readBody (h : s.Twins old old' moves u) (len : Word) (mt : Byte) :
    (s.readBody len mt).Twins old old' moves (u.readBody len mt) := by
  unfold State.readBody
  rw [h.cfg]
  cases memTarget s.cfg mt with
  | none => exact h.reject _
  | some target =>
    cases target with
    | flash => exact (h.shiftAr.readWords _).setPhase _
    | eeprom => exact (h.readBytes _).setPhase _

end State.Twins

/-! ### Whole commands -/

@[simp] theorem State.loadBody_phase (s : State) (body : LoadBody) : (s.loadBody body).phase = .awaitCommand := by
  unfold State.loadBody
  split <;> simp

@[simp] theorem State.readBody_phase (s : State) (len : Word) (mt : Byte) :
    (s.readBody len mt).phase = .awaitCommand := by
  unfold State.readBody
  split <;> simp

/-- A command runs from a twin as it does from the state itself, and ends at the same position. -/
theorem exec_twins (i : Instr) (h : s.Twins old old' moves u) (hexec : exec i s = .next t) :
    ∃ v, exec i u = .next v ∧ t.Twins old old' moves v ∧ v.phase = t.phase := by
  cases i with
  | enterprog | leaveprog => cases hexec; exact ⟨_, rfl, h.reply replyCr, rfl⟩
  | autoinc => cases hexec; exact ⟨_, rfl, h.answer _, rfl⟩
  | readsig => cases hexec; exact ⟨_, rfl, h.reply replySig, rfl⟩
  | devcodes => cases hexec; exact ⟨_, rfl, h.reply replyDevcodes, rfl⟩
  | swid => cases hexec; exact ⟨_, rfl, h.reply replySwid, rfl⟩
  | swver => cases hexec; exact ⟨_, rfl, h.reply replySwver, rfl⟩
  | progtype => cases hexec; exact ⟨_, rfl, h.answer _, rfl⟩
  | blksup => cases hexec; exact ⟨_, rfl, h.reply replyBlksup, rfl⟩
  | unknown => cases hexec; exact ⟨_, rfl, h.reject _, rfl⟩
  | devtype b | ledset b | ledclr b => cases hexec; exact ⟨_, rfl, (h.log (.recv b)).reply replyCr, rfl⟩
  | setaddr w => cases hexec; exact ⟨_, rfl, ((h.recvWord w).setAr w).reply replyCr, rfl⟩
  | chiperase =>
    cases hexec
    refine ⟨_, rfl, ?_, rfl⟩
    unfold State.chipErase
    rw [h.cfg]
    exact (h.eraseLoop 0 _).answer _
  | exit => cases hexec; exact ⟨_, rfl, (h.log .handoff).setPhase _, rfl⟩
  | blkload len body =>
    have hlen := (h.recvWord len).setLen len
    cases body with
    | none =>
      obtain ⟨hover, rfl⟩ := execBlkload_none_iff.mp hexec
      exact ⟨_, execBlkload_none_iff.mpr ⟨h.cfg ▸ hover, rfl⟩, hlen.reject _, by simp⟩
    | some body =>
      obtain ⟨hfits, rfl⟩ := execBlkload_some_iff.mp hexec
      exact ⟨_, execBlkload_some_iff.mpr ⟨h.cfg ▸ hfits, rfl⟩,
        ((hlen.log (.recv _)).setMt _).loadBody body, by simp⟩
  | blkread len mt =>
    cases hexec
    exact ⟨_, rfl, ((((h.recvWord len).setLen len).log (.recv mt)).setMt mt).readBody len mt, by simp⟩

/-- Settles O42: a state is the twin of itself with another record, position and schedule. -/
theorem recordHasNoInfluence : Obligations.RecordHasNoInfluence := by
  intro s t i tr p moves hexec
  have hs : s.Twins s.trace tr moves { s with trace := tr, phase := p, env := moves } := ⟨[], p, by simp, by simp⟩
  obtain ⟨v, hv, ⟨new, q, ht, rfl⟩, hphase⟩ := exec_twins i hs hexec
  refine ⟨new, _, hv, ht, rfl, rfl, ?_⟩
  obtain rfl : q = t.phase := hphase
  rfl

end Sys2Proof.Machine
end

section
/-! SUPPORT. One step, by what the environment does (O7, O53, O55, O56), and the state after reset (O46). -/

namespace Sys2Proof.Machine

variable {s : State} {moves : List EnvMove}

/-! ### What each move makes of a step -/

theorem step_of_complete (hwf : s.cfg.wf) (henv : s.env = .complete :: moves) :
    step s = .next (s.dropMove moves).transact := by
  simp only [step, if_pos hwf, henv]

theorem step_of_stall (hwf : s.cfg.wf) (henv : s.env = .stall :: moves) : step s = .next (s.stalled moves) := by
  simp only [step, if_pos hwf, henv]

theorem step_of_reset (hwf : s.cfg.wf) (henv : s.env = .reset :: moves) :
    step s = .next (s.dropMove moves).takeReset := by
  simp only [step, if_pos hwf, henv]

/-- With no move left, a step is one transaction wherever no complete command can be taken. -/
theorem step_of_incomplete (hwf : s.cfg.wf) (henv : s.env = [])
    (hdec : s.phase = .awaitCommand → ∃ m, decode s.cfg s.rx = .error m) : step s = .next s.transact := by
  by_cases hphase : s.phase = .awaitCommand
  · obtain ⟨m, hm⟩ := hdec hphase
    simp only [step, if_pos hwf, henv, hphase, hm]
  · exact step_in_handler hwf henv hphase

/-- While no reset is to come, a stalled transaction leaves everything as it is (spec/70 R240). -/
theorem State.stalled_of_no_reset (h : .reset ∉ moves) : s.stalled moves = s := by
  obtain ⟨-, hsame⟩ | ⟨pre, post, rfl, -, -⟩ := s.stalled_cases moves
  · exact hsame
  · simp at h

/-- A stalled transaction waits for the first reset to come. -/
theorem State.stalled_until_reset {pre : List EnvMove} (h : .reset ∉ pre) :
    s.stalled (pre ++ .reset :: moves) = s.dropMove (.reset :: moves) := by
  have hdrop : (pre ++ .reset :: moves).dropWhile (fun m => m != .reset) = .reset :: moves := by
    rw [List.dropWhile_append_of_pos fun m hm => by simpa using ne_of_mem_of_not_mem hm h]
    rfl
  simp only [State.stalled, hdrop]

/-- A stalled block stands for ever when no reset is to come. -/
theorem run_of_stall (hwf : s.cfg.wf) (henv : s.env = .stall :: moves) (h : .reset ∉ moves) (n : Nat) :
    Sys2Proof.core.run n s = .next s := by
  have hstep : Sys2Proof.core.step s = .next s :=
    (step_of_stall hwf henv).trans (congrArg _ (State.stalled_of_no_reset h))
  induction n with
  | zero => rfl
  | succ n ih => simpa only [Host.Core.run, hstep] using ih

/-- A pending `Recv` completes with the byte at the head of the host's stream (spec/20 R52). -/
theorem State.transact_of_byte {b : Byte} {rest : List Byte} (hwaits : s.phase.waits = true)
    (hrx : s.rx = b :: rest) : s.transact = (s.setRx rest).accept b := by
  rw [State.transact_of_waits hwaits]
  simp only [State.receive, hrx, State.setRx]

/-! ### The obligations -/

/-- Settles O7: the command byte's `Recv` is the one `takeCommand` records. -/
theorem stepRunsDecoded : Obligations.StepRunsDecoded := by
  intro s i rest hwf henv hphase hdec
  simp only [step, if_pos hwf, henv, hphase, hdec, State.takeCommand]

/-- Settles O53: either way the step is the completed `Recv`. -/
theorem stepTakesOneByte : Obligations.StepTakesOneByte := by
  intro s b rest hwf hwaits hrx
  refine ⟨fun henv hdec => ?_, fun moves henv => ?_⟩
  · rw [step_of_incomplete hwf henv hdec, State.transact_of_byte hwaits hrx]
    rfl
  · rw [step_of_complete hwf henv, State.transact_of_byte (s := s.dropMove moves) hwaits hrx]
    rfl

/-- Settles O56: a stalled block stands still, and a completed transaction does not depend on the moves after it. -/
theorem environmentDecides : Obligations.EnvironmentDecides := by
  intro s moves hwf
  refine ⟨run_of_stall hwf, fun pre henv hpre =>
    (step_of_stall hwf henv).trans (congrArg _ (State.stalled_until_reset hpre)), fun henv => ?_⟩
  obtain ⟨hcfg, hmoves, new, htrace, hone, -⟩ := (s.dropMove moves).transact_frame
  refine ⟨_, new, step_of_complete hwf henv, hmoves, hcfg, htrace, hone, fun hdec =>
    ⟨_, step_of_incomplete (s := s.dropMove []) hwf rfl hdec, ?_⟩⟩
  simp only [State.dropMove_transact]
  rfl

/-- Settles O46: `State.reset` is the launch under a well-formed configuration. -/
theorem resetValues : Obligations.ResetValues :=
  fun _ => ⟨rfl, rfl, rfl, rfl, Config.launch, rfl, by decide⟩

/-! ### The next position of each handler -/

theorem highByte_eq_ofNat (w : Word) : highByte w = BitVec.ofNat 8 (w.toNat / 256) := by
  apply BitVec.eq_of_toNat_eq
  simp [highByte, Nat.shiftRight_eq_div_pow]

theorem lowByte_eq_ofNat (w : Word) : lowByte w = BitVec.ofNat 8 w.toNat := by
  apply BitVec.eq_of_toNat_eq
  simp [lowByte]

theorem State.toSend_eq (s : State) (bs : List Byte) :
    s.toSend bs = s.setPhase (match bs with | [] => .awaitCommand | b :: bs => .sending b bs) := by
  cases bs <;> rfl

theorem State.toErase_eq (s : State) (a : Nat) :
    s.toErase a = s.setPhase (if a < s.cfg.bootStartBytes then .erasing (addr a) else .sending s.cfg.cr []) := by
  unfold State.toErase
  split <;> rfl

theorem State.toFill_eq (s : State) (i : Nat) :
    s.toFill i = s.setPhase (if i < s.cfg.pageWords then .loadFill i else .loadWrite) := by
  unfold State.toFill
  split <;> rfl

theorem State.toLoadByte_eq (s : State) (i : Nat) :
    s.toLoadByte i = s.setPhase (if i < s.len.toNat then .loadByte i else .sending s.cfg.cr []) := by
  unfold State.toLoadByte
  split <;> rfl

theorem State.toReadWord_eq (s : State) (n : Nat) :
    s.toReadWord n = s.setPhase (match n with | 0 => .awaitCommand | m + 1 => .readWord m) := by
  cases n <;> rfl

theorem State.toReadByte_eq (s : State) (n : Nat) :
    s.toReadByte n = s.setPhase (match n with | 0 => .awaitCommand | m + 1 => .readByte m) := by
  cases n <;> rfl

theorem State.wordToSend_eq (s : State) :
    s.wordToSend = if s.cfg.flashReadTx = .programWord then s.flashWord s.ar else s.buf.getD 0 0 := by
  unfold State.wordToSend State.bufCell
  cases s.cfg.flashReadTx <;> rfl

/-- Settles O55: inside a handler a step is `State.transact`, whose arms are those of the statement. -/
theorem transactionPositions : Obligations.TransactionPositions := by
  intro s hwf henv
  have hstep (hp : s.phase ≠ .awaitCommand) := step_in_handler hwf henv hp
  have hpages : 0 < s.cfg.pageWords := hwf.1.1
  cases hp : s.phase <;>
    simp only [hp, ne_eq, reduceCtorEq, not_false_eq_true, true_imp_iff, State.transact] at hstep ⊢
  case sending b bs => rw [hstep, State.toSend_eq]; rfl
  case erasing a => rw [hstep, State.toErase_eq]; simp only [State.setPhase, State.pageErase_cfg]
  case handingOff => exact hstep
  case loadWait => rw [hstep, State.toFill_eq, if_pos (by simpa)]; rfl
  case loadFill i =>
    rw [hstep, State.toFill_eq, advanceAddress_eq]
    simp only [State.setPhase, State.pageFill, wordIndex, addr_toNat, State.bufCell, State.log]
  case loadWrite => rw [hstep]; simp only [State.toSend, replyCr, State.setPhase, State.pageWrite_cfg]
  case loadByteWrite i b =>
    rw [hstep, State.toLoadByte_eq]
    simp only [State.setPhase, State.advanceAr, State.setAr, advanceAddress_eq, State.writeEeprom_ar,
      State.writeEeprom_len, State.writeEeprom_cfg]
  case readWord n => rw [hstep, State.wordToSend_eq]; rfl
  case readWordHi w n => rw [hstep, highByte_eq_ofNat]; rfl
  case readWordLo w n =>
    rw [hstep, State.toReadWord_eq, lowByte_eq_ofNat, State.advanceAr, advanceAddress_eq]
    rfl
  case readByte n => exact hstep
  case readByteOut b n =>
    rw [hstep, State.toReadByte_eq, State.advanceAr, advanceAddress_eq]
    rfl

end Sys2Proof.Machine
end

section
/-! SUPPORT. The command at the head of the host's stream: a step runs it whole (O8), or the environment cuts it
after any number of its transactions, by a stall (O57) or by a reset (O58). -/

namespace Sys2Proof

open Machine

/-- Decoding the bytes of a well-formed command gives it back and leaves the bytes after it (spec/30 R90 to R98). -/
theorem decode_encode (c : Config) (i : Instr) (rest : List Byte) (hwf : c.wf) (hi : i.wf c = true) :
    decode c (encode c i ++ rest) = .ok (i, rest) := by
  rw [encode, List.cons_append, decode, opcodeOf_commandByte c i hwf hi]
  cases i with
  | setaddr a => simp [Instr.opcode, decodeArgs, argumentBytes, wireBytes, decodeFA, joinBytes_high_low]
  | blkread len mt => simp [Instr.opcode, decodeArgs, argumentBytes, wireBytes, decodeFBR, joinBytes_high_low]
  | blkload len body =>
    cases body with
    | none =>
      have hover : oversize c len = true := hi
      simp [Instr.opcode, decodeArgs, argumentBytes, wireBytes, decodeFBL, joinBytes_high_low, hover]
    | some body =>
      have hbody : LoadBody.fits c len (some body) = true := hi
      simp only [LoadBody.fits, Bool.and_eq_true, Bool.not_eq_true', beq_iff_eq] at hbody
      obtain ⟨hover, hlen⟩ := hbody
      simp [Instr.opcode, decodeArgs, argumentBytes, wireBytes, decodeFBL, joinBytes_high_low, hover, ← hlen]
  | _ => rfl

namespace Machine

/-- Settles O8: the stream decodes to the command. -/
theorem stepRunsEncoded : Obligations.StepRunsEncoded := by
  intro s i rest hwf henv hphase hi hrx
  have hdec : decode s.cfg s.rx = .ok (i, rest) := by rw [hrx, decode_encode s.cfg i rest hwf hi]
  rw [stepRunsDecoded s i rest hwf henv hphase hdec, hrx]
  rfl

/-! ### Runs -/

/-- A run goes on from where its first steps lead. -/
theorem run_add {M : Host.Core} {s t : M.State} {m : Nat} (h : M.run m s = .next t) (n : Nat) :
    M.run (m + n) s = M.run n t := by
  induction m generalizing s with
  | zero =>
    injection h with h
    rw [h, Nat.zero_add]
  | succ m ih =>
    rw [Nat.succ_add]
    simp only [Host.Core.run] at h ⊢
    cases hstep : M.step s with
    | next u => simp only [hstep] at h ⊢; exact ih h
    | fault r => simp only [hstep] at h; cases h
    | refused r => simp only [hstep] at h; cases h

/-- What `n` transactions add to the record: at most `n`. -/
theorem State.transact_iterate_frame (s : State) (n : Nat) :
    (State.transact^[n] s).cfg = s.cfg ∧
      ∃ new, (State.transact^[n] s).trace = s.trace ++ new ∧ new.length ≤ n := by
  induction n with
  | zero => exact ⟨rfl, [], by simp⟩
  | succ n ih =>
    obtain ⟨hcfg, new, htrace, hlen⟩ := ih
    obtain ⟨hcfg', -, last, htrace', hlast, -⟩ := (State.transact^[n] s).transact_frame
    rw [Function.iterate_succ_apply']
    exact ⟨hcfg'.trans hcfg, new ++ last, by simp [htrace', htrace], by simp; omega⟩

/-- The transactions made do not depend on what the environment does after them. -/
theorem State.transact_iterate_dropMove (s : State) (moves : List EnvMove) (n : Nat) :
    State.transact^[n] (s.dropMove moves) = (State.transact^[n] s).dropMove moves :=
  have hcomm : Function.Commute State.transact (State.dropMove · moves) := (State.dropMove_transact · moves)
  hcomm.iterate_left n s

/-- In a run of `N` recorded transactions, the first `n` are those made by `n` transactions. -/
theorem State.transact_iterate_trace {s : State} {new : List Txn} {n : Nat}
    (hall : (State.transact^[new.length] s).trace = s.trace ++ new) (hn : n ≤ new.length) :
    (State.transact^[n] s).trace = s.trace ++ new.take n := by
  obtain ⟨k, hk⟩ := Nat.exists_eq_add_of_le' hn
  obtain ⟨-, first, hfirst, hfirstLen⟩ := s.transact_iterate_frame n
  obtain ⟨-, last, hlast, hlastLen⟩ := (State.transact^[n] s).transact_iterate_frame k
  rw [hk, Function.iterate_add_apply, hlast, hfirst, List.append_assoc, List.append_cancel_left_eq] at hall
  have hlen : first.length = n := by
    have hsum := congrArg List.length hall
    rw [List.length_append] at hsum
    omega
  rw [hfirst, ← hall, List.take_left' hlen]

/-- A well-formed command of which the environment completes `n` transactions: after `n` steps the block has made
the command's first `n` transactions, and the other moves are still to come. -/
theorem run_cut (s : State) (i : Instr) (rest : List Byte) (moves : List EnvMove) (n : Nat) (hwf : s.cfg.wf)
    (hphase : s.phase = .awaitCommand) (hi : i.wf s.cfg = true) (hrx : s.rx = encode s.cfg i ++ rest)
    (henv : s.env = List.replicate n .complete ++ moves) :
    ∃ (t : State) (new : List Txn) (u : State),
      exec i ((s.setRx rest).recv (commandByte s.cfg i)) = .next t ∧ t.trace = s.trace ++ new ∧
      Sys2Proof.core.run n s = .next (u.dropMove moves) ∧ u.cfg = s.cfg ∧
      (n ≤ new.length → u.trace = s.trace ++ new.take n) := by
  obtain ⟨t, hexec, N, rfl, hlen⟩ := s.command_runsTo i rest hwf hphase hi hrx
  obtain ⟨-, new, htrace, -⟩ := s.transact_iterate_frame N
  obtain rfl : new.length = N := by simpa [htrace] using hlen
  have hrun := run_complete s n moves hwf
  rw [← henv, State.transact_iterate_dropMove] at hrun
  exact ⟨_, new, _, hexec, htrace, hrun, (s.transact_iterate_frame n).1, State.transact_iterate_trace htrace⟩

/-- Settles O57: after the transactions that complete, the stall holds the block for ever. -/
theorem stallAnywhere : Obligations.StallAnywhere := by
  intro s i rest moves n hwf hphase hi hrx henv hreset
  obtain ⟨t, new, u, hexec, htrace, hrun, hcfg, hcut⟩ := run_cut s i rest _ n hwf hphase hi hrx henv
  refine ⟨t, new, hexec, htrace, fun hn => ⟨u.dropMove (.stall :: moves), fun m => ?_, hcut hn⟩⟩
  rw [run_add hrun]
  exact run_of_stall (hcfg ▸ hwf) rfl hreset m

/-- Settles O58: after the transactions that complete, the next step takes the reset. -/
theorem resetAnywhere : Obligations.ResetAnywhere := by
  intro s i rest moves n hwf hphase hi hrx henv
  obtain ⟨t, new, u, hexec, htrace, hrun, hcfg, hcut⟩ := run_cut s i rest _ n hwf hphase hi hrx henv
  obtain ⟨hcfg', -, -, -, -, -, -, -, henv', htrace'⟩ := (u.dropMove moves).abandon_frame
  refine ⟨t, new, hexec, htrace, fun hn => ⟨(u.dropMove moves).takeReset, ?_, htrace'.trans (hcut hn), rfl, henv',
    hcfg'.trans hcfg⟩⟩
  have hreset : Sys2Proof.core.step (u.dropMove (.reset :: moves)) = .next (u.dropMove moves).takeReset :=
    step_of_reset (hcfg ▸ hwf) rfl
  rw [run_add hrun]
  simp only [Host.Core.run, hreset]

end Machine
end Sys2Proof
end

section
/-! SUPPORT. What a whole command leaves in `AR` (O38) and in `BUF` (O39): the two arms that depend on the memory
type, each said once. -/

namespace Sys2Proof.Machine

variable {s t : State} {len : Word} {body : LoadBody}

/-! ### The memory types -/

theorem memTarget_flash_iff (c : Config) (mt : Byte) : memTarget c mt = some .flash ↔ mt = c.mtFlash := by
  unfold memTarget
  split_ifs <;> simp_all

/-- How many payload bytes block-load takes: two a word for the flash, one for the EEPROM (spec/30 R94). -/
theorem payloadBytes_eq (c : Config) (len : Word) (mt : Byte) : payloadBytes c len mt =
    if mt = c.mtFlash then 2 * len.toNat else if mt = c.mtEeprom then len.toNat else 0 := by
  unfold payloadBytes memTarget
  split_ifs <;> rfl

/-- What a body that fits its length says (spec/30 R94, R98). -/
theorem fits_some_iff (c : Config) (len : Word) (body : LoadBody) : LoadBody.fits c len (some body) = true ↔
    len.toNat ≤ c.pageWords ∧ body.payload.length = payloadBytes c len body.memType := by
  simp [LoadBody.fits, oversize]

/-! ### `AR` -/

/-- The flash arm of block-load doubles `AR`, the EEPROM arm advances it by the length (spec/10 R24). -/
theorem State.loadBody_ar (hpayload : body.payload.length = payloadBytes s.cfg len body.memType) :
    (s.loadBody body).ar =
      if body.memType = s.cfg.mtFlash then addr (2 * s.ar.toNat)
      else if body.memType = s.cfg.mtEeprom then addr (s.ar.toNat + len.toNat)
      else s.ar := by
  rw [payloadBytes_eq] at hpayload
  unfold State.loadBody memTarget
  split_ifs at hpayload ⊢
  · simp [shiftAddress_eq]
  · simp [State.loadBytes_ar, advanceAddress_eq, hpayload]
  · simp

/-- The flash arm of block-read doubles `AR` and advances it by two a turn, the EEPROM arm advances it by the bytes
read (R24). -/
theorem State.readBody_ar (s : State) (len : Word) (mt : Byte) : (s.readBody len mt).ar =
    if mt = s.cfg.mtFlash then addr (2 * s.ar.toNat + 2 * ((len.toNat + 1) / 2))
    else if mt = s.cfg.mtEeprom then addr (s.ar.toNat + len.toNat)
    else s.ar := by
  unfold State.readBody memTarget
  split_ifs
  · simp [State.readWords_ar, shiftAddress_eq, advanceAddress_eq, addr_add_mod, readTurns]
  · simp [State.readBytes_ar, advanceAddress_eq]
  · simp

/-- Settles O38: set-address and the two block commands have their rows, every other command only answers. -/
theorem addressRegisterTable : Obligations.AddressRegisterTable := by
  intro s t i _ _ hexec
  cases i with
  | blkload len body =>
    cases body with
    | none =>
      obtain ⟨-, rfl⟩ := execBlkload_none_iff.mp hexec
      simp
    | some body =>
      obtain ⟨hfits, rfl⟩ := execBlkload_some_iff.mp hexec
      obtain ⟨hlen, hpayload⟩ := (fits_some_iff ..).mp hfits
      have hinRange : ¬ s.cfg.pageWords < len.toNat := by omega
      refine (State.loadBody_ar (len := len) (by simpa using hpayload)).trans ?_
      simp [hinRange]
  | blkread len mt =>
    cases hexec
    simp [State.readBody_ar]
  | _ => cases hexec; simp

/-! ### `BUF` -/

/-- Without the flash's memory type block-load leaves `BUF` (spec/10 R26). -/
theorem State.loadBody_buf_of_ne (h : body.memType ≠ s.cfg.mtFlash) : (s.loadBody body).buf = s.buf := by
  unfold State.loadBody memTarget
  rw [if_neg h]
  split_ifs <;> simp

/-- The flash arm of block-load writes the payload's words to the first cells of `BUF` (R25). -/
theorem State.loadBody_buf_flash (h : body.memType = s.cfg.mtFlash)
    (hlen : body.payload.length / 2 ≤ s.buf.length) :
    (s.loadBody body).buf = wordsOf body.payload ++ s.buf.drop (body.payload.length / 2) := by
  have hflash := (memTarget_flash_iff s.cfg body.memType).mpr h
  unfold State.loadBody
  simp only [hflash, State.commitBuffer_buf]
  rw [State.loadWords_buf _ _ _ (by omega)]
  simp

@[simp] theorem State.readBody_buf (s : State) (len : Word) (mt : Byte) : (s.readBody len mt).buf = s.buf := by
  unfold State.readBody
  split <;> simp

/-- Settles O39: of the arms of every command, only the flash arm of block-load stores words. -/
theorem bufferWriter : Obligations.BufferWriter := by
  intro s t i hinv hexec
  refine ⟨fun hno => ?_, ?_⟩
  · cases i with
    | blkload len body =>
      cases body with
      | none =>
        obtain ⟨-, rfl⟩ := execBlkload_none_iff.mp hexec
        simp
      | some body =>
        obtain ⟨-, rfl⟩ := execBlkload_some_iff.mp hexec
        have hmt : body.memType ≠ s.cfg.mtFlash := fun h => hno len body.payload (by rw [← h])
        exact (State.loadBody_buf_of_ne (by simpa using hmt)).trans (by simp)
    | _ => cases hexec; simp
  · rintro len p rfl
    obtain ⟨hfits, rfl⟩ := execBlkload_some_iff.mp hexec
    obtain ⟨hlen, hpayload⟩ := (fits_some_iff ..).mp hfits
    have hwords : p.length / 2 = len.toNat := by
      rw [hpayload]
      simp [payloadBytes_eq]
    rw [State.loadBody_buf_flash rfl (by simpa [hwords, hinv.buf_length])]
    simp [hwords]

end Sys2Proof.Machine
end

section
/-! SUPPORT. The host's stream (O13, O14): what one transaction takes from it, any number of them do, and with it
empty a `Recv` changes nothing. -/

namespace Sys2Proof.Machine

variable {s t u : State}

/-! ### Bytes taken -/

/-- From `s` to `t` the bytes recorded as received are, in order, those that left the host's stream. -/
def State.Takes (s t : State) : Prop :=
  ∃ new, t.trace = s.trace ++ new ∧ s.rx = receivedBytes new ++ t.rx

theorem State.Takes.of_eq (htrace : t.trace = s.trace) (hrx : t.rx = s.rx) : s.Takes t :=
  ⟨[], by simp [htrace], by simp [hrx]⟩

theorem State.Takes.trans (h : s.Takes t) (h' : t.Takes u) : s.Takes u := by
  obtain ⟨new, htrace, hrx⟩ := h
  obtain ⟨new', htrace', hrx'⟩ := h'
  exact ⟨new ++ new', by simp [htrace', htrace], by simp [hrx, hrx']⟩

/-- A completed transaction takes the bytes it records. -/
theorem State.takes_transact (s : State) : s.Takes s.transact := by
  obtain ⟨-, -, new, htrace, -, hrx⟩ := s.transact_frame
  exact ⟨new, htrace, hrx⟩

theorem State.takes_transact_iterate (s : State) (n : Nat) : s.Takes (State.transact^[n] s) :=
  Function.Iterate.rec s.Takes (.of_eq rfl rfl) (fun u h => h.trans u.takes_transact) n

theorem State.takes_stalled (s : State) (moves : List EnvMove) : s.Takes (s.stalled moves) := by
  obtain ⟨-, hsame⟩ | ⟨-, post, -, -, hmoved⟩ := s.stalled_cases moves
  · exact .of_eq (by rw [hsame]) (by rw [hsame])
  · exact .of_eq (by rw [hmoved]; rfl) (by rw [hmoved]; rfl)

/-- Settles O14: every step but a reset is a stall or completed transactions. -/
theorem receivesInOrder : Obligations.ReceivesInOrder := by
  intro s t hreset h
  obtain ⟨hwf, ⟨moves, henv, -⟩ | ⟨moves, -, rfl⟩ | ⟨moves, -, rfl⟩ |
    ⟨-, hphase, i, rest, hdec, hexec⟩ | ⟨-, rfl⟩⟩ := step_cases h
  · exact absurd henv (hreset moves)
  · exact s.takes_stalled moves
  · exact (s.dropMove moves).takes_transact
  · obtain ⟨n, rfl⟩ := exec_eq_transact_iterate hwf hphase hdec hexec
    exact s.takes_transact_iterate n
  · exact s.takes_transact

/-! ### An empty stream -/

/-- A run from a state that a step leaves as it is. -/
theorem run_of_step_eq_self {M : Host.Core} {s : M.State} (hstep : M.step s = .next s) (n : Nat) :
    M.run n s = .next s := by
  induction n with
  | zero => rfl
  | succ n ih => simpa only [Host.Core.run, hstep] using ih

/-- A `Recv` waits while the host's stream is empty (spec/20 R52). -/
theorem State.transact_of_empty (hwaits : s.phase.waits = true) (hrx : s.rx = []) : s.transact = s := by
  rw [State.transact_of_waits hwaits, State.receive, hrx]

/-- Settles O13: the empty stream begins with no command, and the pending `Recv` waits. -/
theorem waitsForTheHost : Obligations.WaitsForTheHost := by
  intro s n hwf henv hrx hwaits
  have hstep : step s = .next s.transact :=
    step_of_incomplete hwf henv fun _ => ⟨.commandByte, by rw [hrx]; rfl⟩
  rw [State.transact_of_empty hwaits hrx] at hstep
  exact run_of_step_eq_self hstep n

end Sys2Proof.Machine
end

section
/-! SUPPORT. The flash addresses issued (O41): every position from which a flash transaction completes has, by the
invariant, an even address. -/

namespace Sys2Proof.Machine

variable {s t : State} {x : Txn}

/-- More transactions in the record, none of them odd. -/
theorem State.EvenFlash.append {new : List Txn} (h : s.EvenFlash) (ht : t.trace = s.trace ++ new)
    (hnew : ∀ x ∈ new, x.oddFlash = false) : t.EvenFlash := by
  unfold State.EvenFlash
  rw [ht]
  exact List.forall_mem_append.mpr ⟨h, hnew⟩

theorem State.EvenFlash.snoc (h : s.EvenFlash) (ht : t.trace = s.trace ++ [x]) (hx : x.oddFlash = false) :
    t.EvenFlash :=
  h.append ht (by simpa using hx)

/-- A transaction at an even flash address is not odd. -/
theorem Txn.oddFlash_of_even {a : Word} (hx : x.flashAddress = some a) (ha : a.toNat % 2 = 0) :
    x.oddFlash = false := by
  simp [Txn.oddFlash, hx, ha]

/-- A page of the application region begins at an even address (spec/20 R65). -/
theorem even_of_mod_pageBytes {c : Config} {n : Nat} (h : n % c.pageBytes = 0) : n % 2 = 0 := by
  obtain ⟨q, rfl⟩ := Nat.dvd_of_mod_eq_zero h
  rw [Config.pageBytes, Nat.mul_assoc]
  exact Nat.mul_mod_right _ _

/-- The address of a fill is even when `AR` is. -/
theorem State.EvenAr.fill (h : s.EvenAr) (i : Nat) : (advanceAddress s.ar (2 * i)).toNat % 2 = 0 := by
  unfold State.EvenAr at h
  rw [advanceAddress_eq, addr_toNat]
  omega

theorem State.EvenFlash.receive (h : s.EvenFlash) : s.receive.EvenFlash := by
  unfold State.receive
  split
  next => exact h
  next b rest _ =>
    obtain ⟨-, -, -, -, -, -, -, htrace⟩ := State.accept_frame (s.setRx rest) b
    refine h.append htrace ?_
    split <;> simp [Txn.oddFlash, Txn.flashAddress]

/-- A completed transaction keeps R65 of the record, from every state that meets the invariant. -/
theorem State.EvenFlash.transact (hinv : s.Inv) (h : s.EvenFlash) : s.transact.EvenFlash := by
  have hreceive := h.receive
  have hfits := hinv.phase_fits
  unfold State.PhaseFits at hfits
  unfold State.transact
  cases hp : s.phase <;> simp only [hp] at hfits ⊢
  case erasing a =>
    exact h.snoc (x := .pageErase a) (by simp) (Txn.oddFlash_of_even rfl (even_of_mod_pageBytes hfits.2))
  case loadFill i =>
    exact h.snoc (by simp; rfl) (Txn.oddFlash_of_even rfl (hfits.2.fill i))
  case loadWrite => exact h.snoc (x := .pageWrite s.ar) (by simp) (Txn.oddFlash_of_even rfl hfits)
  case readWord n => exact h.snoc (by simp; rfl) (Txn.oddFlash_of_even rfl hfits)
  case sending b bs => exact h.snoc (x := .send b) (by simp) rfl
  case handingOff => exact h.snoc (x := .handoff) (by simp) rfl
  case loadWait => exact h.snoc (x := .nvmWait) (by simp) rfl
  case loadByteWrite i b => exact h.snoc (x := .writeEeprom s.ar b) (by simp) rfl
  case readWordHi w n => exact h.snoc (x := .send (highByte w)) (by simp) rfl
  case readWordLo w n => exact h.snoc (x := .send (lowByte w)) (by simp) rfl
  case readByte n => exact h.snoc (x := .readEeprom s.ar (s.eepromByte s.ar)) (by simp) rfl
  case readByteOut b n => exact h.snoc (x := .send b) (by simp) rfl
  case handedOff => exact h
  all_goals exact hreceive

/-- A reset adds nothing to the record. -/
theorem State.EvenFlash.takeReset (h : s.EvenFlash) : s.takeReset.EvenFlash := by
  obtain ⟨-, -, -, -, -, -, -, -, -, htrace⟩ := s.abandon_frame
  exact h.append (new := []) (htrace.trans (List.append_nil _).symm) nofun

/-- Settles O41: with the invariant, R65 is kept by a passing move, a completed transaction and a reset. -/
theorem flashAddressesEven : Obligations.FlashAddressesEven := by
  intro s t hinv heven h
  have hkept : t.Inv ∧ t.EvenFlash :=
    step_keeps (P := fun u => u.Inv ∧ u.EvenFlash)
      (fun _ moves ⟨hu, hev⟩ => ⟨hu.dropMove moves, hev⟩)
      (fun _ ⟨hu, hev⟩ => ⟨hu.transact, hev.transact hu⟩)
      (fun _ ⟨hu, hev⟩ => ⟨hu.takeReset, hev.takeReset⟩) h ⟨hinv, heven⟩
  exact hkept.2

end Sys2Proof.Machine
end
section
/-! SUPPORT. What block-load leaves in the memories (O29, O30, O32, O59): the page buffer after the fill, the page
after the page write, and the states from which the two arms begin. -/

namespace Sys2Proof.Machine

variable {s : State} {len : Word} {p : List Byte}

/-! ### The page buffer -/

/-- Fill `i` from byte address `a` on goes to cell `(a div 2 + i) mod PAGE_WORDS`, also past the end of the address
space (spec/20 R74, spec/00 R9 (b)). -/
theorem fillIndex_eq {c : Config} (hwf : c.wf) (a : Word) (i : Nat) :
    wordIndex (advanceAddress a (2 * i)) % c.pageWords = (a.toNat / 2 + i) % c.pageWords := by
  obtain ⟨⟨hpos, -⟩, hdiv, -⟩ := hwf
  have hdvd : c.pageWords ∣ 32768 := by
    have h : 2 * c.pageWords ∣ 2 * 32768 := Nat.dvd_of_mod_eq_zero hdiv
    exact Nat.dvd_of_mul_dvd_mul_left (by norm_num) h
  have hhalf : wordIndex (advanceAddress a (2 * i)) = (a.toNat / 2 + i) % 32768 := by
    rw [wordIndex, advanceAddress_eq, addr_toNat]
    omega
  rw [hhalf, Nat.mod_mod_of_dvd _ hdvd]

/-- The fills of one page go to pairwise distinct cells. -/
theorem eq_of_add_mod_eq {n x i j : Nat} (hi : i < n) (hj : j < n) (h : (x + i) % n = (x + j) % n) : i = j :=
  Nat.ModEq.eq_of_lt_of_lt (Nat.ModEq.add_left_cancel' x h) hi hj

/-- After the fill of a whole page, cell `(AR div 2 + i) mod PAGE_WORDS` of the page buffer holds `BUF[i]`. -/
theorem State.fillLoop_page (hwf : s.cfg.wf) (hpb : s.pb.length = s.cfg.pageWords) {i : Nat}
    (hi : i < s.cfg.pageWords) :
    (s.fillLoop 0 s.cfg.pageWords).pb.getD ((s.ar.toNat / 2 + i) % s.cfg.pageWords) 0 = s.buf.getD i 0 := by
  have hhit := s.fillLoop_pb_hit 0 s.cfg.pageWords i hi
  simp only [Nat.zero_add, fillIndex_eq hwf] at hhit
  rw [List.getD_eq_getElem?_getD, hhit (by rw [hpb]; exact Nat.mod_lt _ (by omega))
    fun j hj hne h => hne (eq_of_add_mod_eq hj hi h)]
  rfl

/-! ### The page -/

/-- What a page write leaves in a word of its page (R75; U4, log 14). -/
theorem State.pageWrite_read_page {a : Word} (ha : a.toNat < s.cfg.bootStartBytes) {j : Nat}
    (hj : j < s.cfg.pageWords) :
    (s.pageWrite a).flash.read (pageBase s.cfg a + j) =
      writtenWord s.cfg.pageWriteEffect (Config.freeWord (s.draws + j))
        (s.flash.read (pageBase s.cfg a + j)) (s.pb.getD j 0) := by
  rw [State.pageWrite_flash_app _ _ ha, Memory.read_writeRun, if_pos (by simp [State.writtenPage]; omega)]
  simp [State.writtenPage, hj]

/-- A page write in the application region leaves every word outside its page. -/
theorem State.pageWrite_read_other {a : Word} (ha : a.toNat < s.cfg.bootStartBytes) {k : Nat}
    (hk : k < pageBase s.cfg a ∨ pageBase s.cfg a + s.cfg.pageWords ≤ k) :
    (s.pageWrite a).flash.read k = s.flash.read k := by
  rw [State.pageWrite_flash_app _ _ ha, Memory.read_writeRun, if_neg (by simp [State.writtenPage]; omega)]

/-! ### The flash arm -/

/-- `t` is `s` after the words of `t.buf` were filled and written to the page that holds byte address `A`: in the page
buffer and, if the page lies in the application region, in the page, cell `i` of `BUF` stands at word
`(A div 2 + i) mod PAGE_WORDS`, and nothing else of the memories has changed. -/
structure State.PageLoaded (s t : State) (A : Nat) : Prop where
  eeprom : t.eeprom = s.eeprom
  pb : ∀ i < s.cfg.pageWords, t.pb.getD ((A / 2 + i) % s.cfg.pageWords) 0 = t.buf.getD i 0
  page : A < s.cfg.bootStartBytes → ∀ i < s.cfg.pageWords, ∀ k,
    k = A / s.cfg.pageBytes * s.cfg.pageWords + (A / 2 + i) % s.cfg.pageWords →
    ∃ draw, t.flash.read k = writtenWord s.cfg.pageWriteEffect draw (s.flash.read k) (t.buf.getD i 0)
  other : A < s.cfg.bootStartBytes → ∀ k, k < A / s.cfg.pageBytes * s.cfg.pageWords ∨
      A / s.cfg.pageBytes * s.cfg.pageWords + s.cfg.pageWords ≤ k →
    t.flash.read k = s.flash.read k

/-- Steps 2 to 6 of R162 load the page of the shifted address. -/
theorem State.commitBuffer_pageLoaded (hwf : s.cfg.wf) (hpb : s.pb.length = s.cfg.pageWords) :
    s.PageLoaded s.commitBuffer (2 * s.ar.toNat % 65536) := by
  have haddr : (shiftAddress s.ar).toNat = 2 * s.ar.toNat % 65536 := by rw [shiftAddress_eq, addr_toNat]
  have hfill (i : Nat) (hi : i < s.cfg.pageWords) := State.fillLoop_page (s := s.shiftAr.nvmWait) hwf hpb hi
  simp only [State.nvmWait_ar, State.nvmWait_cfg, State.nvmWait_buf, State.shiftAr_ar, State.shiftAr_cfg,
    State.shiftAr_buf, haddr] at hfill
  refine ⟨by simp, fun i hi => ?_, fun hboot i hi k hk => ?_, fun hboot k hk => ?_⟩
  · simpa [State.commitBuffer] using hfill i hi
  · have hwrite := State.pageWrite_read_page (s := s.shiftAr.nvmWait.fillLoop 0 s.cfg.pageWords)
      (a := shiftAddress s.ar) (by simpa [haddr]) (Nat.mod_lt (2 * s.ar.toNat % 65536 / 2 + i) (by simp; omega))
    simp only [State.fillLoop_cfg, State.nvmWait_cfg, State.shiftAr_cfg, pageBase, haddr, ← hk, hfill i hi] at hwrite
    exact ⟨_, by simpa [State.commitBuffer] using hwrite⟩
  · have hwrite := State.pageWrite_read_other (s := s.shiftAr.nvmWait.fillLoop 0 s.cfg.pageWords)
      (a := shiftAddress s.ar) (k := k) (by simpa [haddr]) (by simpa [haddr, pageBase])
    simpa [State.commitBuffer] using hwrite

/-- The state of a flash block-load whose payload is in `BUF` (spec/43 R162, after step 1). -/
def State.wordsLoaded (s : State) (len : Word) (p : List Byte) : State :=
  ((((s.recvWord len).setLen len).recv s.cfg.mtFlash).setMt s.cfg.mtFlash).loadWords 0 p

/-- A flash block-load of the shape R98 prescribes: the payload, then steps 2 to 6 of R162. -/
theorem exec_load_flash (hlen : len.toNat ≤ s.cfg.pageWords) (hp : p.length = 2 * len.toNat) :
    exec (.blkload len (some ⟨s.cfg.mtFlash, p⟩)) s = .next (s.wordsLoaded len p).commitBuffer := by
  refine execBlkload_some_iff.mpr ⟨(fits_some_iff ..).mpr ⟨hlen, by simpa [payloadBytes_eq]⟩, ?_⟩
  simp [State.loadBody, memTarget, State.wordsLoaded]

/-- A flash block-load loads the page of the shifted address. -/
theorem exec_load_flash_pageLoaded (hinv : s.Inv) (hlen : len.toNat ≤ s.cfg.pageWords)
    (hp : p.length = 2 * len.toNat) :
    ∃ t, exec (.blkload len (some ⟨s.cfg.mtFlash, p⟩)) s = .next t ∧
      s.PageLoaded t (2 * s.ar.toNat % 65536) := by
  have hcfg : (s.wordsLoaded len p).cfg = s.cfg := by simp [State.wordsLoaded]
  have hflash : (s.wordsLoaded len p).flash = s.flash := by simp [State.wordsLoaded]
  obtain ⟨heeprom, hpb, hpage, hother⟩ := State.commitBuffer_pageLoaded (s := s.wordsLoaded len p)
    (hcfg ▸ hinv.cfg_wf) (by simpa [State.wordsLoaded] using hinv.pb_length)
  have har : (s.wordsLoaded len p).ar = s.ar := by simp [State.wordsLoaded]
  rw [hcfg, har] at hpb hpage hother
  rw [hflash] at hpage hother
  exact ⟨_, exec_load_flash hlen hp, heeprom.trans (by simp [State.wordsLoaded]), hpb, hpage, hother⟩

/-- Settles O29: under `commit` a word of the page becomes the one filled. -/
theorem loadFlashMemory : Obligations.LoadFlashMemory := by
  rintro s len p A hinv hlen hp rfl hboot hcommit
  obtain ⟨t, hexec, h⟩ := exec_load_flash_pageLoaded hinv hlen hp
  refine ⟨t, hexec, fun i hi => ⟨h.pb i hi, ?_⟩, h.other hboot, fun a => by rw [h.eeprom]⟩
  obtain ⟨draw, hword⟩ := h.page hboot i hi _ rfl
  simpa [hcommit, writtenWord] using hword

/-- Settles O30: what the two other effects leave in a word of the page. -/
theorem loadFlashUnerased : Obligations.LoadFlashUnerased := by
  rintro s len p A hinv hlen hp rfl hboot
  obtain ⟨t, hexec, h⟩ := exec_load_flash_pageLoaded hinv hlen hp
  refine ⟨t, hexec, fun i hi k hk => ?_, h.other hboot⟩
  obtain ⟨draw, hword⟩ := h.page hboot i hi k hk
  refine ⟨fun heffect => ?_, fun heffect herased => ?_⟩
  · simpa [heffect, writtenWord] using hword
  · simpa [heffect, writtenWord, herased, blank] using hword

/-! ### The EEPROM arm -/

/-- An EEPROM block-load of the shape R98 prescribes: the loop of R163, then CR. -/
theorem exec_load_eeprom (hwf : s.cfg.wf) (hlen : len.toNat ≤ s.cfg.pageWords) (hp : p.length = len.toNat) :
    exec (.blkload len (some ⟨s.cfg.mtEeprom, p⟩)) s =
      .next ((((((s.recvWord len).setLen len).recv s.cfg.mtEeprom).setMt s.cfg.mtEeprom).loadBytes p).answer
        (replyCr s.cfg)) := by
  obtain ⟨-, -, -, -, -, -, htags, -⟩ := hwf
  refine execBlkload_some_iff.mpr ⟨(fits_some_iff ..).mpr ⟨hlen, by simpa [payloadBytes_eq, htags.symm]⟩, ?_⟩
  simp [State.loadBody, memTarget, htags.symm]

/-- Settles O32: a payload of 16-bit length does not come round to its first address again. -/
theorem loadEepromMemory : Obligations.LoadEepromMemory := by
  intro s len p hwf hlen hp hin
  have hbytes := State.loadBytes_eeprom
    ((((s.recvWord len).setLen len).recv s.cfg.mtEeprom).setMt s.cfg.mtEeprom) p (by omega) (by simpa [hp] using hin)
  rw [hp] at hbytes
  obtain ⟨hpayload, hother⟩ := hbytes
  exact ⟨_, exec_load_eeprom hwf hlen hp, by simpa using hpayload, by simpa using hother, by simp⟩

/-- Settles O59: the flash arm is said by `State.PageLoaded`, the EEPROM arm writes the EEPROM alone. -/
theorem loadLeavesOtherMemories : Obligations.LoadLeavesOtherMemories := by
  intro s len p hinv hlen
  refine ⟨fun hp => ?_, fun hp => ?_⟩
  · obtain ⟨t, hexec, h⟩ := exec_load_flash_pageLoaded hinv hlen hp
    exact ⟨t, hexec, h.eeprom, h.pb⟩
  · exact ⟨_, exec_load_eeprom hinv.cfg_wf hlen hp, by simp, by simp⟩

end Sys2Proof.Machine
end
section
/-! SUPPORT. The flash read-out (O33), and what it sends after a chip-erase (O50). -/

namespace Sys2Proof.Machine

variable {s : State}

/-- Settles O33: the loop of R181, from the shifted address on. -/
theorem readFlash : Obligations.ReadFlash := by
  intro s len hwf
  obtain ⟨ws, hlen, htrace, hwords⟩ := State.readWords_trace
    (((((s.recvWord len).setLen len).recv s.cfg.mtFlash).setMt s.cfg.mtFlash).shiftAr) (readTurns len)
  have haddr (k : Nat) : advanceAddress (shiftAddress s.ar) (2 * k) = addr (2 * s.ar.toNat + 2 * k) := by
    rw [shiftAddress_eq, advanceAddress_eq, addr_toNat, addr_add_mod]
  refine ⟨_, ws, rfl, hlen, ?_, ?_, ?_, ?_⟩
  · simp [State.readBody_ar]
  · simp [State.readBody, memTarget, htrace, hlen, haddr]
  · rw [hlen]
    simpa [haddr, wordIndex] using hwords
  · simp [State.readBody, memTarget, SameMemories, SameInputs]

/-- After a chip-erase the words below `BOOT_START_BYTES` are blank and every other word is as before (spec/41
R142). -/
theorem State.chipErase_read (hwf : s.cfg.wf) (k : Nat) :
    s.chipErase.flash.read k = if 2 * k < s.cfg.bootStartBytes then blank 16 else s.flash.read k := by
  have hpages := erasePages_mul_pageBytes s.cfg hwf
  obtain ⟨⟨hpos, -⟩, -, ⟨-, hboot, hflash⟩, -⟩ := hwf
  obtain ⟨-, hread⟩ := s.eraseLoop_flash 0 (erasePages s.cfg) k hpos (by omega) (by rw [Nat.zero_add, hpages])
  have hwords : 2 * (erasePages s.cfg * s.cfg.pageWords) = s.cfg.bootStartBytes := by
    rw [← hpages, Config.pageBytes]; ring
  have hinside : (0 * s.cfg.pageWords ≤ k ∧ k < (0 + erasePages s.cfg) * s.cfg.pageWords) ↔
      2 * k < s.cfg.bootStartBytes := by
    rw [Nat.zero_mul, Nat.zero_add]; omega
  rw [Nat.zero_mul] at hread
  rw [State.chipErase, State.answer_flash, hread]
  simp only [hinside]

/-- What the host is given by `n` turns that each send the bytes `bs`, whatever else they do. -/
theorem sentBytes_turns {n : Nat} {f : Nat → List Txn} {bs : List Byte} (h : ∀ k < n, sentBytes (f k) = bs) :
    sentBytes ((List.range n).flatMap f) = (List.replicate n bs).flatten := by
  induction n with
  | zero => rfl
  | succ n ih =>
    rw [List.range_succ, List.flatMap_append, sentBytes_append, ih fun k hk => h k (by omega), List.replicate_succ',
      List.flatten_append]
    simp [h n (by omega)]

/-- A blank word is sent as two bytes 0xFF. -/
theorem wireBytes_blank : wireBytes (blank 16) = List.replicate 2 0xFF := by decide

/-- Settles O50: every word the read-out meets has been blanked, and is sent as two bytes 0xFF. -/
theorem eraseThenRead : Obligations.EraseThenRead := by
  intro s t w len hwf htx hregion hexec
  cases hexec
  obtain ⟨-, -, ⟨-, hboot, hflash⟩, -⟩ := id hwf
  obtain ⟨t₂, ws, hread, hlen, -, htrace, hwords, -⟩ :=
    readFlash ((s.chipErase.recvWord w).loadAr w) len (by simpa using hwf)
  simp only [State.loadAr_ar, State.loadAr_flash, State.recvWord_flash, State.loadAr_cfg, State.recvWord_cfg,
    State.chipErase_cfg, htx, if_true] at htrace hwords hread
  refine ⟨_, t₂, rfl, hread, ?_⟩
  have hturn (k : Nat) (hk : k < ws.length) : sentBytes (.readFlash (addr (2 * w.toNat + 2 * k)) (ws.getD k 0) ::
      (wireBytes (ws.getD k 0)).map .send) = List.replicate 2 0xFF := by
    have haddr : (2 * w.toNat + 2 * k) % 65536 = 2 * w.toNat + 2 * k := by omega
    have hword := hwords k hk (by omega)
    rw [haddr, State.chipErase_read hwf, if_pos (by omega)] at hword
    rw [hword, sentBytes_readFlash, sentBytes_map_send]
    exact wireBytes_blank
  rw [htrace, sentBytes_append, sentBytes_append, sentBytes_turns hturn, hlen, List.flatten_replicate_replicate,
    Nat.mul_comm]
  simp

end Sys2Proof.Machine
end
section
/-! SUPPORT. Which command issues which transaction (O40): what a command records is built up from the bytes it takes,
the bytes it sends and the closed forms of its loops. -/

namespace Sys2Proof.Machine

variable {c : Config} {i : Instr} {s t u : State} {b : Byte} {bs : List Byte}

/-- The transactions a command may issue (spec/20 R55 to R62). -/
def Txn.IssuedBy (c : Config) (i : Instr) (x : Txn) : Prop :=
  match x with
  | .recv _ => x ∈ (argumentBytes i).map .recv
  | .send _ => i ≠ .exit
  | .pageErase _ => i = .chiperase
  | .pageFill _ _ | .pageWrite _ | .nvmWait => ∃ len p, i = .blkload len (some ⟨c.mtFlash, p⟩)
  | .writeEeprom _ _ => ∃ len p, i = .blkload len (some ⟨c.mtEeprom, p⟩)
  | .readFlash _ _ => ∃ len, i = .blkread len c.mtFlash
  | .readEeprom _ _ => ∃ len, i = .blkread len c.mtEeprom
  | .handoff => i = .exit

/-- From `s` to `t` only transactions that `i` may issue are recorded. -/
def State.Issues (c : Config) (i : Instr) (s t : State) : Prop :=
  ∃ new, t.trace = s.trace ++ new ∧ ∀ x ∈ new, x.IssuedBy c i

theorem issuedBy_recv (h : b ∈ argumentBytes i) : (Txn.recv b).IssuedBy c i := List.mem_map_of_mem h

theorem issuedBy_map_recv (h : bs ⊆ argumentBytes i) : ∀ x ∈ bs.map Txn.recv, x.IssuedBy c i :=
  List.forall_mem_map.mpr fun _ hb => issuedBy_recv (h hb)

theorem issuedBy_map_send (h : i ≠ .exit) : ∀ x ∈ bs.map Txn.send, x.IssuedBy c i :=
  List.forall_mem_map.mpr fun _ _ => h

namespace State.Issues

theorem refl (s : State) : s.Issues c i s := ⟨[], by simp, nofun⟩

theorem append {new : List Txn} (h : s.Issues c i t) (hu : u.trace = t.trace ++ new)
    (hnew : ∀ x ∈ new, x.IssuedBy c i) : s.Issues c i u := by
  obtain ⟨old, ht, hold⟩ := h
  exact ⟨old ++ new, by rw [hu, ht, List.append_assoc], List.forall_mem_append.mpr ⟨hold, hnew⟩⟩

theorem recv (h : s.Issues c i t) (hb : b ∈ argumentBytes i) : s.Issues c i (t.recv b) :=
  h.append (t.recv_trace b) (issuedBy_map_recv (bs := [b]) (by simpa))

theorem recvWord {w : Word} (h : s.Issues c i t) (hw : wireBytes w ⊆ argumentBytes i) :
    s.Issues c i (t.recvWord w) :=
  h.append (t.recvWord_trace w) (issuedBy_map_recv hw)

theorem answer (h : s.Issues c i t) (hi : i ≠ .exit) (bs : List Byte) : s.Issues c i (t.answer bs) :=
  h.append (t.answer_trace bs) (issuedBy_map_send hi)

/-- The flash arm of block-load (spec/43 R162). -/
theorem loadWords_commitBuffer {len : Word} {p : List Byte} (h : s.Issues c i t)
    (hi : i = .blkload len (some ⟨c.mtFlash, p⟩)) (hp : p.length % 2 = 0) :
    s.Issues c i (t.loadWords 0 p).commitBuffer := by
  subst hi
  refine (h.append (t.loadWords_trace 0 p hp) (issuedBy_map_recv ?_)).append (State.commitBuffer_trace _) ?_
  · simp [argumentBytes]
  · simp [or_imp, forall_and, Txn.IssuedBy]

/-- The EEPROM arm of block-load (R163). -/
theorem loadBytes {len : Word} {p : List Byte} (h : s.Issues c i t)
    (hi : i = .blkload len (some ⟨c.mtEeprom, p⟩)) : s.Issues c i (t.loadBytes p) := by
  subst hi
  refine h.append (t.loadBytes_trace p) (List.forall_mem_flatMap.mpr fun k hk => ?_)
  have hk : k < p.length := List.mem_range.mp hk
  simp [Txn.IssuedBy, argumentBytes, hk]

/-- The flash arm of block-read (spec/44 R181). -/
theorem readWords {len : Word} (h : s.Issues c i t) (hi : i = .blkread len c.mtFlash) (n : Nat) :
    s.Issues c i (t.readWords n) := by
  subst hi
  obtain ⟨ws, -, htrace, -⟩ := t.readWords_trace n
  refine h.append htrace (List.forall_mem_flatMap.mpr fun k _ => List.forall_mem_cons.mpr ⟨⟨len, rfl⟩, ?_⟩)
  exact issuedBy_map_send (by simp)

/-- The EEPROM arm of block-read (R182). -/
theorem readBytes {len : Word} (h : s.Issues c i t) (hi : i = .blkread len c.mtEeprom) (n : Nat) :
    s.Issues c i (t.readBytes n) := by
  subst hi
  obtain ⟨bs, -, htrace, -⟩ := t.readBytes_trace n
  refine h.append htrace (List.forall_mem_flatMap.mpr fun k _ => List.forall_mem_cons.mpr ⟨⟨len, rfl⟩, ?_⟩)
  exact issuedBy_map_send (bs := [_]) (by simp)

end State.Issues

theorem memTarget_eeprom {mt : Byte} (h : memTarget c mt = some .eeprom) : mt = c.mtEeprom := by
  unfold memTarget at h
  split_ifs at h <;> simp_all

/-- The arms of block-load after the memory type. -/
theorem State.Issues.loadBody {len : Word} {body : LoadBody} (h : s.Issues t.cfg (.blkload len (some body)) t)
    (hfits : LoadBody.fits t.cfg len (some body) = true) :
    s.Issues t.cfg (.blkload len (some body)) (t.loadBody body) := by
  obtain ⟨-, hpayload⟩ := (fits_some_iff ..).mp hfits
  obtain ⟨mt, p⟩ := body
  unfold State.loadBody
  split
  next hmt =>
    obtain rfl := (memTarget_flash_iff ..).mp hmt
    exact h.loadWords_commitBuffer rfl (by simp [hpayload, payloadBytes_eq])
  next hmt =>
    obtain rfl := memTarget_eeprom hmt
    exact (h.loadBytes rfl).answer nofun _
  next => exact h.answer nofun _

/-- The arms of block-read after the memory type. -/
theorem State.Issues.readBody {len : Word} {mt : Byte} (h : s.Issues t.cfg (.blkread len mt) t) :
    s.Issues t.cfg (.blkread len mt) (t.readBody len mt) := by
  unfold State.readBody
  split
  next hmt =>
    obtain rfl := (memTarget_flash_iff ..).mp hmt
    exact State.Issues.readWords (t := t.shiftAr) h rfl _
  next hmt =>
    obtain rfl := memTarget_eeprom hmt
    exact h.readBytes rfl _
  next => exact h.answer nofun _

/-- A command records only what it may issue. -/
theorem exec_issues (hexec : exec i s = .next t) : s.Issues s.cfg i t := by
  have hs : s.Issues s.cfg i s := .refl s
  cases i with
  | setaddr a =>
    cases hexec
    have hword : s.Issues s.cfg _ ((s.recvWord a).setAr a) := hs.recvWord fun _ h => h
    exact hword.answer nofun _
  | devtype b | ledset b | ledclr b => cases hexec; exact (hs.recv (List.mem_singleton_self b)).answer nofun _
  | chiperase =>
    cases hexec
    exact (hs.append (s.eraseLoop_trace 0 _) (List.forall_mem_map.mpr fun _ _ => rfl)).answer nofun _
  | exit => cases hexec; exact hs.append (s.log_trace .handoff) (List.forall_mem_singleton.mpr rfl)
  | blkload len body =>
    cases body with
    | none =>
      obtain ⟨-, rfl⟩ := execBlkload_none_iff.mp hexec
      have hlen : s.Issues s.cfg _ ((s.recvWord len).setLen len) := hs.recvWord fun _ h => h
      exact hlen.answer nofun _
    | some body =>
      obtain ⟨hfits, rfl⟩ := execBlkload_some_iff.mp hexec
      have hlen : s.Issues s.cfg _ ((s.recvWord len).setLen len) := hs.recvWord (List.subset_append_left ..)
      exact State.Issues.loadBody (hlen.recv (by simp [argumentBytes])) hfits
  | blkread len mt =>
    cases hexec
    have hlen : s.Issues s.cfg _ ((s.recvWord len).setLen len) := hs.recvWord (List.subset_append_left ..)
    exact State.Issues.readBody (hlen.recv (by simp [argumentBytes]))
  | _ => cases hexec; exact hs.answer nofun _

/-- Settles O40: `Txn.IssuedBy` is what the statement says of each transaction. -/
theorem transactionIssuers : Obligations.TransactionIssuers :=
  fun _ _ _ hexec => exec_issues hexec

end Sys2Proof.Machine
end

section
/-! SUPPORT. The encoding (O1 to O6, O12): the row a byte selects, how many bytes a command takes, and that bytes
which are no complete command are the beginning of one. -/

namespace Sys2Proof

open Machine

variable {c : Config} {bs more : List Byte}

/-- Settles O1: the command byte selects the command's own row, whose format reads its arguments back. -/
theorem decodeOfEncode : Obligations.DecodeOfEncode := decode_encode

/-- Settles O2: every format reads back exactly the argument bytes it took. -/
theorem encodeOfDecode : Obligations.EncodeOfDecode := fun _ _ _ _ h =>
  let ⟨hi, hbs⟩ := decode_ok h
  ⟨hi, hbs.symm⟩

/-! ### The row a byte selects -/

/-- The rows of the table in the order of R95. -/
def Opcode.rows : List Opcode :=
  [.enterprog, .leaveprog, .autoinc, .setaddr, .chiperase, .devtype, .ledset, .ledclr, .readsig, .devcodes, .swid,
    .swver, .progtype, .exit, .blksup, .blkload, .blkread]

/-- A row is matched by the byte it is paired with in the table, the unknown row by the bytes that are not there. -/
theorem OpBytes.matches_iff (ops : OpBytes) (b : Byte) (o : Opcode) :
    ops.Matches b o ↔ (o = .unknown ∧ b ∉ ops.toList) ∨ (b, o) ∈ ops.toList.zip Opcode.rows := by
  cases o <;> simp [OpBytes.Matches, OpBytes.toList, Opcode.rows]

/-- Without repetitions in the first list, an element of it is paired with one element only. -/
theorem eq_of_mem_zip {α β : Type} {l : List α} {l' : List β} {a : α} {b b' : β} (hl : l.Nodup)
    (h : (a, b) ∈ l.zip l') (h' : (a, b') ∈ l.zip l') : b = b' := by
  obtain ⟨k, hk, hab⟩ := List.getElem_of_mem h
  obtain ⟨k', hk', hab'⟩ := List.getElem_of_mem h'
  rw [List.getElem_zip, Prod.mk.injEq] at hab hab'
  obtain ⟨ha, rfl⟩ := hab
  obtain ⟨ha', rfl⟩ := hab'
  obtain rfl : k = k' := hl.getElem_inj_iff.mp (ha.trans ha'.symm)
  rfl

/-- A byte matches one row only, when the 17 bytes are distinct (spec/00 R9). -/
theorem OpBytes.Matches.unique {ops : OpBytes} {b : Byte} {o o' : Opcode} (hops : ops.toList.Nodup)
    (h : ops.Matches b o) (h' : ops.Matches b o') : o = o' := by
  rw [OpBytes.matches_iff] at h h'
  obtain ⟨rfl, hnone⟩ | hrow := h <;> obtain ⟨rfl, hnone'⟩ | hrow' := h'
  · rfl
  · exact absurd (List.of_mem_zip hrow').1 hnone
  · exact absurd (List.of_mem_zip hrow).1 hnone'
  · exact eq_of_mem_zip hops hrow hrow'

/-- Settles O3: the selected row matches the byte, and is the only one to do so. -/
theorem dispatchByEquality : Obligations.DispatchByEquality := by
  intro c b o hwf
  obtain ⟨-, -, -, -, -, hops, -⟩ := hwf
  refine Iff.trans ⟨?_, ?_⟩ (c.op.matches_iff b o)
  · rintro rfl
    exact opcodeOf_matches c.op b
  · exact (opcodeOf_matches c.op b).unique hops

/-! ### The bytes a command takes -/

/-- The argument bytes of a block-load: the length, and unless it is oversize the memory type and the payload
(spec/30 R98). -/
theorem argumentBytes_blkload_length {len : Word} {body : LoadBody} (hfits : LoadBody.fits c len (some body) = true) :
    (argumentBytes (.blkload len (some body))).length = 3 + payloadBytes c len body.memType := by
  obtain ⟨-, hpayload⟩ := (fits_some_iff ..).mp hfits
  simp only [argumentBytes, wireBytes, List.length_append, List.length_cons, List.length_nil, hpayload]
  omega

namespace Machine

variable {s t : State} {i : Instr}

@[simp] theorem State.loadBody_rx (s : State) (body : LoadBody) : (s.loadBody body).rx = s.rx := by
  unfold State.loadBody
  split <;> simp

@[simp] theorem State.readBody_rx (s : State) (len : Word) (mt : Byte) : (s.readBody len mt).rx = s.rx := by
  unfold State.readBody
  split <;> simp

/-- The meaning of a well-formed command is a next state. -/
theorem exec_next (hwf : s.cfg.wf) (hi : i.wf s.cfg = true) : ∃ t, exec i s = .next t :=
  let ⟨t, hexec, _⟩ := s.dispatch_runsTo i s.rx hwf hi
  ⟨t, hexec⟩

/-- Every command leaves the host's stream where its bytes ended and, but for exit, ends in `AwaitCommand` (spec/10
R32). -/
theorem exec_stream_phase (hexec : exec i s = .next t) :
    t.rx = s.rx ∧ (i ≠ .exit → t.phase = .awaitCommand) := by
  cases i with
  | exit => cases hexec; exact ⟨rfl, fun h => absurd rfl h⟩
  | blkload len body =>
    cases body with
    | none => obtain ⟨-, rfl⟩ := execBlkload_none_iff.mp hexec; simp
    | some body => obtain ⟨-, rfl⟩ := execBlkload_some_iff.mp hexec; simp
  | _ => cases hexec; simp

end Machine

/-- Settles O4: the bytes taken are the encoding of a well-formed command, and its meaning leaves the others. -/
theorem commandLength : Obligations.CommandLength := by
  constructor
  · intro c bs i rest h
    obtain ⟨hi, rfl⟩ := decode_ok h
    rw [List.length_append, Nat.add_comm, encode, List.length_cons]
    cases i with
    | blkload len body =>
      cases body with
      | none =>
        have hover : c.pageWords < len.toNat := of_decide_eq_true hi
        simp [argumentBytes, wireBytes, hover]
      | some body =>
        have hinRange : ¬ c.pageWords < len.toNat := Nat.not_lt.mpr ((fits_some_iff ..).mp hi).1
        rw [argumentBytes_blkload_length hi, payloadBytes_eq]
        simp only [if_neg hinRange]
        split_ifs <;> omega
    | _ => rfl
  · intro s i rest hwf henv hphase hdec
    obtain ⟨t, hexec⟩ := exec_next (s := s.takeCommand rest) hwf (decode_ok hdec).1
    obtain ⟨hrx, hend⟩ := exec_stream_phase hexec
    exact ⟨t, (stepRunsDecoded s i rest hwf henv hphase hdec).trans hexec, hrx, hend⟩

/-! ### Bytes that are no complete command -/

/-- Some continuation makes the bytes exactly what `dec` reads. -/
def Completes (dec : List Byte → Decoded) (bs : List Byte) : Prop :=
  ∃ more i, dec (bs ++ more) = .ok (i, [])

/-- What can be completed after more bytes can be completed. -/
theorem Completes.of_append {dec : List Byte → Decoded} (h : Completes dec (bs ++ more)) : Completes dec bs := by
  obtain ⟨more', i, h⟩ := h
  exact ⟨more ++ more', i, by rwa [← List.append_assoc]⟩

/-- A block-load in range with exactly its payload is one command (spec/30 R94). -/
theorem decodeFBL_payload {hi lo mt : Byte} (hin : oversize c (joinBytes hi lo) = false)
    (hlen : bs.length = payloadBytes c (joinBytes hi lo) mt) :
    decodeFBL c (hi :: lo :: mt :: bs) = .ok (.blkload (joinBytes hi lo) (some ⟨mt, bs⟩), []) := by
  simp [decodeFBL, hin, ← hlen]

/-- A block-load in range that lacks payload bytes is completed by as many as it lacks. -/
theorem decodeFBL_completes_payload {hi lo mt : Byte} (hin : oversize c (joinBytes hi lo) = false)
    (hshort : bs.length ≤ payloadBytes c (joinBytes hi lo) mt) :
    Completes (decodeFBL c) (hi :: lo :: mt :: bs) :=
  ⟨_, _, decodeFBL_payload (bs := bs ++ .replicate (payloadBytes c (joinBytes hi lo) mt - bs.length) 0) hin
    (by rw [List.length_append, List.length_replicate]; omega)⟩

/-- Two length bytes are completed by nothing, when the length is oversize, or by a memory type and its payload. -/
theorem decodeFBL_completes_length (hi lo : Byte) : Completes (decodeFBL c) [hi, lo] := by
  cases hover : oversize c (joinBytes hi lo) with
  | true => exact ⟨[], .blkload (joinBytes hi lo) none, by simp only [List.append_nil, decodeFBL, hover, if_true]⟩
  | false => exact .of_append (more := [0]) (decodeFBL_completes_payload hover (Nat.zero_le _))

theorem decodeFBL_completes (h : ∃ m, decodeFBL c bs = .error m) : Completes (decodeFBL c) bs := by
  match bs, h with
  | [], _ => exact .of_append (more := [0, 0]) (decodeFBL_completes_length 0 0)
  | [hi], _ => exact .of_append (more := [0]) (decodeFBL_completes_length hi 0)
  | [hi, lo], _ => exact decodeFBL_completes_length hi lo
  | hi :: lo :: mt :: bs, ⟨m, h⟩ =>
    simp only [decodeFBL] at h
    split_ifs at h with hover hshort
    exact decodeFBL_completes_payload (Bool.eq_false_iff.mpr hover) hshort.le

theorem decodeF1_completes {mk : Byte → Instr} (h : ∃ m, decodeF1 mk bs = .error m) : Completes (decodeF1 mk) bs := by
  match bs, h with
  | [], _ => exact ⟨[0], _, rfl⟩

theorem decodeFA_completes (h : ∃ m, decodeFA bs = .error m) : Completes decodeFA bs := by
  match bs, h with
  | [], _ => exact ⟨[0, 0], _, rfl⟩
  | [_], _ => exact ⟨[0], _, rfl⟩

theorem decodeFBR_completes (h : ∃ m, decodeFBR bs = .error m) : Completes decodeFBR bs := by
  match bs, h with
  | [], _ => exact ⟨[0, 0, 0], _, rfl⟩
  | [_], _ => exact ⟨[0, 0], _, rfl⟩
  | [_, _], _ => exact ⟨[0], _, rfl⟩

/-- Of every row, arguments that are not all there are the beginning of some that are (spec/30 R91). -/
theorem decodeArgs_completes {cmd : Byte} {o : Opcode} (h : ∃ m, decodeArgs c cmd o bs = .error m) :
    Completes (decodeArgs c cmd o) bs := by
  cases o with
  | setaddr => exact decodeFA_completes h
  | devtype | ledset | ledclr => exact decodeF1_completes h
  | blkload => exact decodeFBL_completes h
  | blkread => exact decodeFBR_completes h
  | _ => obtain ⟨_, h⟩ := h; cases h

/-- Settles O5: without a command byte any row without arguments will do; after one, its arguments. -/
theorem incompleteExtends : Obligations.IncompleteExtends := by
  intro c bs m h
  cases bs with
  | nil =>
    have hzero : Completes (decodeArgs c 0 (opcodeOf c.op 0)) [] := by
      cases hdec : decodeArgs c 0 (opcodeOf c.op 0) [] with
      | error m => exact decodeArgs_completes ⟨m, hdec⟩
      | ok r =>
        obtain ⟨-, hbs, -⟩ := decodeArgs_ok (i := r.1) (rest := r.2) hdec
        obtain ⟨-, hrest⟩ := List.append_eq_nil_iff.mp hbs.symm
        exact ⟨[], r.1, by rw [List.append_nil, hdec, ← hrest]⟩
    obtain ⟨more, i, hmore⟩ := hzero
    exact ⟨0 :: more, i, hmore⟩
  | cons cmd bs => exact decodeArgs_completes ⟨m, h⟩

/-- Settles O6: each word is run through the decoder. -/
theorem tableWordsDecode : Obligations.TableWordsDecode := by
  unfold Obligations.TableWordsDecode
  decide

/-- Settles O12: the shape is tested before the length. -/
theorem illFormedRefused : Obligations.IllFormedRefused := by
  intro s len body hi
  have hshape : LoadBody.fits s.cfg len body = false := hi
  simp [exec, execBlkload, hshape]

end Sys2Proof
end

section
/-! SUPPORT. The response of every command, on the wire (O36): each part of a command's meaning takes bytes from the
host or gives it some, and all that it takes comes first. -/

namespace Sys2Proof.Machine

variable {s t u : State} {i : Instr} {new : List Txn}

/-! ### Bytes exchanged -/

/-- A transaction of the NVM port takes no byte from the host and gives it none. -/
theorem Txn.no_byte_of_nvm {x : Txn} (hx : x.isNvm = true) : x.receivedByte = none ∧ x.sentByte = none := by
  cases x with
  | recv | send => cases hx
  | _ => exact ⟨rfl, rfl⟩

theorem receivedBytes_of_nvm (hnvm : ∀ x ∈ new, x.isNvm = true) : receivedBytes new = [] :=
  List.filterMap_eq_nil_iff.mpr fun x hx => (Txn.no_byte_of_nvm (hnvm x hx)).1

theorem sentBytes_of_nvm (hnvm : ∀ x ∈ new, x.isNvm = true) : sentBytes new = [] :=
  List.filterMap_eq_nil_iff.mpr fun x hx => (Txn.no_byte_of_nvm (hnvm x hx)).2

/-- From `s` to `t` the host has given the bytes `taken` and been given the bytes `sent`. -/
def State.Exchanges (s : State) (taken sent : List Byte) (t : State) : Prop :=
  ∃ new, t.trace = s.trace ++ new ∧ receivedBytes new = taken ∧ sentBytes new = sent

namespace State.Exchanges

variable {taken taken' sent sent' : List Byte}

theorem refl (s : State) : s.Exchanges [] [] s := ⟨[], by simp, rfl, rfl⟩

theorem trans (h : s.Exchanges taken sent t) (h' : t.Exchanges taken' sent' u) :
    s.Exchanges (taken ++ taken') (sent ++ sent') u := by
  obtain ⟨new, htrace, rfl, rfl⟩ := h
  obtain ⟨new', htrace', rfl, rfl⟩ := h'
  exact ⟨new ++ new', by rw [htrace', htrace, List.append_assoc], by simp, by simp⟩

/-- Bytes that are all taken. -/
theorem of_recv {bs : List Byte} (ht : t.trace = s.trace ++ bs.map .recv) : s.Exchanges bs [] t :=
  ⟨_, ht, by simp, by simp⟩

/-- Bytes that are all sent. -/
theorem of_send {bs : List Byte} (ht : t.trace = s.trace ++ bs.map .send) : s.Exchanges [] bs t :=
  ⟨_, ht, by simp, by simp⟩

/-- Transactions of the NVM port exchange nothing with the host. -/
theorem of_nvm (ht : t.trace = s.trace ++ new) (hnvm : ∀ x ∈ new, x.isNvm = true) : s.Exchanges [] [] t :=
  ⟨new, ht, receivedBytes_of_nvm hnvm, sentBytes_of_nvm hnvm⟩

end State.Exchanges

/-! ### The loops -/

theorem State.eraseLoop_exchanges (s : State) (a n : Nat) : s.Exchanges [] [] (s.eraseLoop a n) :=
  .of_nvm (s.eraseLoop_trace a n) (List.forall_mem_map.mpr fun _ _ => rfl)

/-- The end of a flash block-load sends CR (spec/43 R162). -/
theorem State.commitBuffer_exchanges (s : State) : s.Exchanges [] [s.cfg.cr] s.commitBuffer := by
  have hfills : ∀ x ∈ (List.range s.cfg.pageWords).map fun k =>
      Txn.pageFill (addr (2 * s.ar.toNat + 2 * k)) (s.buf.getD k 0), x.isNvm = true :=
    List.forall_mem_map.mpr fun _ _ => rfl
  refine ⟨_, s.commitBuffer_trace, ?_, ?_⟩
  · rw [receivedBytes_append, receivedBytes_nvmWait, receivedBytes_of_nvm hfills]; rfl
  · rw [sentBytes_append, sentBytes_nvmWait, sentBytes_of_nvm hfills]; rfl

/-- The EEPROM loop of block-load takes the payload (R163). -/
theorem State.loadBytes_exchanges (s : State) (bs : List Byte) : s.Exchanges bs [] (s.loadBytes bs) := by
  induction bs generalizing s with
  | nil => exact .refl s
  | cons b bs ih => exact .trans (taken := [b]) ⟨_, s.loadByteAt_trace b, rfl, rfl⟩ (ih _)

/-- The flash loop of block-read sends two bytes a turn (spec/44 R181). -/
theorem State.readWords_exchanges (s : State) (n : Nat) :
    ∃ sent, sent.length = 2 * n ∧ s.Exchanges [] sent (s.readWords n) := by
  induction n generalizing s with
  | zero => exact ⟨[], rfl, .refl s⟩
  | succ n ih =>
    obtain ⟨sent, hlen, hsent⟩ := ih s.readWordOut
    exact ⟨wireBytes s.wordToSend ++ sent, by rw [List.length_append, hlen, Nat.add_comm]; rfl,
      .trans (taken := []) ⟨_, s.readWordOut_trace, by simp, by simp⟩ hsent⟩

/-- The EEPROM loop of block-read sends one byte a turn (R182). -/
theorem State.readBytes_exchanges (s : State) (n : Nat) :
    ∃ sent, sent.length = n ∧ s.Exchanges [] sent (s.readBytes n) := by
  induction n generalizing s with
  | zero => exact ⟨[], rfl, .refl s⟩
  | succ n ih =>
    obtain ⟨sent, hlen, hsent⟩ := ih s.readByteOut
    exact ⟨s.eepromByte s.ar :: sent, by simp [hlen],
      .trans (taken := []) (sent := [_]) ⟨_, s.readByteOut_trace, rfl, rfl⟩ hsent⟩

/-! ### Whole commands -/

/-- After the memory type, block-load takes the payload and then answers CR, or 0x3F to an unknown type (spec/43 R160,
R164). -/
theorem State.loadBody_exchanges {len : Word} {body : LoadBody}
    (hpayload : body.payload.length = payloadBytes s.cfg len body.memType) :
    ∃ u, s.Exchanges body.payload [] u ∧ u.Exchanges []
      (if body.memType = s.cfg.mtFlash ∨ body.memType = s.cfg.mtEeprom then [s.cfg.cr] else [0x3F])
      (s.loadBody body) := by
  rw [payloadBytes_eq] at hpayload
  unfold State.loadBody memTarget
  by_cases hflash : body.memType = s.cfg.mtFlash
  · rw [if_pos hflash] at hpayload
    rw [if_pos hflash, if_pos (.inl hflash)]
    have hpay := s.loadWords_trace 0 body.payload (by omega)
    exact ⟨_, .of_recv hpay, by simpa using (s.loadWords 0 body.payload).commitBuffer_exchanges⟩
  rw [if_neg hflash] at hpayload ⊢
  by_cases heeprom : body.memType = s.cfg.mtEeprom
  · rw [if_pos heeprom, if_pos (.inr heeprom)]
    exact ⟨_, s.loadBytes_exchanges _, .of_send (State.answer_trace ..)⟩
  · rw [if_neg heeprom] at hpayload ⊢
    rw [if_neg (not_or.mpr ⟨hflash, heeprom⟩), List.length_eq_zero_iff.mp hpayload]
    exact ⟨s, .refl s, _, s.reject_trace _, rfl, rfl⟩

/-- After the memory type, block-read sends its data, or 0x3F to an unknown type (spec/44 R181 to R183). -/
theorem State.readBody_exchanges (s : State) (len : Word) (mt : Byte) :
    ∃ sent, s.Exchanges [] sent (s.readBody len mt) ∧
      if mt = s.cfg.mtFlash then sent.length = 2 * ((len.toNat + 1) / 2)
      else if mt = s.cfg.mtEeprom then sent.length = len.toNat
      else sent = [0x3F] := by
  unfold State.readBody memTarget
  split_ifs
  · obtain ⟨sent, hlen, hsent⟩ := s.shiftAr.readWords_exchanges (readTurns len)
    exact ⟨sent, hsent, hlen⟩
  · obtain ⟨sent, hlen, hsent⟩ := s.readBytes_exchanges len.toNat
    exact ⟨sent, hsent, hlen⟩
  · exact ⟨_, ⟨_, s.reject_trace _, rfl, rfl⟩, rfl⟩

/-- The response of each command's row (spec/30 R100). -/
def Responds (c : Config) (i : Instr) (sent : List Byte) : Prop :=
  match i with
  | .enterprog | .leaveprog | .setaddr _ | .chiperase | .devtype _ | .ledset _ | .ledclr _ => sent = [c.cr]
  | .autoinc => sent = [0x59]
  | .readsig => sent = c.sig.toList
  | .devcodes => sent = [c.devcode, 0x00]
  | .swid => sent = c.swid.toList
  | .swver => sent = c.swver.toList
  | .progtype => sent = [0x53]
  | .exit => sent = []
  | .blksup => sent = 0x59 :: wireBytes c.blockSizeReport
  | .blkload len body =>
    sent =
      if c.pageWords < len.toNat then [0x3F]
      else match body with
        | some b => if b.memType = c.mtFlash ∨ b.memType = c.mtEeprom then [c.cr] else [0x3F]
        | none => []
  | .blkread len mt =>
    if mt = c.mtFlash then sent.length = 2 * ((len.toNat + 1) / 2)
    else if mt = c.mtEeprom then sent.length = len.toNat
    else sent = [0x3F]
  | .unknown _ => sent = [0x3F]

/-- A command takes its argument bytes, sending none, and then sends its response, taking none. -/
theorem exec_responds (hexec : exec i s = .next t) :
    ∃ u sent, s.Exchanges (argumentBytes i) [] u ∧ u.Exchanges [] sent t ∧ Responds s.cfg i sent := by
  cases i with
  | setaddr a =>
    cases hexec
    exact ⟨(s.recvWord a).setAr a, _, .of_recv (s.recvWord_trace a), .of_send (State.answer_trace ..), rfl⟩
  | devtype b | ledset b | ledclr b =>
    cases hexec
    exact ⟨s.recv b, _, .of_recv (bs := [b]) rfl, .of_send (State.answer_trace ..), rfl⟩
  | chiperase =>
    cases hexec
    exact ⟨s, _, .refl s, (s.eraseLoop_exchanges 0 _).trans (.of_send (State.answer_trace ..)), rfl⟩
  | exit => cases hexec; exact ⟨s, _, .refl s, ⟨[.handoff], rfl, rfl, rfl⟩, rfl⟩
  | unknown b => cases hexec; exact ⟨s, _, .refl s, ⟨_, s.reject_trace _, rfl, rfl⟩, rfl⟩
  | blkload len body =>
    have hlen : s.Exchanges (wireBytes len) [] ((s.recvWord len).setLen len) := .of_recv (s.recvWord_trace len)
    cases body with
    | none =>
      obtain ⟨hover, rfl⟩ := execBlkload_none_iff.mp hexec
      exact ⟨_, _, hlen, ⟨_, State.reject_trace .., rfl, rfl⟩, (if_pos (of_decide_eq_true hover)).symm⟩
    | some body =>
      obtain ⟨hfits, rfl⟩ := execBlkload_some_iff.mp hexec
      obtain ⟨hin, hpayload⟩ := (fits_some_iff ..).mp hfits
      obtain ⟨u, htaken, hsent⟩ := State.loadBody_exchanges
        (s := (((s.recvWord len).setLen len).recv body.memType).setMt body.memType) hpayload
      have htype := hlen.trans (.of_recv (bs := [body.memType]) (State.recv_trace ..))
      exact ⟨u, _, by simpa [argumentBytes] using htype.trans htaken, hsent, (if_neg (Nat.not_lt.mpr hin)).symm⟩
  | blkread len mt =>
    cases hexec
    have hlen : s.Exchanges (wireBytes len) [] ((s.recvWord len).setLen len) := .of_recv (s.recvWord_trace len)
    obtain ⟨sent, hsent, hresponse⟩ := State.readBody_exchanges
      ((((s.recvWord len).setLen len).recv mt).setMt mt) len mt
    exact ⟨_, sent, hlen.trans (.of_recv (bs := [mt]) (State.recv_trace ..)), hsent, hresponse⟩
  | _ => cases hexec; exact ⟨s, _, .refl s, .of_send (s.answer_trace _), rfl⟩

/-- Settles O36: the command byte's `Recv` comes before those of the arguments, and the response after them all. -/
theorem wireResponses : Obligations.WireResponses := by
  intro s i rest hwf henv hphase hi hrx
  obtain ⟨t, hexec⟩ := exec_next (s := (s.setRx rest).recv (commandByte s.cfg i)) hwf hi
  obtain ⟨u, sent, htaken, ⟨post, hpost, hrecv, rfl⟩, hresponse⟩ := exec_responds hexec
  have hcmd : s.Exchanges [commandByte s.cfg i] [] ((s.setRx rest).recv (commandByte s.cfg i)) :=
    .of_recv (State.recv_trace ..)
  obtain ⟨pre, hpre, hbytes, hnone⟩ := hcmd.trans htaken
  exact ⟨t, pre, post, (stepRunsEncoded s i rest hwf henv hphase hi hrx).trans hexec, (exec_stream_phase hexec).1,
    by rw [hpost, hpre], hbytes, hnone, hrecv, hresponse⟩

end Sys2Proof.Machine
end

section
/-! SUPPORT. What a completed `Recv` does at every position (O54), and the commands that only answer: session
commands (O17), those that discard their argument (O18) and the identity queries (O19). -/

namespace Sys2Proof.Machine

/-! ### The next position after a `Recv` -/

/-- The two spellings of an empty block: the latch is 0, or no turn of a loop is to be made. -/
theorem word_eq_zero_iff (w : Word) : w = 0 ↔ w.toNat = 0 := BitVec.toNat_eq

/-- After the last payload word `AR` is shifted, once, and the wait comes next (spec/43 R162 step 2). -/
theorem State.toLoadWord_eq (s : State) (i : Nat) : s.toLoadWord i = { s with
    ar := if i < s.len.toNat then s.ar else addr (2 * s.ar.toNat)
    phase := if i < s.len.toNat then .loadWordHi i else .loadWait } := by
  unfold State.toLoadWord
  split_ifs
  · rfl
  · simp only [State.shiftAr, shiftAddress_eq, State.setAr, State.setPhase]

theorem State.lengthLatched_eq (s : State) : s.lengthLatched =
    s.setPhase (if s.cfg.pageWords < s.len.toNat then .sending 0x3F [] else .loadType) := by
  unfold State.lengthLatched
  simp only [oversize, decide_eq_true_eq]
  split_ifs <;> rfl

/-- The type of a block-load selects the arm; the flash arm of an empty block shifts `AR` at once (spec/43 R160). -/
theorem State.loadTypeLatched_eq (s : State) : s.loadTypeLatched = { s with
    ar := if s.mt = s.cfg.mtFlash ∧ s.len = 0 then addr (2 * s.ar.toNat) else s.ar
    phase :=
      if s.mt = s.cfg.mtFlash then (if s.len = 0 then .loadWait else .loadWordHi 0)
      else if s.mt = s.cfg.mtEeprom then (if s.len = 0 then .sending s.cfg.cr [] else .loadByte 0)
      else .sending 0x3F [] } := by
  unfold State.loadTypeLatched memTarget
  by_cases hflash : s.mt = s.cfg.mtFlash
  · simp only [hflash, if_true, true_and, word_eq_zero_iff, Nat.pos_iff_ne_zero, ne_eq, ite_not, State.toLoadWord_eq]
  by_cases heeprom : s.mt = s.cfg.mtEeprom
  · simp only [hflash, if_pos heeprom, false_and, if_false, word_eq_zero_iff, Nat.pos_iff_ne_zero, ne_eq, ite_not,
      State.toLoadByte_eq, State.setPhase]
  · simp only [hflash, if_neg heeprom, false_and, if_false]
    rfl

theorem readTurns_eq_zero_iff (len : Word) : readTurns len = 0 ↔ len = 0 := by
  rw [word_eq_zero_iff, readTurns]
  omega

/-- The type of a block-read selects the arm; the flash arm shifts `AR`, even for an empty block (spec/44 R180). -/
theorem State.readTypeLatched_eq (s : State) : s.readTypeLatched = { s with
    ar := if s.mt = s.cfg.mtFlash then addr (2 * s.ar.toNat) else s.ar
    phase :=
      if s.mt = s.cfg.mtFlash then
        (if s.len = 0 then .awaitCommand else .readWord ((s.len.toNat + 1) / 2 - 1))
      else if s.mt = s.cfg.mtEeprom then
        (if s.len = 0 then .awaitCommand else .readByte (s.len.toNat - 1))
      else .sending 0x3F [] } := by
  have hword (t : State) (n : Nat) :
      t.toReadWord n = t.setPhase (if n = 0 then .awaitCommand else .readWord (n - 1)) := by cases n <;> rfl
  have hbyte (t : State) (n : Nat) :
      t.toReadByte n = t.setPhase (if n = 0 then .awaitCommand else .readByte (n - 1)) := by cases n <;> rfl
  unfold State.readTypeLatched memTarget
  by_cases hflash : s.mt = s.cfg.mtFlash
  · simp only [if_pos hflash, hword, readTurns_eq_zero_iff, State.shiftAr, shiftAddress_eq]
    rfl
  by_cases heeprom : s.mt = s.cfg.mtEeprom
  · simp only [if_neg hflash, if_pos heeprom, hbyte, word_eq_zero_iff]
    rfl
  · simp only [if_neg hflash, if_neg heeprom]
    rfl

/-- Settles O54: the arms of `State.accept`, each with the test that follows its byte. -/
theorem receivePositions : Obligations.ReceivePositions := by
  intro s b
  cases hp : s.phase <;> simp only [State.accept, hp]
  case devtypeArg | ledsetArg | ledclrArg | setaddrHi | setaddrLo hi | loadLenHi => rfl
  case loadWordHi i | loadByte i | readLenHi | readLenLo hi => rfl
  case loadLenLo hi =>
    rw [State.lengthLatched_eq, State.setLen_len, joinBytes_toNat]
    rfl
  case loadType => exact State.loadTypeLatched_eq _
  case loadWordLo i hi => exact State.toLoadWord_eq _ _
  case readType => exact State.readTypeLatched_eq _

/-! ### Commands that only answer -/

/-- An answer as an outcome: the bytes are recorded, and the block is back in `AwaitCommand`. -/
theorem next_answer (s : State) (bs : List Byte) : (.next (s.answer bs) : Host.Outcome State Fault Refusal) =
    .next { s with trace := s.trace ++ bs.map .send, phase := .awaitCommand } :=
  congrArg _ (s.answer_eq bs)

/-- Settles O17: each meaning is its answer. -/
theorem sessionCommands : Obligations.SessionCommands := fun s =>
  ⟨rfl, rfl, rfl, next_answer s _, next_answer s _, next_answer s _⟩

/-- Taking one byte and answering CR: the meaning of each command that discards its argument (spec/40 R124 to R126). -/
theorem next_recv_answer_cr (s : State) (b : Byte) :
    (.next ((s.recv b).answer (replyCr s.cfg)) : Host.Outcome State Fault Refusal) =
      .next { s with trace := s.trace ++ [.recv b, .send s.cfg.cr], phase := .awaitCommand } := by
  rw [next_answer, State.recv_trace, List.append_assoc]
  rfl

/-- Settles O18: the command byte selects the row that waits for the argument, and the three meanings are one. -/
theorem discardCommands : Obligations.DiscardCommands := by
  intro s b
  refine ⟨rfl, rfl, rfl, fun hwf hphase => ?_,
    next_recv_answer_cr s b, next_recv_answer_cr s b, next_recv_answer_cr s b⟩
  have hdevtype : opcodeOf s.cfg.op s.cfg.op.devtype = .devtype := opcodeOf_commandByte s.cfg (.devtype b) hwf rfl
  have hledset : opcodeOf s.cfg.op s.cfg.op.ledset = .ledset := opcodeOf_commandByte s.cfg (.ledset b) hwf rfl
  have hledclr : opcodeOf s.cfg.op s.cfg.op.ledclr = .ledclr := opcodeOf_commandByte s.cfg (.ledclr b) hwf rfl
  simp only [State.accept, hphase, State.dispatch, State.recv_cfg, hdevtype, hledset, hledclr]
  exact ⟨rfl, rfl, rfl⟩

theorem vector_toList_eq_ofFn {α : Type} {n : Nat} (v : Vector α n) : v.toList = List.ofFn fun i : Fin n => v[i] := by
  rw [← Vector.toList_ofFn]
  exact congrArg _ Vector.ofFn_getElem.symm

/-- Settles O19: each meaning is its answer, and an identity string is the list of its bytes. -/
theorem identityQueries : Obligations.IdentityQueries := by
  intro s
  refine ⟨rfl, rfl, rfl, rfl, rfl, rfl, ?readsig, next_answer s _, ?swid, ?swver, next_answer s _, ?blksup⟩
  case readsig | swid | swver =>
    refine (next_answer s _).trans ?_
    simp only [replySig, replySwid, replySwver, vector_toList_eq_ofFn]
    rfl
  case blksup =>
    refine (next_answer s _).trans ?_
    rw [replyBlksup, wireBytes, highByte_eq_ofNat, lowByte_eq_ofNat]
    rfl

end Sys2Proof.Machine
end

section
/-! SUPPORT. set-address (O20), and chip-erase: its transactions (O21) and what it leaves in the memories (O22). -/

namespace Sys2Proof.Machine

/-! ### set-address -/

/-- The word of two bytes, by its value (spec/20_memory.md R63). -/
theorem joinBytes_eq_ofNat (hi lo : Byte) : joinBytes hi lo = BitVec.ofNat 16 (hi.toNat * 256 + lo.toNat) := by
  rw [← joinBytes_toNat]
  exact (addr_eq_self _).symm

/-- The meaning of set-address writes `AR` and records its two bytes and CR (spec/41 R140). -/
theorem State.recvWord_loadAr (s : State) (w : Word) : (s.recvWord w).loadAr w = { s with
    ar := w
    trace := s.trace ++ (wireBytes w).map .recv ++ [.send s.cfg.cr]
    phase := .awaitCommand } := by
  rw [State.loadAr, State.answer_eq, State.recvWord_eq]
  rfl

/-- Settles O20: the word sent is `joinBytes hi lo`, and the command byte alone selects the row that waits. -/
theorem setAddress : Obligations.SetAddress := by
  intro s hi lo
  change encode s.cfg (.setaddr (joinBytes hi lo)) = _ ∧ _ ∧ exec (.setaddr (joinBytes hi lo)) s = _
  refine ⟨?encode, fun hwf hphase => ?accept, ?exec⟩
  case encode => rw [encode, argumentBytes, wireBytes_joinBytes]; rfl
  case accept =>
    have hrow : opcodeOf s.cfg.op s.cfg.op.setaddr = .setaddr :=
      opcodeOf_commandByte s.cfg (.setaddr (joinBytes hi lo)) hwf rfl
    have hwait : s.accept s.cfg.op.setaddr = (s.recv s.cfg.op.setaddr).setPhase .setaddrHi := by
      simp only [State.accept, hphase, State.dispatch, State.recv_cfg, hrow]
    rw [hwait]
    change State.setPhase (State.recv _ hi) (.setaddrLo hi) = _
    simp [State.recv, State.log, State.setPhase]
  case exec =>
    refine congrArg Host.Outcome.next ((s.recvWord_loadAr _).trans ?_)
    rw [wireBytes_joinBytes, List.append_assoc, joinBytes_eq_ofNat]
    rfl

/-! ### chip-erase -/

/-- The loop of R141 runs once for each page of a well-formed application region. -/
theorem erasePages_eq_div {c : Config} (hwf : c.wf) : erasePages c = c.bootStartBytes / c.pageBytes := by
  have hmul := erasePages_mul_pageBytes c hwf
  obtain ⟨⟨hpages, -⟩, -⟩ := hwf
  exact Nat.eq_div_of_mul_eq_left (by unfold Config.pageBytes; omega) hmul

/-- The loop of R141 stays in the application region, so it draws nothing. -/
theorem State.eraseLoop_erasePages_draws {s : State} (hwf : s.cfg.wf) :
    (s.eraseLoop 0 (erasePages s.cfg)).draws = s.draws := by
  have hpages := erasePages_mul_pageBytes s.cfg hwf
  obtain ⟨⟨hpos, -⟩, -, ⟨-, hboot, hflash⟩, -⟩ := hwf
  have hloop := s.eraseLoop_flash 0 (erasePages s.cfg) 0 hpos (by omega) (by rw [Nat.zero_add, hpages])
  rw [Nat.zero_mul] at hloop
  exact hloop.1

/-- chip-erase changes the flash alone, and records one erase for each page, in ascending order, then CR (spec/41
R141). -/
theorem State.chipErase_eq {s : State} (hwf : s.cfg.wf) : s.chipErase = { s with
    flash := s.chipErase.flash
    trace := s.trace ++
      (List.range (s.cfg.bootStartBytes / s.cfg.pageBytes)).map (fun k => .pageErase (addr (k * s.cfg.pageBytes))) ++
      [.send s.cfg.cr]
    phase := .awaitCommand } := by
  simp [State.chipErase, State.answer_eq, State.eraseLoop_trace, State.eraseLoop_erasePages_draws hwf,
    ← erasePages_eq_div hwf, replyCr]

/-- Settles O21. -/
theorem chipEraseTransactions : Obligations.ChipEraseTransactions := fun s hwf =>
  ⟨rfl, s.chipErase.flash, congrArg Host.Outcome.next (State.chipErase_eq hwf)⟩

/-- Settles O22: `State.chipErase_read` on each side of `BOOT_START_BYTES`. -/
theorem chipEraseMemory : Obligations.ChipEraseMemory := by
  intro s hwf
  refine ⟨s.chipErase, rfl, fun k hk => ?_, fun k hk => ?_, fun a => ?_, s.chipErase_pb⟩
  · rw [State.chipErase_read hwf, if_pos hk]
    rfl
  · rw [State.chipErase_read hwf, if_neg (by omega)]
  · rw [State.chipErase_eeprom]

end Sys2Proof.Machine
end

section
/-! SUPPORT. exit (O23), and the position it leaves (O24): after the handoff nothing is pending, so a step does no more
than let a move of the environment pass. -/

namespace Sys2Proof.Machine

variable {s : State}

/-- Settles O23: the handler is `State.handOff` whatever the state, and exit has no argument bytes. -/
theorem exitHandsOff : Obligations.ExitHandsOff := fun _ => ⟨rfl, rfl⟩

/-- After the handoff no transaction is pending (spec/42 R151). -/
theorem State.transact_of_handedOff (hphase : s.phase = .handedOff) : s.transact = s := by
  simp only [State.transact, hphase]

/-- After the handoff, while no reset is to come, a step only lets moves of the environment pass. -/
theorem step_of_handedOff (hwf : s.cfg.wf) (hphase : s.phase = .handedOff) (hreset : .reset ∉ s.env) :
    ∃ moves, .reset ∉ moves ∧ step s = .next (s.dropMove moves) := by
  cases henv : s.env with
  | nil =>
    have hstep : step s = .next s.transact := step_in_handler hwf henv (by simp [hphase])
    rw [State.transact_of_handedOff hphase] at hstep
    exact ⟨s.env, hreset, hstep⟩
  | cons m moves =>
    have hmoves : .reset ∉ moves := fun h => hreset (henv ▸ List.mem_cons_of_mem m h)
    cases m with
    | reset => exact absurd (henv ▸ List.mem_cons_self) hreset
    | stall =>
      have hstep := step_of_stall hwf henv
      rw [State.stalled_of_no_reset hmoves] at hstep
      exact ⟨s.env, hreset, hstep⟩
    | complete =>
      have hstep := step_of_complete hwf henv
      rw [State.transact_of_handedOff (s := s.dropMove moves) hphase] at hstep
      exact ⟨moves, hmoves, hstep⟩

/-- After the handoff, while no reset is to come, any number of steps only lets moves of the environment pass. -/
theorem run_of_handedOff (n : Nat) (hwf : s.cfg.wf) (hphase : s.phase = .handedOff) (hreset : .reset ∉ s.env) :
    ∃ moves, Sys2Proof.core.run n s = .next (s.dropMove moves) := by
  induction n generalizing s with
  | zero => exact ⟨s.env, rfl⟩
  | succ n ih =>
    obtain ⟨passed, hpassed, hstep⟩ := step_of_handedOff hwf hphase hreset
    obtain ⟨moves, hrun⟩ := ih (s := s.dropMove passed) hwf hphase hpassed
    have hcore : Sys2Proof.core.step s = .next (s.dropMove passed) := hstep
    refine ⟨moves, ?_⟩
    simp only [Host.Core.run, hcore]
    exact hrun

/-- Settles O24: `run_of_handedOff`, and a reset comes before everything else (spec/70 R230). -/
theorem handedOffForEver : Obligations.HandedOffForEver := fun s n hwf hphase =>
  ⟨run_of_handedOff n hwf hphase, fun moves henv =>
    ⟨_, step_of_reset hwf henv, (s.dropMove moves).abandon.restart_phase⟩⟩

end Sys2Proof.Machine
end

section
/-! SUPPORT. block-load as a whole: its two rejections (O26, O27), the registers and transactions of its two arms (O28,
O31), and two flash loads in a row (O51). -/

namespace Sys2Proof.Machine

variable {s t : State} {len : Word} {p : List Byte} {mt : Byte}

/-! ### Length and memory type -/

/-- The state of a block-load that has taken and latched its length and memory type (spec/43 R160). -/
def State.loadBegun (s : State) (len : Word) (mt : Byte) : State :=
  (((s.recvWord len).setLen len).recv mt).setMt mt

@[simp] theorem State.loadBegun_cfg : (s.loadBegun len mt).cfg = s.cfg := rfl
@[simp] theorem State.loadBegun_ar : (s.loadBegun len mt).ar = s.ar := rfl
@[simp] theorem State.loadBegun_buf : (s.loadBegun len mt).buf = s.buf := rfl
@[simp] theorem State.loadBegun_len : (s.loadBegun len mt).len = len := rfl
@[simp] theorem State.loadBegun_mt : (s.loadBegun len mt).mt = mt := rfl
@[simp] theorem State.loadBegun_phase : (s.loadBegun len mt).phase = s.phase := rfl
@[simp] theorem State.loadBegun_flash : (s.loadBegun len mt).flash = s.flash := rfl
@[simp] theorem State.loadBegun_pb : (s.loadBegun len mt).pb = s.pb := rfl
@[simp] theorem State.loadBegun_eeprom : (s.loadBegun len mt).eeprom = s.eeprom := rfl
@[simp] theorem State.loadBegun_rx : (s.loadBegun len mt).rx = s.rx := rfl
@[simp] theorem State.loadBegun_env : (s.loadBegun len mt).env = s.env := rfl
@[simp] theorem State.loadBegun_trace :
    (s.loadBegun len mt).trace = s.trace ++ (wireBytes len ++ [mt]).map .recv := by
  simp [State.loadBegun]
@[simp] theorem State.loadBegun_draws : (s.loadBegun len mt).draws = s.draws := rfl

/-- Settles O26: the length alone is taken before the oversize test. -/
theorem loadOversize : Obligations.LoadOversize := by
  intro s hi lo hlong
  change encode s.cfg (.blkload (joinBytes hi lo) none) = _ ∧ exec (.blkload (joinBytes hi lo) none) s = _
  have hover : oversize s.cfg (joinBytes hi lo) = true := by simpa [oversize, joinBytes_toNat] using hlong
  refine ⟨by rw [encode, argumentBytes, wireBytes_joinBytes]; rfl, execBlkload_none_iff.mpr ⟨hover, ?_⟩⟩
  rw [State.reject_eq, State.recvWord_eq, wireBytes_joinBytes]
  simp [State.setLen, joinBytes]

/-- Settles O27: no payload belongs to a memory type that is neither tag. -/
theorem loadUnknownType : Obligations.LoadUnknownType := by
  intro s hi lo mt hlen hflash heeprom
  change encode s.cfg (.blkload (joinBytes hi lo) _) = _ ∧ exec (.blkload (joinBytes hi lo) _) s = _
  have hfits : LoadBody.fits s.cfg (joinBytes hi lo) (some ⟨mt, []⟩) = true :=
    (fits_some_iff ..).mpr ⟨by rwa [joinBytes_toNat], by simp [payloadBytes_eq, hflash, heeprom]⟩
  have harm : (s.loadBegun (joinBytes hi lo) mt).loadBody ⟨mt, []⟩ =
      (s.loadBegun (joinBytes hi lo) mt).reject .unknownMemType := by
    simp [State.loadBody, memTarget, hflash, heeprom]
  refine ⟨by rw [encode, argumentBytes, wireBytes_joinBytes]; rfl, execBlkload_some_iff.mpr ⟨hfits, harm.trans ?_⟩⟩
  rw [State.reject_eq, State.loadBegun_trace, wireBytes_joinBytes]
  simp [joinBytes]

/-! ### The flash arm -/

/-- The transactions of a flash block-load with `AR` at `x`, which leaves `buf` in `BUF` (spec/43 R162, R168). -/
def flashLoadTxns (c : Config) (x : Nat) (buf : List Word) (len : Word) (p : List Byte) : List Txn :=
  (wireBytes len ++ c.mtFlash :: p).map .recv ++ .nvmWait ::
    (List.range c.pageWords).map (fun i => .pageFill (addr (2 * x + 2 * i)) (buf.getD i 0)) ++
  [.pageWrite (addr (2 * x)), .send c.cr]

/-- Of these transactions exactly one is a page write, at the doubled address. -/
theorem flashLoadTxns_filter_pageWrite (c : Config) (x : Nat) (buf : List Word) (len : Word) (p : List Byte) :
    (flashLoadTxns c x buf len p).filter (fun t => decide (t = .pageWrite (addr (2 * x)))) =
      [.pageWrite (addr (2 * x))] := by
  simp [flashLoadTxns, List.filter_map, Function.comp_def]

/-- A flash block-load that is a command has two payload bytes a word, and does what R162 says. -/
theorem exec_load_flash_iff : exec (.blkload len (some ⟨s.cfg.mtFlash, p⟩)) s = .next t ↔
    len.toNat ≤ s.cfg.pageWords ∧ p.length = 2 * len.toNat ∧ (s.wordsLoaded len p).commitBuffer = t := by
  refine execBlkload_some_iff.trans ?_
  simp [fits_some_iff, payloadBytes_eq, State.loadBody, memTarget, State.wordsLoaded, and_assoc]

@[simp] theorem State.wordsLoaded_cfg : (s.wordsLoaded len p).cfg = s.cfg := by simp [State.wordsLoaded]

@[simp] theorem State.wordsLoaded_ar : (s.wordsLoaded len p).ar = s.ar := by simp [State.wordsLoaded]

/-- The payload's words go to the first cells of `BUF` (R162 step 1). -/
theorem State.wordsLoaded_buf (hp : p.length / 2 ≤ s.buf.length) :
    (s.wordsLoaded len p).buf = wordsOf p ++ s.buf.drop (p.length / 2) := by
  rw [State.wordsLoaded, State.loadWords_buf _ _ _ (by simpa using hp)]
  simp

/-- A flash block-load makes the transactions of R162. -/
theorem State.wordsLoaded_commitBuffer_trace (hp : p.length % 2 = 0) : (s.wordsLoaded len p).commitBuffer.trace =
    s.trace ++ flashLoadTxns s.cfg s.ar.toNat (s.wordsLoaded len p).buf len p := by
  have hpayload : (s.wordsLoaded len p).trace = s.trace ++ (wireBytes len ++ s.cfg.mtFlash :: p).map .recv := by
    rw [State.wordsLoaded, State.loadWords_trace _ _ _ hp]
    simp
  rw [State.commitBuffer_trace, hpayload]
  simp [flashLoadTxns]

/-- Settles O28: the payload, then steps 2 to 6 of R162. -/
theorem loadFlashBlockSide : Obligations.LoadFlashBlockSide := by
  intro s len p hinv hlen hp
  have hwords : p.length / 2 = len.toNat := by omega
  have hbuf := State.wordsLoaded_buf (s := s) (len := len) (p := p) (by rw [hinv.buf_length]; omega)
  refine ⟨_, exec_load_flash hlen hp, ?buf, by simp [shiftAddress_eq], by simp [State.wordsLoaded],
    by simp [State.wordsLoaded], ?trace, by simp, by simp, by simp [State.wordsLoaded], by simp [State.wordsLoaded]⟩
  case buf => rw [State.commitBuffer_buf, hbuf, hwords]
  case trace =>
    rw [State.commitBuffer_buf]
    exact State.wordsLoaded_commitBuffer_trace (by omega)

/-- Settles O51: the second load starts from the doubled address. -/
theorem doubleShift : Obligations.DoubleShift := by
  intro s t u l₁ l₂ p₁ p₂ _ _ _ hfirst hsecond
  obtain ⟨-, -, rfl⟩ := exec_load_flash_iff.mp hfirst
  have hcfg : (s.wordsLoaded l₁ p₁).commitBuffer.cfg = s.cfg := by simp
  have har : addr (2 * (s.wordsLoaded l₁ p₁).commitBuffer.ar.toNat) = addr (4 * s.ar.toNat) := by
    simp only [State.commitBuffer_ar, State.wordsLoaded_ar, shiftAddress_eq, addr_toNat, addr_double_mod]
    congr 1
    omega
  rw [← hcfg] at hsecond
  obtain ⟨-, hp, rfl⟩ := exec_load_flash_iff.mp hsecond
  refine ⟨by simpa [shiftAddress_eq] using har, _, State.wordsLoaded_commitBuffer_trace (by omega), ?_⟩
  rw [← har]
  exact flashLoadTxns_filter_pageWrite ..

/-! ### The EEPROM arm -/

/-- The record of an EEPROM block-load up to its response: each payload byte is taken and written before the next one
(spec/43 R163). -/
theorem State.loadBegun_loadBytes_trace (s : State) (len : Word) (mt : Byte) (p : List Byte) :
    ((s.loadBegun len mt).loadBytes p).trace = s.trace ++ ((wireBytes len ++ [mt]).map .recv ++
      (List.range p.length).flatMap
        (fun i => [.recv (p.getD i 0), .writeEeprom (addr (s.ar.toNat + i)) (p.getD i 0)])) := by
  simp [State.loadBytes_trace, advanceAddress_eq]

/-- Settles O31: the loop of R163, then CR. -/
theorem loadEepromBlockSide : Obligations.LoadEepromBlockSide := by
  intro s len p hwf hlen hp
  refine ⟨_, exec_load_eeprom hwf hlen hp, ?ar, by simp, by simp, ?trace, by simp, by simp, by simp, by simp, by simp⟩
  case ar => simp [State.loadBytes_ar, advanceAddress_eq, hp]
  case trace =>
    have hpayload := s.loadBegun_loadBytes_trace len s.cfg.mtEeprom p
    rw [hp] at hpayload
    rw [State.answer_trace]
    refine (congrArg (· ++ _) hpayload).trans ?_
    simp [replyCr]

end Sys2Proof.Machine
end

section
/-! SUPPORT. A block-load whose payload is cut short (O15, O16): with no move of the environment left the block takes
the command one transaction at a time, and stands at the first byte that is missing. -/

namespace Sys2Proof.Machine

variable {s t : State} {len : Word} {p rest : List Byte} {mt b : Byte}

/-! ### Runs -/

/-- A run goes on from where its first step leads. -/
theorem run_succ_of_step {M : Host.Core} {s t : M.State} (h : M.step s = .next t) (n : Nat) :
    M.run (n + 1) s = M.run n t := by
  simp only [Host.Core.run, h]

/-- Inside a handler, a step at a `Recv` takes the next byte. -/
theorem run_recv (q : Phase) (hwf : s.cfg.wf) (henv : s.env = []) (hwaits : q.waits = true) (hq : q ≠ .awaitCommand)
    (n : Nat) : Sys2Proof.core.run (n + 1) ((s.setRx (b :: rest)).setPhase q) =
      Sys2Proof.core.run n (((s.setRx rest).setPhase q).accept b) := by
  have hstep : step ((s.setRx (b :: rest)).setPhase q) = .next (((s.setRx rest).setPhase q).accept b) := by
    rw [step_in_handler (s := (s.setRx (b :: rest)).setPhase q) hwf henv hq, State.transact_of_byte hwaits rfl]
    rfl
  exact run_succ_of_step (M := Sys2Proof.core) hstep n

/-- A run that leads to a position waiting for a byte, with the stream empty, stays there (spec/70 R240). -/
theorem run_waits {n : Nat} (h : Sys2Proof.core.run n s = .next t) (hwf : t.cfg.wf) (henv : t.env = [])
    (hrx : t.rx = []) (hwaits : t.phase.waits = true) (m : Nat) : Sys2Proof.core.run (n + m) s = .next t :=
  (run_add h m).trans (waitsForTheHost t m hwf henv hrx hwaits)

/-! ### The bytes before the payload -/

/-- The command byte of block-load selects its row, whatever follows it (spec/30 R96). -/
theorem opcodeOf_blkload {c : Config} (hwf : c.wf) : opcodeOf c.op c.op.blkload = .blkload := by
  obtain ⟨⟨-, hfit⟩, -⟩ := id hwf
  exact opcodeOf_commandByte c (.blkload 0xFFFF none) hwf (by simp [Instr.wf, LoadBody.fits, oversize]; omega)

/-- A block-load that lacks payload bytes is no complete command. -/
theorem decode_cut_load {c : Config} (hwf : c.wf) (hlen : len.toNat ≤ c.pageWords)
    (hp : p.length < payloadBytes c len mt) :
    decode c (c.op.blkload :: wireBytes len ++ mt :: p) = .error .payloadByte := by
  have hover : oversize c len = false := by simp [oversize, hlen]
  simp [decode, opcodeOf_blkload hwf, decodeArgs, wireBytes, decodeFBL, joinBytes_high_low, hover, hp]

/-- Four steps take command byte, length and memory type of a block-load that lacks payload bytes. -/
theorem run_cut_load (n : Nat) (hwf : s.cfg.wf) (hphase : s.phase = .awaitCommand) (henv : s.env = [])
    (hlen : len.toNat ≤ s.cfg.pageWords) (hp : p.length < payloadBytes s.cfg len mt)
    (hrx : s.rx = s.cfg.op.blkload :: wireBytes len ++ mt :: p) :
    Sys2Proof.core.run (n + 4) s =
      Sys2Proof.core.run n (((s.recv s.cfg.op.blkload).loadBegun len mt).setRx p).loadTypeLatched := by
  let s₁ := s.recv s.cfg.op.blkload
  have hcommand : Sys2Proof.core.step s =
      .next ((s₁.setRx (highByte len :: lowByte len :: mt :: p)).setPhase .loadLenHi) := by
    refine (step_of_incomplete hwf henv fun _ => ⟨_, hrx ▸ decode_cut_load hwf hlen hp⟩).trans ?_
    rw [State.transact_of_byte (by rw [hphase]; rfl) hrx]
    simp only [State.accept, State.setRx_phase, hphase, State.dispatch, State.recv_cfg, State.setRx_cfg,
      opcodeOf_blkload hwf]
    rfl
  have hlatched : (((s₁.recv (highByte len)).setRx (mt :: p)).setPhase (.loadLenLo (highByte len))).accept
      (lowByte len) = (((s₁.recvWord len).setLen len).setRx (mt :: p)).setPhase .loadType := by
    show ((((s₁.recvWord len).setLen (joinBytes (highByte len) (lowByte len))).setRx (mt :: p)).setPhase
      _).lengthLatched = _
    rw [joinBytes_high_low, State.setPhase_lengthLatched, State.lengthLatched,
      if_neg (by simpa [oversize, s₁] using hlen)]
  rw [run_succ_of_step (M := Sys2Proof.core) hcommand]
  refine (run_recv (s := s₁) .loadLenHi hwf henv rfl nofun _).trans ?_
  refine (run_recv (s := s₁.recv (highByte len)) (.loadLenLo _) hwf henv rfl nofun _).trans ?_
  rw [hlatched]
  refine (run_recv (s := (s₁.recvWord len).setLen len) .loadType (by simpa [s₁]) (by simpa [s₁]) rfl nofun _).trans ?_
  exact congrArg _ (State.setPhase_loadTypeLatched (s := (s₁.loadBegun len mt).setRx p))

/-! ### The flash arm -/

/-- Where the flash arm stands once it has received the bytes `bs` from word `i` on: at the high byte of the next word,
or holding the last byte as the high byte of a word (spec/43 R162 step 1). -/
def wordPosition (i : Nat) : List Byte → Phase
  | [] => .loadWordHi i
  | [b] => .loadWordLo i b
  | _ :: _ :: bs => wordPosition (i + 1) bs

theorem wordPosition_eq (i : Nat) (bs : List Byte) : wordPosition i bs =
    if bs.length % 2 = 0 then .loadWordHi (i + bs.length / 2)
    else .loadWordLo (i + bs.length / 2) (bs.getLastD 0) := by
  induction bs using List.twoStepInduction generalizing i with
  | nil => simp [wordPosition]
  | singleton b => simp [wordPosition]
  | cons_cons hi lo bs ih _ =>
    have hhalf : i + 1 + bs.length / 2 = i + (bs.length + 2) / 2 := by omega
    rw [wordPosition, ih, hhalf]
    cases bs with
    | nil => simp
    | cons b bs =>
      have hparity : (bs.length + 3) % 2 = (bs.length + 1) % 2 := by omega
      simp [Nat.add_assoc, hparity]

theorem wordPosition_waits (i : Nat) (bs : List Byte) : (wordPosition i bs).waits = true := by
  rw [wordPosition_eq]
  split <;> rfl

theorem State.toLoadWord_of_lt {i : Nat} (h : i < s.len.toNat) : s.toLoadWord i = s.setPhase (.loadWordHi i) :=
  if_pos h

/-- The payload loop of the flash arm on a payload that is cut short (R162 step 1). -/
theorem run_cut_words (s : State) (i : Nat) (bs : List Byte) (hwf : s.cfg.wf) (henv : s.env = [])
    (hshort : 2 * i + bs.length < 2 * s.len.toNat) :
    Sys2Proof.core.run bs.length ((s.setRx bs).toLoadWord i) = .next { s with
      buf := (s.loadWords i bs).buf
      rx := []
      trace := s.trace ++ bs.map .recv
      phase := wordPosition i bs } := by
  rw [State.toLoadWord_of_lt (by simp; omega)]
  induction bs using List.twoStepInduction generalizing s i with
  | nil => simp [Host.Core.run, State.loadWords, State.setRx, State.setPhase, wordPosition]
  | singleton b => exact run_recv (.loadWordHi i) hwf henv rfl nofun 0
  | cons_cons hi lo bs ih _ =>
    simp only [List.length_cons] at hshort
    have hnext : (((s.recv hi).setRx bs).setPhase (.loadWordLo i hi)).accept lo =
        ((((s.recv hi).recv lo).setBuf i (joinBytes hi lo)).setRx bs).setPhase (.loadWordHi (i + 1)) :=
      State.toLoadWord_of_lt (by simp; omega)
    have hrest := ih (((s.recv hi).recv lo).setBuf i (joinBytes hi lo)) (i + 1) hwf henv (by simp; omega)
    refine (run_recv (.loadWordHi i) hwf henv rfl nofun _).trans ?_
    refine (run_recv (s := s.recv hi) (.loadWordLo i hi) hwf henv rfl nofun _).trans ?_
    refine (congrArg _ hnext).trans (hrest.trans ?_)
    simp [State.loadWords, wordPosition, State.recv, State.log, State.setBuf]

/-- Settles O15: four bytes, then the words received whole and at most one byte more. -/
theorem cutFlashLoad : Obligations.CutFlashLoad := by
  intro s len p m hinv hphase henv hlen hshort hrx
  let s₁ := (s.recv s.cfg.op.blkload).loadBegun len s.cfg.mtFlash
  have hcut : p.length < payloadBytes s.cfg len s.cfg.mtFlash := by simpa [payloadBytes_eq] using hshort
  have hflash : (s₁.setRx p).loadTypeLatched = (s₁.setRx p).toLoadWord 0 := by
    simp [State.loadTypeLatched, memTarget, s₁]
  have hbuf : (s₁.loadWords 0 p).buf = wordsOf p ++ s.buf.drop (p.length / 2) := by
    rw [State.loadWords_buf _ _ _ (by simp [s₁, hinv.buf_length]; omega)]
    simp [s₁]
  have hwords := run_cut_words s₁ 0 p (by simpa [s₁] using hinv.cfg_wf) (by simpa [s₁]) (by simpa [s₁] using hshort)
  have hrun := (run_cut_load p.length hinv.cfg_wf hphase henv hlen hcut hrx).trans ((congrArg _ hflash).trans hwords)
  rw [Nat.add_comm 4]
  simp only [hbuf] at hrun
  refine (run_waits hrun (by simpa [s₁] using hinv.cfg_wf) (by simpa [s₁]) rfl (wordPosition_waits 0 p) m).trans ?_
  simp [s₁, wordPosition_eq, hrx]

/-! ### The EEPROM arm -/

theorem State.toLoadByte_of_lt {i : Nat} (h : i < s.len.toNat) : s.toLoadByte i = s.setPhase (.loadByte i) :=
  if_pos h

/-- The write of the byte just received ends its turn of the loop of R163. -/
theorem State.loadByteWrite_transact (s : State) (i : Nat) (b : Byte) :
    ((s.recv b).setPhase (.loadByteWrite i b)).transact = (s.loadByteAt b).toLoadByte (i + 1) := by
  show ((((s.recv b).setPhase _).writeEeprom s.ar b).advanceAr 1).toLoadByte (i + 1) = _
  rw [State.setPhase_writeEeprom]
  exact State.setPhase_toLoadByte (s.loadByteAt b) _ _

/-- The payload loop of the EEPROM arm on a payload that is cut short: two steps a byte (R163). -/
theorem run_cut_bytes (s : State) (i : Nat) (bs : List Byte) (hwf : s.cfg.wf) (henv : s.env = [])
    (hshort : i + bs.length < s.len.toNat) :
    Sys2Proof.core.run (2 * bs.length) ((s.setRx bs).toLoadByte i) =
      .next (((s.loadBytes bs).setRx []).setPhase (.loadByte (i + bs.length))) := by
  rw [State.toLoadByte_of_lt (by simp; omega)]
  induction bs generalizing s i with
  | nil => rfl
  | cons b bs ih =>
    simp only [List.length_cons] at hshort
    let s₁ := ((s.recv b).setRx bs).setPhase (.loadByteWrite i b)
    have hturn : s₁.transact = ((s.loadByteAt b).setRx bs).setPhase (.loadByte (i + 1)) := by
      refine ((s.setRx bs).loadByteWrite_transact i b).trans ?_
      rw [State.setRx_loadByteAt]
      exact State.toLoadByte_of_lt (by simp; omega)
    have hwrite : Sys2Proof.core.step s₁ = .next _ :=
      (step_in_handler (s := s₁) hwf henv nofun).trans (congrArg _ hturn)
    have hrest := ih (s.loadByteAt b) (i + 1) (by simpa) (by simpa) (by simp; omega)
    refine (run_recv (.loadByte i) hwf henv rfl nofun _).trans ((run_succ_of_step hwrite _).trans (hrest.trans ?_))
    rw [State.loadBytes, List.length_cons, Nat.add_right_comm, Nat.add_assoc]

/-- Inside the EEPROM the loop of R163 draws nothing. -/
theorem State.loadBytes_draws_inside (s : State) (bs : List Byte) (h : s.ar.toNat + bs.length ≤ s.cfg.eepromBytes)
    (hcfg : s.cfg.eepromBytes ≤ 65536) : (s.loadBytes bs).draws = s.draws := by
  induction bs generalizing s with
  | nil => rfl
  | cons b bs ih =>
    simp only [List.length_cons] at h
    have hdraws : (s.loadByteAt b).draws = s.draws := by
      have hin : s.ar.toNat < s.cfg.eepromBytes := by omega
      simp [State.loadByteAt, State.writeEeprom, hin]
    rw [State.loadBytes, ih _ _ (by simpa), hdraws]
    simp only [State.loadByteAt_ar, State.loadByteAt_cfg, advanceAddress_eq, addr_toNat]
    omega

/-- Inside the EEPROM the loop of R163 writes the payload to consecutive bytes and leaves the others. -/
theorem State.loadBytes_eeprom_inside (s : State) (bs : List Byte) (h : s.ar.toNat + bs.length ≤ s.cfg.eepromBytes)
    (hcfg : s.cfg.eepromBytes ≤ 65536) :
    (∀ i < bs.length, (s.loadBytes bs).eeprom.read (s.ar.toNat + i) = bs.getD i 0) ∧
    (∀ a, a < s.ar.toNat ∨ s.ar.toNat + bs.length ≤ a → (s.loadBytes bs).eeprom.read a = s.eeprom.read a) := by
  have haddr (i : Nat) (hi : i < bs.length) : (s.ar.toNat + i) % 65536 = s.ar.toNat + i := Nat.mod_eq_of_lt (by omega)
  obtain ⟨hpayload, hother⟩ := s.loadBytes_eeprom bs (by omega) fun i hi => by rw [haddr i hi]; omega
  refine ⟨fun i hi => ?_, fun a ha => hother a fun i hi => ?_⟩
  · rw [← haddr i hi, hpayload i hi]
  · rw [haddr i hi]
    omega

/-- Settles O16: four bytes, then a `Recv` and an EEPROM write for each payload byte. -/
theorem cutEepromLoad : Obligations.CutEepromLoad := by
  intro s len p hwf hphase henv hlen hshort hin hrx
  obtain ⟨-, -, -, -, heepromFits, -, htags, -⟩ := id hwf
  let s₁ := (s.recv s.cfg.op.blkload).loadBegun len s.cfg.mtEeprom
  have hcut : p.length < payloadBytes s.cfg len s.cfg.mtEeprom := by simpa [payloadBytes_eq, htags.symm] using hshort
  have heeprom : (s₁.setRx p).loadTypeLatched = (s₁.setRx p).toLoadByte 0 := by
    simp [State.loadTypeLatched, memTarget, s₁, htags.symm]
  have hbytes := run_cut_bytes s₁ 0 p (by simpa [s₁]) (by simpa [s₁]) (by simpa [s₁])
  have hrun := (run_cut_load _ hwf hphase henv hlen hcut hrx).trans ((congrArg _ heeprom).trans hbytes)
  have htrace : (s₁.loadBytes p).trace = _ := State.loadBegun_loadBytes_trace _ _ _ _
  have hdraws : (s₁.loadBytes p).draws = s.draws := by
    rw [State.loadBytes_draws_inside _ _ (by simpa [s₁]) (by simpa [s₁])]
    simp [s₁]
  obtain ⟨hpayload, hother⟩ := s₁.loadBytes_eeprom_inside p (by simpa [s₁]) (by simpa [s₁])
  refine ⟨(s₁.loadBytes p).eeprom, fun m => ?_, by simpa [s₁] using hpayload, by simpa [s₁] using hother⟩
  rw [Nat.add_comm 4]
  refine (run_waits hrun (by simpa [s₁]) ((s₁.loadBytes_env p).trans henv) rfl rfl m).trans ?_
  simp only [State.setRx, State.setPhase, htrace, hdraws, State.loadBytes_ar]
  simp [s₁, advanceAddress_eq]

end Sys2Proof.Machine
end

section
/-! SUPPORT. block-read as a whole: its rejection (O35), the registers and transactions of its EEPROM arm (O34), and
two block-reads in a row (O52). -/

namespace Sys2Proof.Machine

variable {s t : State} {len : Word}

/-- The length and the memory type are latched as block-load latches them (spec/44 R180). -/
theorem exec_read (s : State) (len : Word) (mt : Byte) :
    exec (.blkread len mt) s = .next ((s.loadBegun len mt).readBody len mt) := rfl

/-- Settles O35: the memory type is tested after it is latched, and nothing else is done for an unknown one. -/
theorem readUnknownType : Obligations.ReadUnknownType := by
  intro s hi lo mt hflash heeprom
  change encode s.cfg (.blkread (joinBytes hi lo) mt) = _ ∧ exec (.blkread (joinBytes hi lo) mt) s = _
  have harm : (s.loadBegun (joinBytes hi lo) mt).readBody (joinBytes hi lo) mt =
      (s.loadBegun (joinBytes hi lo) mt).reject .unknownMemType := by
    simp [State.readBody, memTarget, hflash, heeprom]
  refine ⟨by rw [encode, argumentBytes, wireBytes_joinBytes]; rfl, ?_⟩
  rw [exec_read, harm, State.reject_eq, State.loadBegun_trace, wireBytes_joinBytes]
  simp [State.loadBegun, State.recvWord_eq, State.setLen, State.recv, State.log, State.setMt, joinBytes]

/-- The EEPROM arm of block-read is the loop of R182 (spec/44). -/
theorem exec_read_eeprom (hwf : s.cfg.wf) (len : Word) : exec (.blkread len s.cfg.mtEeprom) s =
    .next ((s.loadBegun len s.cfg.mtEeprom).readBytes len.toNat).finish := by
  obtain ⟨-, -, -, -, -, -, htags, -⟩ := hwf
  rw [exec_read]
  simp [State.readBody, memTarget, htags.symm]

/-- Settles O34: the loop of R182, from `AR` as it stands. -/
theorem readEeprom : Obligations.ReadEeprom := by
  intro s len hwf
  obtain ⟨bs, hlen, htrace, hbytes⟩ := (s.loadBegun len s.cfg.mtEeprom).readBytes_trace len.toNat
  refine ⟨_, bs, exec_read_eeprom hwf len, hlen, ?ar, ?trace, ?bytes, ?frame⟩
  case ar => simp [State.readBytes_ar, advanceAddress_eq]
  case trace => simp [htrace, hlen, advanceAddress_eq]
  case bytes =>
    rw [hlen]
    simpa [advanceAddress_eq] using hbytes
  case frame => simp [SameMemories, SameInputs]

/-! ### Two block-reads in a row -/

/-- A flash block-read shifts `AR` and advances it by two for every word read (spec/44 R184). -/
theorem exec_read_flash_ar (hwf : s.cfg.wf) (hexec : exec (.blkread len s.cfg.mtFlash) s = .next t) :
    t.cfg = s.cfg ∧ t.ar = addr (2 * s.ar.toNat + 2 * ((len.toNat + 1) / 2)) := by
  obtain ⟨_, _, hread, -, har, -, -, -, -, -, -, -, hcfg, -⟩ := readFlash s len hwf
  cases hread.symm.trans hexec
  exact ⟨hcfg, har⟩

/-- An EEPROM block-read advances `AR` by one for every byte read (R184). -/
theorem exec_read_eeprom_ar (hwf : s.cfg.wf) (hexec : exec (.blkread len s.cfg.mtEeprom) s = .next t) :
    t.cfg = s.cfg ∧ t.ar = addr (s.ar.toNat + len.toNat) := by
  obtain ⟨_, _, hread, -, har, -, -, -, -, -, -, -, hcfg, -⟩ := readEeprom s len hwf
  cases hread.symm.trans hexec
  exact ⟨hcfg, har⟩

/-- Settles O52: the second block-read starts from the `AR` the first one left, modulo 65536. -/
theorem readsInARow : Obligations.ReadsInARow := by
  intro s t u l₁ l₂ hwf
  refine ⟨fun hfirst hsecond => ?flash, fun hfirst hsecond => ?eeprom⟩
  case flash =>
    obtain ⟨hcfg, har⟩ := exec_read_flash_ar hwf hfirst
    obtain ⟨-, har'⟩ := exec_read_flash_ar (hcfg ▸ hwf) (by rwa [hcfg])
    rw [har', har, addr_toNat, ← addr_add_mod, Nat.mul_mod_mod, addr_add_mod]
  case eeprom =>
    obtain ⟨hcfg, har⟩ := exec_read_eeprom_ar hwf hfirst
    obtain ⟨-, har'⟩ := exec_read_eeprom_ar (hcfg ▸ hwf) (by rwa [hcfg])
    rw [har', har, addr_toNat, addr_add_mod]

end Sys2Proof.Machine
end

section
/-! SUPPORT. The round trips (O48, O49): a block-load leaves its payload in the memory, and a block-read of what is
there sends it. -/

namespace Sys2Proof.Machine

variable {s t : State} {len : Word} {p : List Byte}

/-! ### The bytes of a list -/

/-- What the host is given by turns, one after another. -/
theorem sentBytes_flatMap {α : Type} (l : List α) (f : α → List Txn) :
    sentBytes (l.flatMap f) = l.flatMap fun x => sentBytes (f x) := List.filterMap_flatMap

/-- Going through a list by its indexes is going through the list. -/
theorem range_flatMap_getD {α β : Type} (l : List α) (d : α) (f : α → List β) :
    (List.range l.length).flatMap (fun k => f (l.getD k d)) = l.flatMap f := by
  induction l with
  | nil => rfl
  | cons x l ih =>
    rw [List.length_cons, List.range_succ_eq_map, List.flatMap_cons, List.flatMap_map, List.flatMap_cons, ← ih]
    rfl

/-- The words of a payload have its bytes on the wire (spec/30 R94, spec/20 R63). -/
theorem wordsOf_flatMap_wireBytes (hp : p.length % 2 = 0) : (wordsOf p).flatMap wireBytes = p := by
  induction p using List.twoStepInduction with
  | nil => rfl
  | singleton => simp at hp
  | cons_cons hi lo p ih _ =>
    have hword : wireBytes (hi ++ lo) = [hi, lo] := wireBytes_joinBytes hi lo
    rw [wordsOf, List.flatMap_cons, hword, ih (by simpa [Nat.add_assoc] using hp)]
    rfl

/-! ### What a block-read sends -/

/-- Under `program_word` a flash block-read of words that hold `ws` sends the bytes of `ws` (spec/44 R181, R185). -/
theorem exec_read_flash_sends {ws : List Word} (hwf : s.cfg.wf) (htx : s.cfg.flashReadTx = .programWord)
    (hlen : (len.toNat + 1) / 2 = ws.length) (hin : 2 * s.ar.toNat + 2 * ws.length ≤ s.cfg.flashBytes)
    (hws : ∀ k < ws.length, s.flash.read (s.ar.toNat + k) = ws.getD k 0) :
    ∃ t, exec (.blkread len s.cfg.mtFlash) s = .next t ∧
      sentBytes t.trace = sentBytes s.trace ++ ws.flatMap wireBytes := by
  obtain ⟨-, -, ⟨-, -, hflash⟩, -⟩ := id hwf
  obtain ⟨t, read, hexec, hread, -, htrace, hwords, -⟩ := readFlash s len hwf
  rw [hread, hlen] at htrace hwords
  have hturn (k : Nat) (hk : k < ws.length) : read.getD k 0 = ws.getD k 0 := by
    have haddr : (2 * s.ar.toNat + 2 * k) % 65536 = 2 * (s.ar.toNat + k) := by omega
    rw [hwords k hk (by omega), haddr, Nat.mul_div_cancel_left _ (by norm_num), hws k hk]
  have hdata : (List.range ws.length).flatMap (fun k => wireBytes (read.getD k 0)) = ws.flatMap wireBytes := by
    rw [← range_flatMap_getD ws 0]
    exact List.flatMap_congr fun k hk => by rw [hturn k (List.mem_range.mp hk)]
  refine ⟨t, hexec, ?_⟩
  rw [htrace, ← hdata]
  simp only [htx, if_true, sentBytes_append, sentBytes_map_recv, sentBytes_flatMap, sentBytes_readFlash,
    sentBytes_map_send, List.nil_append]

/-- An EEPROM block-read of bytes that hold `p` sends `p` (R182). -/
theorem exec_read_eeprom_sends (hwf : s.cfg.wf) (hlen : len.toNat = p.length)
    (hin : s.ar.toNat + p.length ≤ s.cfg.eepromBytes)
    (hp : ∀ k < p.length, s.eeprom.read (s.ar.toNat + k) = p.getD k 0) :
    ∃ t, exec (.blkread len s.cfg.mtEeprom) s = .next t ∧ sentBytes t.trace = sentBytes s.trace ++ p := by
  obtain ⟨-, -, -, -, heeprom, -⟩ := id hwf
  obtain ⟨t, read, hexec, hread, -, htrace, hbytes, -⟩ := readEeprom s len hwf
  rw [hread, hlen] at htrace hbytes
  have hturn (k : Nat) (hk : k < p.length) : read.getD k 0 = p.getD k 0 := by
    have haddr : (s.ar.toNat + k) % 65536 = s.ar.toNat + k := by omega
    rw [hbytes k hk (by omega), haddr, hp k hk]
  have hdata : (List.range p.length).flatMap (fun k => [read.getD k 0]) = p := by
    rw [List.flatMap_congr fun k hk => by rw [hturn k (List.mem_range.mp hk)],
      range_flatMap_getD p 0 fun b => [b], List.flatMap_singleton']
  refine ⟨t, hexec, ?_⟩
  rw [htrace]
  simp only [sentBytes_append, sentBytes_map_recv, sentBytes_flatMap, sentBytes_readEeprom, sentBytes_send,
    sentBytes_nil, List.nil_append, hdata]

/-! ### What a block-load leaves -/

/-- A block-load to one of the two memories sends CR and nothing else (spec/43 R168). -/
theorem exec_load_sends {body : LoadBody} (hexec : exec (.blkload len (some body)) s = .next t)
    (htype : body.memType = s.cfg.mtFlash ∨ body.memType = s.cfg.mtEeprom) :
    sentBytes t.trace = sentBytes s.trace ++ [s.cfg.cr] := by
  obtain ⟨hfits, -⟩ := execBlkload_some_iff.mp hexec
  obtain ⟨hin, -⟩ := (fits_some_iff ..).mp hfits
  obtain ⟨u, sent, htaken, hsent, hresponse⟩ := exec_responds hexec
  have hcr : sent = [s.cfg.cr] := hresponse.trans (by rw [if_neg (Nat.not_lt.mpr hin)]; exact if_pos htype)
  obtain ⟨new, htrace, -, hnew⟩ := htaken.trans hsent
  rw [htrace, sentBytes_append, hnew, hcr]
  rfl

/-- Under `commit` a full page loaded at a page-aligned word address of the application region stands there in
order (spec/20 R74, R75). -/
theorem exec_load_flash_page (hinv : s.Inv) (hcommit : s.cfg.pageWriteEffect = .commit)
    (halign : 2 * s.ar.toNat % s.cfg.pageBytes = 0)
    (hregion : 2 * s.ar.toNat + s.cfg.pageBytes ≤ s.cfg.bootStartBytes) (hp : p.length = s.cfg.pageBytes) :
    ∃ t, exec (.blkload (addr s.cfg.pageWords) (some ⟨s.cfg.mtFlash, p⟩)) s = .next t ∧ t.cfg = s.cfg ∧
      ∀ k < s.cfg.pageWords, t.flash.read (s.ar.toNat + k) = (wordsOf p).getD k 0 := by
  obtain ⟨⟨hpos, hmax⟩, -, ⟨-, hboot, hflash⟩, -⟩ := hinv.cfg_wf
  have hlen : (addr s.cfg.pageWords).toNat = s.cfg.pageWords := by rw [addr_toNat]; omega
  have hbytes : s.cfg.pageBytes = 2 * s.cfg.pageWords := rfl
  obtain ⟨t, hexec, hbuf, -, -, -, -, -, hcfg, -⟩ := loadFlashBlockSide s _ p hinv hlen.le (by omega)
  obtain ⟨_, hexec', hpage, -⟩ := loadFlashMemory s _ p (2 * s.ar.toNat) hinv hlen.le (by omega) (by omega)
    (by omega) hcommit
  cases hexec.symm.trans hexec'
  refine ⟨t, hexec, hcfg, fun k hk => ?_⟩
  obtain ⟨q, hq⟩ : s.cfg.pageWords ∣ s.ar.toNat :=
    Nat.dvd_of_mul_dvd_mul_left (by norm_num) (Nat.dvd_of_mod_eq_zero halign)
  have hindex : 2 * s.ar.toNat / s.cfg.pageBytes * s.cfg.pageWords +
      (2 * s.ar.toNat / 2 + k) % s.cfg.pageWords = s.ar.toNat + k := by
    rw [hbytes, Nat.mul_div_mul_left _ _ (by norm_num), Nat.mul_div_cancel_left _ (by norm_num), hq,
      Nat.mul_div_cancel_left _ hpos, Nat.mul_add_mod, Nat.mod_eq_of_lt hk, Nat.mul_comm]
  have hword := (hpage k hk).2
  rwa [hindex, hbuf, hlen, List.drop_of_length_le hinv.buf_length.le, List.append_nil] at hword

/-- Bytes loaded inside the EEPROM stand there in order (spec/43 R163). -/
theorem exec_load_eeprom_bytes (hwf : s.cfg.wf) (hlen : len.toNat ≤ s.cfg.pageWords) (hp : p.length = len.toNat)
    (hin : s.ar.toNat + p.length ≤ s.cfg.eepromBytes) :
    ∃ t, exec (.blkload len (some ⟨s.cfg.mtEeprom, p⟩)) s = .next t ∧ t.cfg = s.cfg ∧
      ∀ k < p.length, t.eeprom.read (s.ar.toNat + k) = p.getD k 0 := by
  obtain ⟨-, -, -, -, heeprom, -⟩ := id hwf
  obtain ⟨hpayload, -⟩ := (s.loadBegun len s.cfg.mtEeprom).loadBytes_eeprom_inside p (by simpa) (by simpa)
  exact ⟨_, exec_load_eeprom hwf hlen hp, by simp, by simpa [State.loadBegun] using hpayload⟩

/-! ### set-address -/

/-- set-address sends CR (spec/41 R140). -/
theorem sentBytes_recvWord_loadAr (s : State) (w : Word) :
    sentBytes ((s.recvWord w).loadAr w).trace = sentBytes s.trace ++ [s.cfg.cr] := by
  simp

/-- set-address keeps the invariant. -/
theorem State.Inv.recvWord_loadAr (h : s.Inv) (w : Word) : ((s.recvWord w).loadAr w).Inv := by
  obtain ⟨hwf, hbuf, hpb, hflash, hfin, heeprom, hein, -⟩ := h
  rw [State.recvWord_loadAr]
  exact ⟨hwf, hbuf, hpb, hflash, hfin, heeprom, hein, trivial⟩

/-! ### The round trips -/

/-- Settles O48: the block-read finds the words of the payload where the page write left them. -/
theorem flashRoundTrip : Obligations.FlashRoundTrip := by
  intro s w p hinv htx hcommit halign hregion hp
  obtain ⟨⟨-, hmax⟩, -, ⟨-, hboot, -⟩, -⟩ := id hinv.cfg_wf
  have hbytes : s.cfg.pageBytes = 2 * s.cfg.pageWords := rfl
  obtain ⟨t₂, hload, hcfg, hpage⟩ := exec_load_flash_page (hinv.recvWord_loadAr w) (by simpa using hcommit)
    (by simpa using halign) (by simpa using hregion) (by simpa using hp)
  simp only [State.loadAr_cfg, State.recvWord_cfg, State.loadAr_ar] at hload hcfg hpage
  have hsent := exec_load_sends hload (.inl (by simp))
  have hwords : (wordsOf p).length = s.cfg.pageWords := by rw [wordsOf_length]; omega
  obtain ⟨t₄, hread, hdata⟩ := exec_read_flash_sends (s := (t₂.recvWord w).loadAr w) (len := addr s.cfg.pageBytes)
    (ws := wordsOf p) (by simpa [hcfg] using hinv.cfg_wf) (by simpa [hcfg] using htx)
    (by rw [hwords, addr_toNat]; omega) (by simp [hcfg]; omega) (by simpa [hwords] using hpage)
  refine ⟨_, t₂, _, t₄, rfl, hload, rfl, by simpa [hcfg] using hread, ?_⟩
  rw [hdata, wordsOf_flatMap_wireBytes (by omega), sentBytes_recvWord_loadAr, hsent, sentBytes_recvWord_loadAr, hcfg]
  simp

/-- Settles O49: the block-read finds the payload where the block-load wrote it. -/
theorem eepromRoundTrip : Obligations.EepromRoundTrip := by
  intro s a p hwf hp hin
  obtain ⟨⟨-, hmax⟩, -⟩ := id hwf
  have hlen : (addr p.length).toNat = p.length := by rw [addr_toNat]; omega
  obtain ⟨t₂, hload, hcfg, hbytes⟩ := exec_load_eeprom_bytes (s := (s.recvWord a).loadAr a) (by simpa using hwf)
    (by simpa [hlen] using hp) hlen.symm (by simpa using hin)
  simp only [State.loadAr_cfg, State.recvWord_cfg, State.loadAr_ar] at hload hcfg hbytes
  have hsent := exec_load_sends hload (.inr (by simp))
  obtain ⟨t₄, hread, hdata⟩ := exec_read_eeprom_sends (s := (t₂.recvWord a).loadAr a) (by simpa [hcfg] using hwf)
    hlen (by simpa [hcfg] using hin) (by simpa using hbytes)
  refine ⟨_, t₂, _, t₄, rfl, hload, rfl, by simpa [hcfg] using hread, ?_⟩
  rw [hdata, sentBytes_recvWord_loadAr, hsent, sentBytes_recvWord_loadAr, hcfg]
  simp

end Sys2Proof.Machine
end

section
/-! SUPPORT. An unknown command byte (O25): it is what the opcode table leaves, a command of that one byte, and its
handler is the raising of an error (spec/45 R195). -/

namespace Sys2Proof.Machine

/-- R96: the unknown row is left for the bytes that no row of the table holds. -/
theorem unknown_wf_iff (c : Config) (cmd : Byte) : (Instr.unknown cmd).wf c = true ↔ cmd ∉ c.op.toList := by
  rw [Instr.wf, Bool.not_eq_true', ← Bool.not_eq_true, List.contains_iff_mem]

/-- R195: the handler takes no byte and raises the error. -/
theorem exec_unknown (s : State) (cmd : Byte) : exec (.unknown cmd) s = .next (s.reject .unknownCommand) := rfl

/-- Settles O25: an unknown command has no argument bytes, and raising its error is one `Send(0x3F)` and the return to
`AwaitCommand` (spec/60 R207). -/
theorem unknownRejected : Obligations.UnknownRejected := by
  intro s c
  refine ⟨unknown_wf_iff s.cfg c, rfl, ?_⟩
  rw [exec_unknown, State.reject_eq]

end Sys2Proof.Machine
end

section
/-! SUPPORT. The exceptions of spec/60: every step of a well-configured block goes on (O10), and the three errors as the
host sees them, command byte included (O37). -/

namespace Sys2Proof.Machine

variable {s t : State} {i : Instr}

/-- Settles O10: what the decoder takes is a well-formed command, which has a meaning; everything else a step can be is
total. -/
theorem stepNeverStops : Obligations.StepNeverStops := by
  intro s hwf
  match henv : s.env with
  | .reset :: _ => exact ⟨_, step_of_reset hwf henv⟩
  | .stall :: _ => exact ⟨_, step_of_stall hwf henv⟩
  | .complete :: _ => exact ⟨_, step_of_complete hwf henv⟩
  | [] =>
    by_cases hphase : s.phase = .awaitCommand
    · match hdec : decode s.cfg s.rx with
      | .ok (i, rest) =>
        rw [stepRunsDecoded s i rest hwf henv hphase hdec]
        exact exec_next hwf (decode_ok hdec).1
      | .error m => exact ⟨_, step_of_incomplete hwf henv fun _ => ⟨m, hdec⟩⟩
    · exact ⟨_, step_of_incomplete hwf henv fun h => absurd h hphase⟩

/-- A block-load that is not refused is a well-formed command (log 26). -/
theorem blkload_wf_of_exec {len : Word} {body : Option LoadBody} (hexec : exec (.blkload len body) s = .next t) :
    (Instr.blkload len body).wf s.cfg = true := by
  by_contra hill
  rw [illFormedRefused s len body (Bool.eq_false_iff.mpr hill)] at hexec
  cases hexec

/-- What a rejected command makes of a step: beside taking the command byte it changes the latches, adds to the record
and returns to `AwaitCommand` (spec/60 R207). -/
theorem step_of_latches_only {cmd mt : Byte} {args rest : List Byte} {len : Word} {txns : List Txn} (hwf : s.cfg.wf)
    (henv : s.env = []) (hphase : s.phase = .awaitCommand) (henc : encode s.cfg i = cmd :: args)
    (hrx : s.rx = cmd :: args ++ rest) (hi : i.wf s.cfg = true)
    (hexec : exec i ((s.setRx rest).recv cmd) = .next { (s.setRx rest).recv cmd with
      len := len, mt := mt, trace := ((s.setRx rest).recv cmd).trace ++ txns, phase := .awaitCommand }) :
    step s = .next { s with rx := rest, len := len, mt := mt, trace := s.trace ++ .recv cmd :: txns } := by
  obtain ⟨rfl, -⟩ := List.cons.inj henc
  refine (stepRunsEncoded s i rest hwf henv hphase hi (henc ▸ hrx)).trans (hexec.trans ?_)
  simp [State.setRx, State.recv, State.log, hphase]

/-- Settles O37: each error is the meaning of a well-formed command (O25, O26, O27, O35), which the step runs. -/
theorem errorsOnTheWire : Obligations.ErrorsOnTheWire := by
  intro s c hi lo mt rest hwf henv hphase
  refine ⟨fun hc hrx => ?_, fun hlong hrx => ?_, fun hflash heeprom hlen hrx => ?_, fun hflash heeprom hrx => ?_⟩
  · obtain ⟨hunknown, henc, hexec⟩ := unknownRejected ((s.setRx rest).recv c) c
    exact step_of_latches_only hwf henv hphase henc hrx (hunknown.mpr hc) hexec
  · obtain ⟨henc, hexec⟩ := loadOversize ((s.setRx rest).recv s.cfg.op.blkload) hi lo hlong
    have hload := blkload_wf_of_exec hexec
    exact step_of_latches_only hwf henv hphase henc hrx hload hexec
  · obtain ⟨henc, hexec⟩ := loadUnknownType ((s.setRx rest).recv s.cfg.op.blkload) hi lo mt hlen hflash heeprom
    have hload := blkload_wf_of_exec hexec
    exact step_of_latches_only hwf henv hphase henc hrx hload hexec
  · obtain ⟨henc, hexec⟩ := readUnknownType ((s.setRx rest).recv s.cfg.op.blkread) hi lo mt hflash heeprom
    exact step_of_latches_only hwf henv hphase henc hrx rfl hexec

end Sys2Proof.Machine
end

section
/-! SUPPORT. A raised reset (O47): of the two memories it changes the place whose erase or write was pending, and nothing
else. -/

namespace Sys2Proof.Machine

variable {s : State} {k : Nat}

/-! ### What a torn place leaves unchanged -/

/-- A torn page leaves the words outside it. -/
theorem State.tearPage_flash_read_other {a : Word} (happ : a.toNat < s.cfg.bootStartBytes)
    (hk : k < pageBase s.cfg a ∨ pageBase s.cfg a + s.cfg.pageWords ≤ k) :
    (s.tearPage a).flash.read k = s.flash.read k := by
  rw [State.tearPage, if_pos happ]
  exact (Memory.read_writeRun ..).trans (if_neg (by simp; omega))

@[simp] theorem State.tearPage_eeprom (a : Word) : (s.tearPage a).eeprom = s.eeprom := by
  unfold State.tearPage
  split <;> rfl

/-- A torn byte leaves the other bytes. -/
theorem State.tearByte_eeprom_read_other {a : Word} (hin : a.toNat < s.cfg.eepromBytes) (hk : k ≠ a.toNat) :
    (s.tearByte a).eeprom.read k = s.eeprom.read k := by
  rw [State.tearByte, if_pos hin]
  exact Memory.read_write_other _ _ _ _ hk

@[simp] theorem State.tearByte_flash (a : Word) : (s.tearByte a).flash = s.flash := by
  unfold State.tearByte
  split <;> rfl

/-! ### What abandoning the pending transaction leaves unchanged -/

/-- A flash word persists unless it lies in the page whose erase or write was pending (spec/70 R231). -/
theorem State.abandon_flash_read
    (h : ∀ a : Word, s.phase = .erasing a ∨ (s.phase = .loadWrite ∧ a = s.ar) →
      a.toNat < s.cfg.bootStartBytes ∧ (k < pageBase s.cfg a ∨ pageBase s.cfg a + s.cfg.pageWords ≤ k)) :
    s.abandon.flash.read k = s.flash.read k := by
  unfold State.abandon
  cases hphase : s.phase
  case erasing a =>
    obtain ⟨happ, hk⟩ := h a (.inl hphase)
    exact State.tearPage_flash_read_other happ hk
  case loadWrite =>
    obtain ⟨happ, hk⟩ := h s.ar (.inr ⟨hphase, rfl⟩)
    exact State.tearPage_flash_read_other happ hk
  case loadByteWrite => rw [State.tearByte_flash]
  all_goals rfl

/-- An EEPROM byte persists unless its write was pending (R231). -/
theorem State.abandon_eeprom_read
    (h : ∀ i b, s.phase = .loadByteWrite i b → s.ar.toNat < s.cfg.eepromBytes ∧ k ≠ s.ar.toNat) :
    s.abandon.eeprom.read k = s.eeprom.read k := by
  unfold State.abandon
  cases hphase : s.phase
  case erasing | loadWrite => rw [State.tearPage_eeprom]
  case loadByteWrite i b =>
    obtain ⟨hin, hk⟩ := h i b hphase
    exact State.tearByte_eeprom_read_other hin hk
  all_goals rfl

/-! ### The step -/

/-- Settles O47: the step is `takeReset`, which abandons the pending transaction and then draws the block, the page
buffer and the surviving bytes anew (spec/70 R230, R231). -/
theorem resetTaken : Obligations.ResetTaken := by
  intro s moves hwf henv
  obtain ⟨hcfg, -, -, -, -, -, -, hrx, hmoves, htrace⟩ := (s.dropMove moves).abandon_frame
  have hbuf : (s.dropMove moves).takeReset.buf.length = s.cfg.pageWords := by simp [State.takeReset, hcfg]
  have hpb : (s.dropMove moves).takeReset.pb.length = s.cfg.pageWords := by simp [State.takeReset, hcfg]
  have hsurvive : (s.dropMove moves).takeReset.rx.Sublist s.rx := hrx ▸ survivors_sublist _ _
  exact ⟨_, step_of_reset hwf henv, rfl, hmoves, htrace, hcfg, hsurvive, hbuf, hpb,
    fun _ h => State.abandon_flash_read h, fun _ h => State.abandon_eeprom_read h⟩

end Sys2Proof.Machine
end
